-- ==== Sys2Proof/Word.lean ====
section
/-! DEFINITION. The words of the engine: every register is one byte (`20_memory.md` R42), every value is unsigned and bit 0 is
the least significant bit (`00_scope.md` R5). The widths are those of `00_scope.md` R4. -/

namespace Sys2Proof

/-- A bus byte and a register byte, `DATA_W = 8` (R4, R5). -/
abbrev Byte := BitVec 8

/-- A 3-bit register offset (`20_memory.md` R40, R41). -/
abbrev Offset := BitVec 3

/-- The prescaler field, `PS_W = 2` (R4, `10_state.md` R23). -/
abbrev PsField := BitVec 2

/-- The 5-bit status code, STATUS bits 7:3 (`10_state.md` R18, R20). -/
abbrev Code := BitVec 5

/-- The 3-bit command opcode, CTRL bits 2:0 (`30_encoding.md` R61). -/
abbrev CmdCode := BitVec 3

/-- A slave address, `ADDR_W = 7` (R4, `30_encoding.md` R64). -/
abbrev SlaveAddr := BitVec 7

end Sys2Proof
end

