-- ==== Sys2Proof/Config.lean ====
section
/-! DEFINITION. What is fixed for one machine and not stated by an operation rule: the parameters of `00_scope.md` R4 and
the free values `any` of R6. An `opaque` constant has no body: nothing can be proved of its value, so a statement about it
holds for every value. -/

namespace Sys2Proof.Config

/-- The host's retry budget, "fixed at 20" (R4, `46_host_sequences.md` R147). -/
def retryBudget : Nat := 20

/-- `TARGET_BUS_HZ_DEFAULT`, the default target bus clock of `configure` (R4, `45_configure.md` R135). -/
def targetBusHzDefault : Nat := 200000

/-- OPEN (R4, `45_configure.md` R136): `div_of(cpu_hz, bus_hz)`, "a total deterministic function", nothing more (log 15). -/
opaque divOf : Nat → Nat → Byte

/-- OPEN (R4, D22): `bus_hz_of(cpu_hz, DIV, PS)`; "no rule uses it" (log 15). -/
opaque busHzOf : Nat → Byte → PsField → Nat

/-- OPEN (R4, `46_host_sequences.md` R156): whether the host issues STOP on a mid-transaction abort (log 15). -/
opaque stopOnAbort : Bool

/-- OPEN (R4, `20_memory.md` R41): the base of the register space in the host's address space; "no rule depends on it" (log 15). -/
opaque regBase : Nat

/-- The n-th `any` byte (R6): "a fresh draw under no law, different at each use". A free value (log 4). -/
opaque anyByte : Nat → Byte

/-- The n-th draw of an accepted code for a START accepted from `Unknown` (`40_start.md` R86, U16): `true` draws `StartOk`,
`false` draws `RepeatedStartOk`. A free value (log 4). -/
opaque anyStartFresh : Nat → Bool

end Sys2Proof.Config
end

