-- ==== Sys2Proof/Syntax.lean ====
section
/-! DEFINITION. The commands of the engine, which "have in place of instructions: one-byte writes to the control register"
(`30_encoding.md` R60): one constructor for each of the seven rows of `spec/opcode_table.json`. -/

namespace Sys2Proof

/-- A command as the CTRL write that issues it. `ie` is the new value of `CTRL.IE`, `en` that of `CTRL.EN` (R61); a bus command
always has `en = 1` (R65). `rstart` is the name of START "issued while `held(LINK)` is true", with the same bits (R62). -/
inductive Instr where
  /-- NOP (`45_configure.md` R130). -/
  | nop (ie en : Bool)
  /-- START (`40_start.md` R80). -/
  | start (ie : Bool)
  /-- RSTART, the repeated start (R62, `40_start.md` R83). -/
  | rstart (ie : Bool)
  /-- STOP (`43_stop.md` R110). -/
  | stop (ie : Bool)
  /-- TX (`41_transmit.md` R90). -/
  | tx (ie : Bool)
  /-- RX_ACK (`42_receive.md` R100). -/
  | rxAck (ie : Bool)
  /-- RX_NACK (`42_receive.md` R101). -/
  | rxNack (ie : Bool)
deriving DecidableEq, Repr

end Sys2Proof
end

