-- ==== Sys2Proof/WellFormed.lean ====
section
/-! DEFINITION. Which commands are well-formed where. Every operand value is legal (R61); the one condition the spec puts on a
command's NAME is that of `30_encoding.md` R62: START and RSTART share their bits and are told apart by `held(LINK)`. -/

namespace Sys2Proof

/-- `i` is the right name of its bits when the engine holds the bus (`held = true`) or is not known to hold it
(`held = false`; R62, and log 6 for `LINK = Unknown`). -/
def Instr.wellFormed (held : Bool) : Instr → Bool
  | .nop _ _ => true
  | .start _ => !held
  | .rstart _ => held
  | .stop _ => true
  | .tx _ => true
  | .rxAck _ => true
  | .rxNack _ => true

end Sys2Proof
end

