-- ==== Sys2Proof/Decode.lean ====
section
/-! DEFINITION. The command decoder and encoder, from `30_encoding.md` R60 to R67. One format, one byte, `i e 0 0 0 c c c`. -/

namespace Sys2Proof

/-- Why a CTRL write is reserved (R65); each is `refuse(U6)`. -/
inductive Reject where
  /-- "`v[5:3] != 0`". -/
  | zeroFieldSet
  /-- "`cmd = 0b110` or `cmd = 0b111`". -/
  | reservedCommand
  /-- "`cmd` is a bus command (0b001 to 0b101) and `en = 0`". -/
  | busCommandWithoutEnable
deriving DecidableEq, Repr

/-- What a CTRL write decodes to: a command, or a reserved encoding by name. -/
inductive Decoded where
  | command (i : Instr)
  | reserved (r : Reject)
deriving DecidableEq, Repr

/-- Field `ie`, bit 7 (R61). -/
def fieldIe (v : Byte) : Bool := v.getLsbD 7

/-- Field `en`, bit 6 (R61). -/
def fieldEn (v : Byte) : Bool := v.getLsbD 6

/-- Field `zero`, bits 5:3 (R61). -/
def fieldZero (v : Byte) : BitVec 3 := v.extractLsb' 3 3

/-- Field `cmd`, bits 2:0 (R61). -/
def fieldCmd (v : Byte) : CmdCode := v.extractLsb' 0 3

/-- The bus command of an opcode, `none` for a reserved one (R62). The opcode of START is also that of RSTART; the hardware
tells the two apart by whether it holds the bus. -/
def busCommand (held ie : Bool) (cmd : CmdCode) : Option Instr :=
  if cmd = 0b001#3 then some (if held then .rstart ie else .start ie)
  else if cmd = 0b010#3 then some (.stop ie)
  else if cmd = 0b011#3 then some (.tx ie)
  else if cmd = 0b100#3 then some (.rxAck ie)
  else if cmd = 0b101#3 then some (.rxNack ie)
  else none

/-- The decode of R67, "total on all 256 byte values", in its order: bits 5:3, reserved opcodes, NOP, then `en`. -/
def decode (held : Bool) (v : Byte) : Decoded :=
  if fieldZero v ≠ 0#3 then .reserved .zeroFieldSet
  else if fieldCmd v = 0b000#3 then .command (.nop (fieldIe v) (fieldEn v))
  else
    match busCommand held (fieldIe v) (fieldCmd v) with
    | none => .reserved .reservedCommand
    | some i => if fieldEn v then .command i else .reserved .busCommandWithoutEnable

/-- The byte `{ie, en, 0b000, cmd}` (R61). -/
def ctrlByte (ie en : Bool) (cmd : CmdCode) : Byte :=
  BitVec.ofBool ie ++ BitVec.ofBool en ++ 0b000#3 ++ cmd

/-- The opcode of a command (R62). -/
def Instr.cmdCode : Instr → CmdCode
  | .nop _ _ => 0b000#3
  | .start _ => 0b001#3
  | .rstart _ => 0b001#3
  | .stop _ => 0b010#3
  | .tx _ => 0b011#3
  | .rxAck _ => 0b100#3
  | .rxNack _ => 0b101#3

/-- The operand `ie` of a command (R61). -/
def Instr.ie : Instr → Bool
  | .nop ie _ => ie
  | .start ie => ie
  | .rstart ie => ie
  | .stop ie => ie
  | .tx ie => ie
  | .rxAck ie => ie
  | .rxNack ie => ie

/-- The `en` bit of a command: NOP's operand, 1 for a bus command (R61, R65). -/
def Instr.en : Instr → Bool
  | .nop _ en => en
  | .start _ => true
  | .rstart _ => true
  | .stop _ => true
  | .tx _ => true
  | .rxAck _ => true
  | .rxNack _ => true

/-- The command byte of a command (R61, R62). -/
def encode (i : Instr) : Byte := ctrlByte i.ie i.en i.cmdCode

/-- The host's reading of the decoder: the command whose bits, numbered as `spec/opcode_table.json` numbers them, are `w`,
for an engine that does not hold the bus (as after reset), so that `0x41` reads as START (log 6); a word of more than one byte is none (log 19). -/
def decodeTableWord (nbits w : Nat) : Option Instr :=
  if nbits ≤ 8 ∧ w < 256 then
    match decode false (BitVec.ofNat 8 w) with
    | .command i => some i
    | .reserved _ => none
  else none

end Sys2Proof
end

