-- ==== Sys2Proof/Machine/State.lean ====
section
/-! DEFINITION. The state of the machine: the engine's tuple (`10_state.md` R10), the host agent (`46_host_sequences.md` R140,
R146, R147) and the inputs of the environment (`20_memory.md` R52). Plain data throughout. -/

namespace Sys2Proof.Machine

/-! ## The engine's types -/

/-- BusStatus, the twelve members of `10_state.md` R19. -/
inductive BusStatus where
  | busError
  | startOk
  | repeatedStartOk
  | mtSlaAck
  | mtSlaNack
  | mtDataAck
  | mtDataNack
  | arbLost
  | mrSlaAck
  | mrSlaNack
  | mrDataAck
  | mrDataNack
deriving DecidableEq, Repr

/-- The three outcomes of a transmitted byte (`44_status_decoder.md` R122). -/
inductive TxOutcome where
  | acked
  | rejected
  | unexpected
deriving DecidableEq, Repr

/-- `LINK`, where the engine stands in the bus protocol (`10_state.md` R24). -/
inductive Link where
  | idle
  | started
  | mt
  | mr
  | halted
  | unknown
deriving DecidableEq, Repr

/-- `BUSY`, the one-entry command slot (`10_state.md` R12). `tx` holds the byte captured at issue, `rx` the acknowledge choice
`k` (`true` for `k = 1`, acknowledge). -/
inductive Busy where
  | none
  | start
  | tx (b : Byte)
  | rx (k : Bool)
  | stop
deriving DecidableEq, Repr

/-- The outcome carried by a `StartAttempt` event (`10_state.md` R26). -/
inductive StartEvent where
  | fresh
  | repeated
  | collision
  | error
deriving DecidableEq, Repr

/-- The answer carried by a `Tx` event, the answer set of `env.tx(b)` (`10_state.md` R26, `20_memory.md` R52). -/
inductive TxAnswer where
  | ack
  | nack
  | lost
  | error
deriving DecidableEq, Repr

/-- The answer carried by an `Rx` event (`10_state.md` R26). -/
inductive RxEvent where
  | ok
  | lost
  | error
deriving DecidableEq, Repr

/-- A bus event (`10_state.md` R26). -/
inductive BusEvent where
  | startAttempt (outcome : StartEvent)
  | tx (b : Byte) (a : TxAnswer)
  | rx (d : Byte) (k : Bool) (a : RxEvent)
  | stop (h : Bool)
deriving DecidableEq, Repr

/-! ## The environment's types -/

/-- The answer set of `env.start(held)` (`20_memory.md` R52). -/
inductive StartAnswer where
  | accept
  | collide
  | error
deriving DecidableEq, Repr

/-- The answer set of `env.rx(k)` (`20_memory.md` R52). -/
inductive RxAnswer where
  | ok (d : Byte)
  | lost
  | error
deriving DecidableEq, Repr

/-- What happened on the bus while a command was in flight, the oracle's draw of R52 given by its causes: a bus fault, a lost
arbitration or collision, the acknowledge of a transmitted byte, the byte of a receive. Which answer they make is R174
(`Machine/Environment.lean`, log 10). -/
structure Env where
  busFault : Bool
  arbLost : Bool
  ack : Bool
  data : Byte
deriving DecidableEq, Repr

/-! ## The host's types -/

/-- One register access of the host (`20_memory.md` R42): `MemRead(off, 1)` or `MemWrite(off, 1, v)`. -/
inductive Access where
  | read (off : Offset)
  | write (off : Offset) (v : Byte)
deriving DecidableEq, Repr

/-- The registers of the map R41. -/
inductive Reg where
  | ctrl
  | status
  | data
  | div
  | presc
  | reserved
deriving DecidableEq, Repr

/-- A primitive of the host (`46_host_sequences.md` R141 to R145). `readByte true` is `read_byte_ack`, `readByte false` is
`read_byte_nack`. -/
inductive Prim where
  | start
  | stop
  | writeByte (b : Byte)
  | readByte (ack : Bool)
deriving DecidableEq, Repr

/-- Where the host stands in a primitive's listing (R141 to R145): `load` writes DATA (`write_byte` only), `issue` writes the
command byte, `poll` reads CTRL, `take` reads STATUS or DATA. -/
inductive PrimPos where
  | load
  | issue
  | poll
  | take
deriving DecidableEq, Repr

/-- What a primitive returns (R141 to R145): the Boolean of `start`, the outcome of `write_byte`, the byte of a receive,
nothing for `stop`. -/
inductive PrimResult where
  | accepted (b : Bool)
  | outcome (o : TxOutcome)
  | byte (d : Byte)
  | done
deriving DecidableEq, Repr

/-- The transaction status codes by cause (`46_host_sequences.md` R148). -/
inductive TxnStatus where
  | success
  | startExhausted
  | addressExhausted
  | offsetWriteFailed
  | repeatedStartFailed
  | dataWriteFailed
  | readAddressFailed
deriving DecidableEq, Repr

/-- Which of the two calls a transaction is (R146: "The direction is not an argument"): `read` of `count` bytes, or `write` of
the `byte_count` source bytes. -/
inductive TxnKind where
  | read (count : Nat)
  | write (source : List Byte)
deriving DecidableEq, Repr

/-- A transaction in progress (R146, R147): its descriptor, the destination bytes received so far in ascending index order
(R153), and the retry budget. -/
structure Txn where
  kind : TxnKind
  slave : SlaveAddr
  deviceRegister : Byte
  destination : List Byte
  budget : Nat
deriving DecidableEq, Repr

/-- Where a transaction stands, the state names of R157. `readData left` receives a byte with `left` more to come;
`writeData b rest` sends `b` with `rest` to come; `stopping st` is in the `stop()` before returning `st` (the last step of a
successful transaction, and the abort paths that stop, R150, R154 to R156). -/
inductive Phase where
  | startPending
  | addressPending
  | offsetPhase
  | repeatedStart
  | readAddressPending
  | readData (left : Nat)
  | writeData (b : Byte) (rest : List Byte)
  | stopping (st : TxnStatus)
deriving DecidableEq, Repr

/-- Where the host stands in `configure` (`45_configure.md` R135): the writes of DIV, PRESC and CTRL, in that order. -/
inductive ConfigPos where
  | div (d : Byte)
  | presc
  | enable
deriving DecidableEq, Repr

/-- Where the host's program stands (R140). -/
inductive HostControl where
  | idle
  | configure (pos : ConfigPos)
  | prim (p : Prim) (pos : PrimPos)
  | txn (t : Txn) (ph : Phase) (pos : PrimPos)
deriving DecidableEq, Repr

/-- What a call of the host returned: `configure` nothing, a primitive its result, a transaction its status and the
destination bytes. -/
inductive HostReturn where
  | configured
  | prim (r : PrimResult)
  | txn (st : TxnStatus) (destination : List Byte)
deriving DecidableEq, Repr

/-- A call of the host (`30_encoding.md` R70). The slave address and the buffer are unchecked arguments (R146); `busHz = none`
takes the default of R135. -/
inductive HostCall where
  | configure (cpuHz : Nat) (busHz : Option Nat)
  | prim (p : Prim)
  | read (slaveAddr : Nat) (byteCount : Byte) (deviceRegister : Byte) (bufferLength : Nat)
  | write (slaveAddr : Nat) (byteCount : Byte) (deviceRegister : Byte) (source : List Byte)
deriving DecidableEq, Repr

/-- What happens next, from outside the engine (`20_memory.md` R47, R52; log 1). -/
inductive Input where
  /-- A register access by whatever host reaches the block. -/
  | access (a : Access)
  /-- The host's program calls one of its functions; no register access yet. -/
  | call (c : HostCall)
  /-- The host's program makes its next register access. -/
  | host
  /-- The environment enables the completion step of the command in flight and answers it. -/
  | complete (env : Env)
  /-- `rst` is asserted (`70_reset_and_hazards.md` R190). -/
  | reset
deriving DecidableEq, Repr

/-! ## The state -/

/-- The machine: engine, host agent, and what is to happen next. `STO`, `irq` and the decoder's outputs are computed views
(`Machine/Flags.lean`, log 16). The block has no memory beside these registers (R12, `20_memory.md` R40; log 21). A register the
spec leaves *unspecified* is `none` (log 5). -/
structure State where
  /-- `DATA`, a byte or unspecified (R11). -/
  data : Option Byte
  /-- `BUSY` (R12). -/
  busy : Busy
  /-- `CTRL.IE` (R15). -/
  ie : Bool
  /-- `CTRL.EN` (R14). -/
  en : Bool
  /-- `CTRL.RDY` (R16). -/
  rdy : Bool
  /-- `STATUS.CODE`, a status or unspecified (R18, R30). -/
  code : Option BusStatus
  /-- `FRESH` (R21). -/
  fresh : Bool
  /-- `DIV`, a byte or unspecified (R22). -/
  div : Option Byte
  /-- `PRESC.PS`, two bits or unspecified (R23). -/
  ps : Option PsField
  /-- `LINK` (R24). -/
  link : Link
  /-- `TRACE`, oldest event first (R26). -/
  trace : List BusEvent
  /-- The byte the last `MemRead` returned; the model's own field (log 7). -/
  rdata : Byte
  /-- How many `any` values have been drawn; the model's own field (log 4). -/
  draws : Nat
  /-- The host's program (R140). -/
  host : HostControl
  /-- What the host's last call returned, if one has (log 12). -/
  returned : Option HostReturn
  /-- What is to happen next, first to come first; the model's own field (log 1). -/
  inputs : List Input
deriving DecidableEq, Repr

/-- The machine after reset: the engine's values are those of `10_state.md` R30, with the four unspecified registers marked so;
the host is idle (log 12), nothing is to come (log 3), and `rdata` and `draws` are the model's own (logs 7 and 4). -/
def State.reset : State where
  data := none
  busy := .none
  ie := false
  en := false
  rdy := false
  code := none
  fresh := false
  div := none
  ps := none
  link := .idle
  trace := []
  rdata := 0x00#8
  draws := 0
  host := .idle
  returned := none
  inputs := []

/-- Why a step is *stuck*: "the agent has no enabled step" (`00_scope.md` R8, `60_exceptions.md` R183; log 2). The engine itself
never faults (R170). Each is safe: the model stops where the hardware waits. -/
inductive Fault where
  /-- Raised by `step` when the input list is at its end: nothing is to happen any more (R95, R198). Safe. -/
  | stuckNoInput
  /-- Raised by an input that enables a completion step while no command is in flight: the engine has no step "before the
  command was issued" (R52). Safe. -/
  | stuckEngine
  /-- Raised by an input that lets the host's program move while it is in no call, or at a place no listing has. Safe. -/
  | stuckHost
deriving DecidableEq, Repr

/-- What the spec gives no meaning: the `refuse` of R183, one constructor for each named reason, and two of the model.
Each is safe: the run ends and nothing is claimed of it. -/
inductive Refusal where
  /-- An instruction without a meaning in `exec`. No arm of this model raises it. Safe. -/
  | notModelled (mnemonic : String)
  /-- U2: a write of DIV or PRESC while not quiescent (`45_configure.md` R133, R134, R138). Safe. -/
  | configureWhileNotQuiescent
  /-- U3: a bus command while one is in flight (`30_encoding.md` R66). Safe. -/
  | commandInFlight
  /-- U5: a bus command without a meaning in the current LINK (R24, R66); also log 9. Safe. -/
  | noMeaningInLink
  /-- U6: a reserved CTRL write (R65), with the decoder's reason. Safe. -/
  | reservedEncoding (why : Reject)
  /-- U7: a bus command while `CTRL.EN = 0` (R66). Safe. -/
  | notEnabled
  /-- U8: a TX while DATA is unspecified (R66). Safe. -/
  | transmitUnspecifiedData
  /-- U9: a write of DATA while a command is in flight (`20_memory.md` R45). Safe. -/
  | dataWriteInFlight
  /-- U10: a write of a reserved offset (`20_memory.md` R43). Safe. -/
  | reservedOffsetWrite
  /-- U13: a buffer shorter than `byte_count` (`46_host_sequences.md` R146). Safe. -/
  | bufferTooShort
  /-- U14: a slave address above 127 (R64, R146). Safe. -/
  | slaveAddressOutOfRange
  /-- U15: disabling while not quiescent (`45_configure.md` R132). Safe. -/
  | disableWhileNotQuiescent
  /-- A host call while the host is in a call (R140: "The host is single-threaded and runs one transaction at a time"; log 14).
  Safe. -/
  | hostReentered
deriving DecidableEq, Repr

/-- The outcome of a step of this machine. -/
abbrev Result := Host.Outcome State Fault Refusal

end Sys2Proof.Machine
end

