-- ==== Sys2Proof/Machine/Environment.lean ====
section
/-! DEFINITION. The environment's answer to the question of each completion step (`20_memory.md` R52), made from what happened
on the bus by the precedence of `60_exceptions.md` R174: "`BusError`, then `ArbLost`, then the acknowledge result". -/

namespace Sys2Proof.Machine

/-- The answer of `env.start(held)`. -/
def Env.startAnswer (e : Env) : StartAnswer :=
  if e.busFault then .error else if e.arbLost then .collide else .accept

/-- The answer of `env.tx(b)`. -/
def Env.txAnswer (e : Env) : TxAnswer :=
  if e.busFault then .error else if e.arbLost then .lost else if e.ack then .ack else .nack

/-- The answer of `env.rx(k)`. -/
def Env.rxAnswer (e : Env) : RxAnswer :=
  if e.busFault then .error else if e.arbLost then .lost else .ok e.data

end Sys2Proof.Machine
end

