-- ==== Sys2Proof/Machine/Flags.lean ====
section
/-! DEFINITION. The flags (`10_state.md` R27), the numeric status codes (R20) and the status decoder
(`44_status_decoder.md`). The engine has no arithmetic condition codes. -/

namespace Sys2Proof.Machine

/-- `CTRL.STO`, "1 exactly while `BUSY = Stop`" (R17). -/
def State.sto (s : State) : Bool := s.busy == .stop

/-- The interrupt request output, `irq = CTRL.IE and CTRL.RDY` (`60_exceptions.md` R173). Nothing takes it (log 20). -/
def State.irq (s : State) : Bool := s.ie && s.rdy

/-- `held(LINK)` (R25); `none` is "not known". -/
def Link.held : Link → Option Bool
  | .idle => some false
  | .started => some true
  | .mt => some true
  | .mr => some true
  | .halted => some true
  | .unknown => none

/-- Whether the engine knows that it holds the bus, the case in which START is called RSTART (`30_encoding.md` R62, log 6). -/
def State.holdsBus (s : State) : Bool := s.link.held == some true

/-- *Quiescent*: `BUSY = None` and `LINK = Idle` (`45_configure.md` R138). -/
def State.quiescent (s : State) : Bool := s.busy == .none && s.link == .idle

/-- The values of `LINK` in which TX has a meaning (R24, `41_transmit.md` R90). -/
def Link.mayTransmit : Link → Bool
  | .started => true
  | .mt => true
  | .idle => false
  | .mr => false
  | .halted => false
  | .unknown => false

/-- The value of `LINK` in which RX_ACK and RX_NACK have a meaning (R24, `42_receive.md` R100, R101). -/
def Link.mayReceive : Link → Bool
  | .mr => true
  | .idle => false
  | .started => false
  | .mt => false
  | .halted => false
  | .unknown => false

/-- The 5-bit code of each status (R20, configuration D12). -/
def BusStatus.code : BusStatus → Code
  | .busError => 0b00000#5
  | .startOk => 0b00001#5
  | .repeatedStartOk => 0b00010#5
  | .mtSlaAck => 0b00011#5
  | .mtSlaNack => 0b00100#5
  | .mtDataAck => 0b00101#5
  | .mtDataNack => 0b00110#5
  | .arbLost => 0b00111#5
  | .mrSlaAck => 0b01000#5
  | .mrSlaNack => 0b01001#5
  | .mrDataAck => 0b01010#5
  | .mrDataNack => 0b01011#5

/-- `start_accepted(c)` (`44_status_decoder.md` R120, R121), total on the 32 codes. -/
def startAccepted (c : Code) : Bool :=
  c == BusStatus.startOk.code || c == BusStatus.repeatedStartOk.code

/-- `KnownGood` (R123). -/
def knownGood (c : Code) : Bool :=
  c == BusStatus.mtSlaAck.code || c == BusStatus.mrSlaAck.code || c == BusStatus.mtDataAck.code

/-- `KnownBad` (R124). -/
def knownBad (c : Code) : Bool :=
  c == BusStatus.mtSlaNack.code || c == BusStatus.mrSlaNack.code || c == BusStatus.mtDataNack.code ||
    c == BusStatus.busError.code

/-- `tx_outcome(c)` (R122, R125), total on the 32 codes. -/
def txOutcome (c : Code) : TxOutcome :=
  if knownGood c then .acked else if knownBad c then .rejected else .unexpected

/-- The field `TXO` of an outcome (R126); 0b11 is never produced. -/
def TxOutcome.field : TxOutcome → BitVec 2
  | .acked => 0b00#2
  | .rejected => 0b01#2
  | .unexpected => 0b10#2

/-- The STATUS byte of a code, `{CODE[4:0], SOK, TXO[1:0]}` (R126). -/
def statusByte (c : Code) : Byte := c ++ BitVec.ofBool (startAccepted c) ++ (txOutcome c).field

/-- The CTRL byte as read, `{IE, EN, RDY, STO, 0b0000}` (`20_memory.md` R44). -/
def State.ctrlByte (s : State) : Byte :=
  BitVec.ofBool s.ie ++ BitVec.ofBool s.en ++ BitVec.ofBool s.rdy ++ BitVec.ofBool s.sto ++ 0b0000#4

end Sys2Proof.Machine
end

