-- ==== Sys2Proof/Machine/Operands.lean ====
section
/-! DEFINITION. Every operand form of the spec: the register map and its one addressing mode, the absolute offset
(`20_memory.md` R41, R59), and the bytes the host assembles (`30_encoding.md` R64). -/

namespace Sys2Proof.Machine

/-- The register at an offset (R41). -/
def regAt (off : Offset) : Reg :=
  if off = 0#3 then .ctrl
  else if off = 1#3 then .status
  else if off = 2#3 then .data
  else if off = 3#3 then .div
  else if off = 4#3 then .presc
  else .reserved

/-- The offset of CTRL (R41). -/
def offCtrl : Offset := 0#3

/-- The offset of STATUS (R41). -/
def offStatus : Offset := 1#3

/-- The offset of DATA (R41). -/
def offData : Offset := 2#3

/-- The offset of DIV (R41). -/
def offDiv : Offset := 3#3

/-- The offset of PRESC (R41). -/
def offPresc : Offset := 4#3

/-- The field PS a write of PRESC takes, "`PS <- v[1:0]` and bits 7:2 of `v` are ignored" (`45_configure.md` R134). -/
def prescField (v : Byte) : PsField := v.extractLsb' 0 2

/-- PRESC as read, `{0b000000, PS}` (`20_memory.md` R44). -/
def prescByte (p : PsField) : Byte := 0b000000#6 ++ p

/-- The direction bit of an address byte, its bit 0 (R64; `00_scope.md` R5): `true` is read. -/
def dirBit (b : Byte) : Bool := b.getLsbD 0

/-- The address byte `{slave_addr[6:0], dir}` (R64); `read` is `dir = 1`. -/
def addrByte (a : SlaveAddr) (read : Bool) : Byte := a ++ BitVec.ofBool read

end Sys2Proof.Machine
end

