-- ==== Sys2Proof/Machine/Ops.lean ====
section
/-! DEFINITION. The named updates of the state and the operations the commands share: acceptance (`30_encoding.md` R66),
issue (R80, R90, R100, R101, R110), and the atomic publication at completion (`20_memory.md` R48), which is what this hardware
has in place of taking an exception (`60_exceptions.md` R170, R175). There is no return from exception (R176). -/

namespace Sys2Proof.Machine

/-! ## Updates -/

/-- A command goes in flight: `BUSY <- b`, `RDY <- 0`, `FRESH <- 0`, and `CTRL.IE <- ie` (R67, R80). -/
def State.issue (s : State) (ie : Bool) (b : Busy) : State :=
  { s with ie := ie, busy := b, rdy := false, fresh := false }

/-- The completion step of START, TX, RX_ACK and RX_NACK, "in one atomic step" (R48): DATA (`none` is unspecified), CODE, LINK,
the event, `FRESH <- 1`, `BUSY <- None`, `RDY <- 1`. -/
def State.publish (s : State) (d : Option Byte) (c : BusStatus) (l : Link) (e : BusEvent) : State :=
  { s with data := d, code := some c, link := l, trace := s.trace ++ [e], fresh := true, busy := .none, rdy := true }

/-- The completion step of STOP (`43_stop.md` R111 to R114): no status, no RDY, no FRESH. -/
def State.stopped (s : State) (h : Bool) : State :=
  { s with data := none, link := .idle, trace := s.trace ++ [.stop h], busy := .none }

/-- `CTRL.IE <- ie`. -/
def State.setIe (s : State) (ie : Bool) : State := { s with ie := ie }

/-- `CTRL.EN <- 1 ; CTRL.IE <- ie` (`45_configure.md` R130, R131). -/
def State.enable (s : State) (ie : Bool) : State := { s with en := true, ie := ie }

/-- `CTRL.EN <- 0 ; CTRL.IE <- ie ; RDY <- 0 ; FRESH <- 0` (R132). -/
def State.disable (s : State) (ie : Bool) : State := { s with en := false, ie := ie, rdy := false, fresh := false }

/-- `DATA <- v` (`20_memory.md` R45). -/
def State.loadData (s : State) (v : Byte) : State := { s with data := some v }

/-- `DIV <- v` (R133). -/
def State.loadDiv (s : State) (v : Byte) : State := { s with div := some v }

/-- `PS <- p` (R134). -/
def State.loadPs (s : State) (p : PsField) : State := { s with ps := some p }

/-- `FRESH <- 0`, the read side effect of STATUS (R21, R44). -/
def State.consumeStatus (s : State) : State := { s with fresh := false }

/-- The host is given `v` by its read. -/
def State.returnByte (s : State) (v : Byte) : State := { s with rdata := v }

/-- One `any` value has been drawn (`00_scope.md` R6). -/
def State.drawn (s : State) : State := { s with draws := s.draws + 1 }

/-- The host's program moves to `h`. -/
def State.setHost (s : State) (h : HostControl) : State := { s with host := h }

/-- The host's call returns `r`. -/
def State.hostReturns (s : State) (r : HostReturn) : State := { s with host := .idle, returned := some r }

/-- `inputs` is what is left of the inputs. -/
def State.setInputs (s : State) (inputs : List Input) : State := { s with inputs := inputs }

/-- `rst` (`70_reset_and_hazards.md` R190): every piece of the engine's state to its value of R30; a command in flight "has no
completion step, emits no event and reports no status". The other agents are as they were (log 11). -/
def State.assertReset (s : State) : State :=
  { State.reset with rdata := s.rdata, draws := s.draws, host := s.host, returned := s.returned, inputs := s.inputs }

/-! ## Free values -/

/-- The host's read returns `any` (R6). -/
def State.returnAny (s : State) : State := (s.returnByte (Config.anyByte s.draws)).drawn

/-! ## Shared operations -/

/-- Run `k` on a next state; a fault or a refusal stays. -/
def andThen (r : Result) (k : State → Result) : Result :=
  match r with
  | .next s => k s
  | .fault f => .fault f
  | .refused f => .refused f

/-- The acceptance conditions that every bus command has, in the order of R67: `CTRL.EN = 1` else `refuse(U7)`, `BUSY = None`
else `refuse(U3)`. -/
def accept (s : State) (k : State → Result) : Result :=
  if s.en = false then .refused .notEnabled
  else if s.busy ≠ .none then .refused .commandInFlight
  else k s

end Sys2Proof.Machine
end

