-- ==== Sys2Proof/Machine/Receive.lean ====
section
/-! DEFINITION. RX_ACK and RX_NACK, byte receive with acknowledge control, `42_receive.md`. -/

namespace Sys2Proof.Machine

/-- `issue(RX_ACK)` and `issue(RX_NACK)` by the acknowledge choice `k` (R100, R101); elsewhere than `MR` it is `refuse(U5)`. -/
def issueRx (ie k : Bool) (s : State) : Result :=
  accept s fun s => if s.link.mayReceive then .next (s.issue ie (.rx k)) else .refused .noMeaningInLink

/-- RX_ACK (R100), `k = 1`. -/
def execRxAck (ie : Bool) (s : State) : Result := issueRx ie true s

/-- RX_NACK (R101), `k = 0`. -/
def execRxNack (ie : Bool) (s : State) : Result := issueRx ie false s

/-- The completion step of a receive with `BUSY = Rx(k)`: a byte (R102), arbitration lost (R103), bus error (R104). The event of
a failed receive carries an `any` byte, a free value. Outside `MR`, where no run has a receive in flight, it reports the same
(log 22). -/
def completeRx (k : Bool) (a : RxAnswer) (s : State) : State :=
  match a with
  | .ok d =>
    s.publish (some d) (if k then .mrDataAck else .mrDataNack) (if k then .mr else .halted) (.rx d k .ok)
  | .lost => s.drawn.publish none .arbLost .idle (.rx (Config.anyByte s.draws) k .lost)
  | .error => s.drawn.publish none .busError .unknown (.rx (Config.anyByte s.draws) k .error)

end Sys2Proof.Machine
end

