-- ==== Sys2Proof/Machine/Start.lean ====
section
/-! DEFINITION. START and the repeated start, `40_start.md`. -/

namespace Sys2Proof.Machine

/-- `issue(START)` (R80): "START has a meaning in every value of `LINK`". -/
def issueStart (ie : Bool) (s : State) : Result :=
  accept s fun s => .next (s.issue ie .start)

/-- START (R80). -/
def execStart (ie : Bool) (s : State) : Result := issueStart ie s

/-- RSTART: the same command by another name (`30_encoding.md` R62); the two part at completion (R82, R83). -/
def execRstart (ie : Bool) (s : State) : Result := issueStart ie s

/-- A start accepted: fresh from `Idle` (R82), repeated while the bus is held (R83), either from `Unknown` (R86, a free value). -/
def startIsAccepted (s : State) : State :=
  match s.link.held with
  | some false => s.publish none .startOk .started (.startAttempt .fresh)
  | some true => s.publish none .repeatedStartOk .started (.startAttempt .repeated)
  | none =>
    if Config.anyStartFresh s.draws then s.drawn.publish none .startOk .started (.startAttempt .fresh)
    else s.drawn.publish none .repeatedStartOk .started (.startAttempt .repeated)

/-- The completion step of START (R81 to R86). -/
def completeStart (a : StartAnswer) (s : State) : State :=
  match a with
  | .accept => startIsAccepted s
  | .collide => s.publish none .arbLost .idle (.startAttempt .collision)
  | .error => s.publish none .busError .unknown (.startAttempt .error)

end Sys2Proof.Machine
end

