-- ==== Sys2Proof/Machine/Stop.lean ====
section
/-! DEFINITION. STOP, `43_stop.md`. -/

namespace Sys2Proof.Machine

/-- STOP: issue (R110). "STOP has a meaning in every value of `LINK`." -/
def execStop (ie : Bool) (s : State) : Result :=
  accept s fun s => .next (s.issue ie .stop)

/-- The completion step of STOP: a stop condition on the bus unless the engine holds nothing, `Stop(0)` from `Idle` (R112),
`Stop(1)` otherwise (R111, R113). -/
def completeStop (s : State) : State := s.stopped (s.link != .idle)

end Sys2Proof.Machine
end

