-- ==== Sys2Proof/Machine/Transmit.lean ====
section
/-! DEFINITION. TX, byte transmit with clock stretch, `41_transmit.md`. A stretch is any number of steps between issue and
completion (R95); no step of the model ends it. -/

namespace Sys2Proof.Machine

/-- TX: issue (R90). The byte is captured now; a LINK without a meaning is `refuse(U5)`, an unspecified DATA `refuse(U8)`, in the
order of R66's table (log 8). -/
def execTx (ie : Bool) (s : State) : Result :=
  accept s fun s =>
    if s.link.mayTransmit then
      match s.data with
      | some b => .next (s.issue ie (.tx b))
      | none => .refused .transmitUnspecifiedData
    else .refused .noMeaningInLink

/-- The status and the LINK of a byte the environment answered with an acknowledge or without: an address byte after a start,
by its direction bit (R92, R93), or a data byte (R94). -/
def txAcknowledged (l : Link) (b : Byte) (ack : Bool) : BusStatus × Link :=
  if l = .started then
    if dirBit b then (if ack then (.mrSlaAck, .mr) else (.mrSlaNack, .halted))
    else (if ack then (.mtSlaAck, .mt) else (.mtSlaNack, .halted))
  else (if ack then (.mtDataAck, .mt) else (.mtDataNack, .halted))

/-- The status and the LINK of a transmitted byte for each answer (R92 to R94, R96, R97). -/
def txReport (l : Link) (b : Byte) (a : TxAnswer) : BusStatus × Link :=
  match a with
  | .ack => txAcknowledged l b true
  | .nack => txAcknowledged l b false
  | .lost => (.arbLost, .idle)
  | .error => (.busError, .unknown)

/-- The completion step of TX with `BUSY = Tx(b)` (R91). The rules R92 to R97 give it only in `Started` and `MT`, where the
command was accepted; elsewhere, in states no run reaches, it has no meaning (log 9). -/
def completeTx (b : Byte) (a : TxAnswer) (s : State) : Result :=
  if s.link.mayTransmit then .next (s.publish none (txReport s.link b a).1 (txReport s.link b a).2 (.tx b a))
  else .refused .noMeaningInLink

end Sys2Proof.Machine
end

