-- ==== Sys2Proof/Machine/Complete.lean ====
section
/-! DEFINITION. The engine's completion step (`00_scope.md` R7, `20_memory.md` R48, R52). -/

namespace Sys2Proof.Machine

/-- The completion step of the command in flight, with the environment's answer. With no command in flight the engine has no
step (R52: "not before the command was issued"; log 2). -/
def complete (env : Env) (s : State) : Result :=
  match s.busy with
  | .none => .fault .stuckEngine
  | .start => .next (completeStart env.startAnswer s)
  | .tx b => completeTx b env.txAnswer s
  | .rx k => .next (completeRx k env.rxAnswer s)
  | .stop => .next (completeStop s)

end Sys2Proof.Machine
end

