-- ==== Sys2Proof/Machine/Configure.lean ====
section
/-! DEFINITION. The configuration side, `45_configure.md`: the NOP command and the writes of DIV and PRESC. -/

namespace Sys2Proof.Machine

/-- `NopWrite(ie, en)` (R130 to R132): keep, enable, or disable; disabling while not quiescent is `refuse(U15)`. -/
def execNop (ie en : Bool) (s : State) : Result :=
  if en = s.en then .next (s.setIe ie)
  else if en then .next (s.enable ie)
  else if s.quiescent then .next (s.disable ie)
  else .refused .disableWhileNotQuiescent

/-- `MemWrite(3, 1, v)` (R133). -/
def writeDiv (v : Byte) (s : State) : Result :=
  if s.quiescent then .next (s.loadDiv v) else .refused .configureWhileNotQuiescent

/-- `MemWrite(4, 1, v)` (R134). -/
def writePresc (v : Byte) (s : State) : Result :=
  if s.quiescent then .next (s.loadPs (prescField v)) else .refused .configureWhileNotQuiescent

end Sys2Proof.Machine
end

