-- ==== Sys2Proof/Machine/Dispatch.lean ====
section
/-! DEFINITION. The meaning of each command at its CTRL write, one arm per constructor of `Instr`. -/

namespace Sys2Proof.Machine

def exec (i : Instr) (s : State) : Host.Outcome State Fault Refusal :=
  match i with
  | .nop ie en => Sys2Proof.Machine.execNop ie en s
  | .start ie => Sys2Proof.Machine.execStart ie s
  | .rstart ie => Sys2Proof.Machine.execRstart ie s
  | .stop ie => Sys2Proof.Machine.execStop ie s
  | .tx ie => Sys2Proof.Machine.execTx ie s
  | .rxAck ie => Sys2Proof.Machine.execRxAck ie s
  | .rxNack ie => Sys2Proof.Machine.execRxNack ie s

end Sys2Proof.Machine
end

