-- ==== Sys2Proof/Machine/Registers.lean ====
section
/-! DEFINITION. The host's register accesses, `20_memory.md` R42 to R45: `MemRead(off, 1)` and `MemWrite(off, 1, v)`. A command
is "taken as a command: at the write itself, atomically" (R50). -/

namespace Sys2Proof.Machine

/-- A read of a register that may be unspecified: its byte, or `any` (R44). -/
def readOr (v : Option Byte) (s : State) : State :=
  match v with
  | some b => s.returnByte b
  | none => s.returnAny

/-- A read of STATUS: the first read after a completion returns the status and clears FRESH, every other returns `any` (R21). A fresh
STATUS without a code, which no run reaches, reads as `any` too (log 22). -/
def readStatus (s : State) : State :=
  match s.fresh, s.code with
  | true, some c => (s.consumeStatus.returnByte (statusByte c.code))
  | true, none => s.consumeStatus.returnAny
  | false, _ => s.returnAny

/-- A read of PRESC: `{0b000000, PS}`, or `{0b000000, any[1:0]}` (R44). -/
def readPresc (s : State) : State :=
  match s.ps with
  | some p => s.returnByte (prescByte p)
  | none => (s.returnByte (prescByte (prescField (Config.anyByte s.draws)))).drawn

/-- `MemRead(off, 1)` (R44); a reserved offset reads `any` (R43). -/
def memRead (off : Offset) (s : State) : State :=
  match regAt off with
  | .ctrl => s.returnByte s.ctrlByte
  | .status => readStatus s
  | .data => readOr s.data s
  | .div => readOr s.div s
  | .presc => readPresc s
  | .reserved => s.returnAny

/-- `CtrlWrite(v)` (`30_encoding.md` R67): decode and issue; a reserved encoding is `refuse(U6)`. -/
def ctrlWrite (v : Byte) (s : State) : Result :=
  match decode s.holdsBus v with
  | .command i => exec i s
  | .reserved why => .refused (.reservedEncoding why)

/-- A write of DATA (R45). -/
def writeData (v : Byte) (s : State) : Result :=
  if s.busy = .none then .next (s.loadData v) else .refused .dataWriteInFlight

/-- `MemWrite(off, 1, v)` (R45); a write of STATUS is ignored, a reserved offset is `refuse(U10)` (R43). -/
def memWrite (off : Offset) (v : Byte) (s : State) : Result :=
  match regAt off with
  | .ctrl => ctrlWrite v s
  | .status => .next s
  | .data => writeData v s
  | .div => writeDiv v s
  | .presc => writePresc v s
  | .reserved => .refused .reservedOffsetWrite

/-- One host access, atomic (R42). -/
def access (a : Access) (s : State) : Result :=
  match a with
  | .read off => .next (memRead off s)
  | .write off v => memWrite off v s

end Sys2Proof.Machine
end

