-- ==== Sys2Proof/Machine/HostAgent.lean ====
section
/-! DEFINITION. The host agent: its primitives and transactions, `46_host_sequences.md`, and `configure`, `45_configure.md` R135.
One step is one register access (`00_scope.md` R7); what the host computes from the byte it read belongs to the same step
(log 12). `stopOnAbort` is the parameter of R156. -/

namespace Sys2Proof.Machine

/-- `sat_dec(n)`: "if n = 0 then 0 else n - 1" (R159). -/
def satDec (n : Nat) : Nat := if n = 0 then 0 else n - 1

/-- The numeric status codes (R148); 4 means different things in `read` and `write` (`90_conflicts.md` C9). -/
def TxnStatus.number : TxnStatus → Nat
  | .success => 0
  | .startExhausted => 1
  | .addressExhausted => 2
  | .offsetWriteFailed => 3
  | .repeatedStartFailed => 4
  | .dataWriteFailed => 4
  | .readAddressFailed => 5

/-! ## Primitives -/

/-- The command byte a primitive issues, with `ie = 0` and `en = 1` (`30_encoding.md` R62, R69). -/
def Prim.commandByte : Prim → Byte
  | .start => encode (.start false)
  | .stop => encode (.stop false)
  | .writeByte _ => encode (.tx false)
  | .readByte true => encode (.rxAck false)
  | .readByte false => encode (.rxNack false)

/-- Where a primitive begins: `write_byte` loads DATA first (R143). -/
def Prim.first : Prim → PrimPos
  | .writeByte _ => .load
  | .start => .issue
  | .stop => .issue
  | .readByte _ => .issue

/-- The register access a primitive makes at a place of its listing (R141 to R145); `none` where it has no such line. -/
def Prim.access : Prim → PrimPos → Option Access
  | .writeByte b, .load => some (.write offData b)
  | .start, .load => none
  | .stop, .load => none
  | .readByte _, .load => none
  | p, .issue => some (.write offCtrl p.commandByte)
  | _, .poll => some (.read offCtrl)
  | .start, .take => some (.read offStatus)
  | .writeByte _, .take => some (.read offStatus)
  | .readByte _, .take => some (.read offData)
  | .stop, .take => none

/-- Whether a poll of CTRL that read `v` ends: bit 5 is 1, or for `stop` bit 4 is 0 (R141, R142; `20_memory.md` R49). There is no
timeout. -/
def Prim.pollEnds (p : Prim) (v : Byte) : Bool :=
  match p with
  | .stop => !v.getLsbD 4
  | .start => v.getLsbD 5
  | .writeByte _ => v.getLsbD 5
  | .readByte _ => v.getLsbD 5

/-- The outcome `write_byte` reads from bits 1:0 of STATUS (R143). -/
def outcomeOf (v : Byte) : TxOutcome :=
  if v.extractLsb' 0 2 = 0b00#2 then .acked else if v.extractLsb' 0 2 = 0b01#2 then .rejected else .unexpected

/-- What a primitive returns, from the byte it took (R141 to R145). -/
def Prim.result (p : Prim) (v : Byte) : PrimResult :=
  match p with
  | .start => .accepted (v.getLsbD 2)
  | .writeByte _ => .outcome (outcomeOf v)
  | .readByte _ => .byte v
  | .stop => .done

/-- Where a primitive goes after an access: on to a place of its listing, or back to its caller. -/
inductive PrimNext where
  | at (pos : PrimPos)
  | returns (r : PrimResult)
deriving DecidableEq, Repr

/-- The order of a primitive's listing (R141 to R145), `v` being the byte read: DATA, the command, the poll until it ends, then
the read of STATUS or DATA; `stop` returns when its poll ends. -/
def Prim.next (p : Prim) (pos : PrimPos) (v : Byte) : PrimNext :=
  match pos with
  | .load => .at .issue
  | .issue => .at .poll
  | .poll => if p.pollEnds v then (if p = .stop then .returns .done else .at .take) else .at .poll
  | .take => .returns (p.result v)

/-- Whether a step of a transaction succeeded: `start()` returned true, `write_byte` returned Acked (R158: every other outcome is
a rejection), or the primitive cannot fail. -/
def PrimResult.ok : PrimResult → Bool
  | .accepted b => b
  | .outcome o => o == .acked
  | .byte _ => true
  | .done => true

/-- The bytes a primitive delivers to the destination buffer (R153). -/
def PrimResult.bytes : PrimResult → List Byte
  | .byte d => [d]
  | .accepted _ => []
  | .outcome _ => []
  | .done => []

/-! ## Transactions -/

/-- The primitive a transaction is in at each phase (R150 to R155, R157). -/
def Txn.prim (t : Txn) : Phase → Prim
  | .startPending => .start
  | .addressPending => .writeByte (addrByte t.slave false)
  | .offsetPhase => .writeByte t.deviceRegister
  | .repeatedStart => .start
  | .readAddressPending => .writeByte (addrByte t.slave true)
  | .readData left => .readByte (left != 0)
  | .writeData b _ => .writeByte b
  | .stopping _ => .stop

/-- What a transaction does next: go to a phase, or return. -/
inductive TxnNext where
  | enter (t : Txn) (ph : Phase)
  | returns (st : TxnStatus)
deriving DecidableEq, Repr

/-- `abort(code)` (R156). -/
def Txn.abort (stopOnAbort : Bool) (t : Txn) (st : TxnStatus) : TxnNext :=
  if stopOnAbort then .enter t (.stopping st) else .returns st

/-- One failed attempt of the acquisition loop (R150, R147): decrement, then compare; at zero one `stop()` and the status of the
failure that brought it there, else retry from step 2. -/
def Txn.retry (t : Txn) (exhausted : TxnStatus) : TxnNext :=
  let t' := { t with budget := satDec t.budget }
  if t'.budget = 0 then .enter t' (.stopping exhausted) else .enter t' .startPending

/-- The first step of the data phase once the slave is set up (R152, R153, R155). A read of `n` bytes has `n - 1` to come after
the first; a write of none, which R149 rules out, goes to its stop (log 22). -/
def Txn.afterOffset (t : Txn) : TxnNext :=
  match t.kind with
  | .read _ => .enter t .repeatedStart
  | .write [] => .enter t (.stopping .success)
  | .write (b :: rest) => .enter t (.writeData b rest)

/-- The data phase of a `read` after SLA+R was acknowledged (R153); a write is never here (log 22). -/
def Txn.afterReadAddress (t : Txn) : TxnNext :=
  match t.kind with
  | .read n => .enter t (.readData (n - 1))
  | .write _ => .enter t (.stopping .success)

/-- The steps of a transaction (R149 to R156, R160): what follows the phase `ph` when its primitive returned `r`. -/
def Txn.next (stopOnAbort : Bool) (t : Txn) (ph : Phase) (r : PrimResult) : TxnNext :=
  match ph with
  | .startPending => if r.ok then .enter t .addressPending else t.retry .startExhausted
  | .addressPending => if r.ok then .enter t .offsetPhase else t.retry .addressExhausted
  | .offsetPhase => if r.ok then t.afterOffset else t.abort stopOnAbort .offsetWriteFailed
  | .repeatedStart => if r.ok then .enter t .readAddressPending else t.abort stopOnAbort .repeatedStartFailed
  | .readAddressPending => if r.ok then t.afterReadAddress else t.abort stopOnAbort .readAddressFailed
  | .readData left =>
    let t' := { t with destination := t.destination ++ r.bytes }
    match left with
    | 0 => .enter t' (.stopping .success)
    | left + 1 => .enter t' (.readData left)
  | .writeData _ rest =>
    if r.ok then
      match rest with
      | [] => .enter t (.stopping .success)
      | b :: rest => .enter t (.writeData b rest)
    else t.abort stopOnAbort .dataWriteFailed
  | .stopping st => .returns st

/-! ## The host's program -/

/-- The next register access of the host's program, `none` where it has none. -/
def HostControl.access : HostControl → Option Access
  | .idle => none
  | .configure (.div d) => some (.write offDiv d)
  | .configure .presc => some (.write offPresc 0x00#8)
  | .configure .enable => some (.write offCtrl (encode (.nop false true)))
  | .prim p pos => p.access pos
  | .txn t ph pos => (t.prim ph).access pos

/-- Enter a phase of a transaction at the first line of its primitive, or return from it. -/
def State.txnMoves (s : State) (t : Txn) : TxnNext → State
  | .enter t' ph => s.setHost (.txn t' ph (t'.prim ph).first)
  | .returns st => s.hostReturns (.txn st t.destination)

/-- Where the host's program goes after the access it has just made. -/
def hostAfter (stopOnAbort : Bool) (s : State) : State :=
  match s.host with
  | .idle => s
  | .configure (.div _) => s.setHost (.configure .presc)
  | .configure .presc => s.setHost (.configure .enable)
  | .configure .enable => s.hostReturns .configured
  | .prim p pos =>
    match p.next pos s.rdata with
    | .at pos' => s.setHost (.prim p pos')
    | .returns r => s.hostReturns (.prim r)
  | .txn t ph pos =>
    match (t.prim ph).next pos s.rdata with
    | .at pos' => s.setHost (.txn t ph pos')
    | .returns r => s.txnMoves t (t.next stopOnAbort ph r)

/-- One step of the host's program: one register access and what the host makes of it. -/
def hostStep (stopOnAbort : Bool) (s : State) : Result :=
  match s.host.access with
  | none => .fault .stuckHost
  | some a => andThen (access a s) fun s' => .next (hostAfter stopOnAbort s')

/-- A transaction begins at step 2 with the whole budget (R147, R150). -/
def beginTxn (s : State) (kind : TxnKind) (slave : SlaveAddr) (reg : Byte) : State :=
  s.setHost (.txn { kind := kind, slave := slave, deviceRegister := reg, destination := [], budget := Config.retryBudget }
    .startPending .issue)

/-- Step 1 of a transaction and the domains of its arguments (R149, R146): zero bytes return success at once (log 13), a slave
address above 127 is `refuse(U14)`, a buffer shorter than the count `refuse(U13)`. A call with both faults is refused for its
address, which is the model's choice (log 23). -/
def callTxn (slaveAddr : Nat) (byteCount : Byte) (bufferLength : Nat) (kind : TxnKind) (reg : Byte) (s : State) : Result :=
  if byteCount = 0#8 then .next (s.hostReturns (.txn .success []))
  else if 127 < slaveAddr then .refused .slaveAddressOutOfRange
  else if bufferLength < byteCount.toNat then .refused .bufferTooShort
  else .next (beginTxn s kind (BitVec.ofNat 7 slaveAddr) reg)

/-- A call of the host, made while it is in none (R140). No register access is made. -/
def hostCall (c : HostCall) (s : State) : Result :=
  if s.host = .idle then
    match c with
    | .configure cpuHz busHz =>
      .next (s.setHost (.configure (.div (Config.divOf cpuHz (busHz.getD Config.targetBusHzDefault)))))
    | .prim p => .next (s.setHost (.prim p p.first))
    | .read slaveAddr byteCount reg bufferLength =>
      callTxn slaveAddr byteCount bufferLength (.read byteCount.toNat) reg s
    | .write slaveAddr byteCount reg source =>
      callTxn slaveAddr byteCount source.length (.write (source.take byteCount.toNat)) reg s
  else .refused .hostReentered

end Sys2Proof.Machine
end

