-- ==== Sys2Proof/Machine/Step.lean ====
section
/-! DEFINITION. One step of the machine: the next input says which agent moves (`00_scope.md` R7, `20_memory.md` R47). -/

namespace Sys2Proof.Machine

/-- What an input does to a state. -/
def apply (i : Input) (s : State) : Result :=
  match i with
  | .access a => access a s
  | .call c => hostCall c s
  | .host => hostStep Config.stopOnAbort s
  | .complete env => complete env s
  | .reset => .next s.assertReset

/-- One step. With nothing to come the run is stuck (log 2). -/
def step (s : State) : Host.Outcome State Fault Refusal :=
  match s.inputs with
  | [] => .fault .stuckNoInput
  | i :: rest => apply i (s.setInputs rest)

/-- The state with `i` as the first of what is to come. -/
def State.given (s : State) (i : Input) : State := s.setInputs (i :: s.inputs)

/-- The machine with the command word `w` (its low `nbits` bits) written to CTRL by its very next step: the engine fetches
nothing (R12), a command comes as a host's write of CTRL (log 3). -/
def State.withFetchWord (s : State) (nbits w : Nat) : State :=
  s.given (.access (.write offCtrl (BitVec.ofNat 8 (w % 2 ^ nbits))))

end Sys2Proof.Machine
end

