-- ==== Sys2Proof/Machine/Lines.lean ====
section
/-! DEFINITION. The line level, `20_memory.md` R53 to R57: what the events of R51 stand for on the two open-drain wires. A view
of the model's events and state; "No rule of this spec reads or writes these pins" (R53), and no step of this model does (log 18).
A level `true` is high. -/

namespace Sys2Proof.Machine

/-- The levels of the two wires at one moment. -/
structure Lines where
  scl : Bool
  sda : Bool
deriving DecidableEq, Repr

/-- An open-drain wire is high only if every device on it releases it (R57: "The wires are wired-AND"). -/
def wiredAnd (mine others : Bool) : Bool := mine && others

/-- "a master that releases SDA (sends 1) but reads it low has lost arbitration" (R57). -/
def losesArbitration (sent read : Bool) : Bool := sent && !read

/-- A start condition: "a fall of SDA while SCL is high" (R54). -/
def startLines : List Lines := [⟨true, true⟩, ⟨true, false⟩]

/-- A repeated start: "the same pattern", after SDA and SCL were released high again (R54). -/
def repeatedStartLines : List Lines := [⟨false, true⟩] ++ startLines

/-- A stop condition: "a rise of SDA while SCL is high" (R54). -/
def stopLines : List Lines := [⟨true, false⟩, ⟨true, true⟩]

/-- One clock pulse: the bit is put on SDA "while SCL is low and sampled while SCL is high" (R55). -/
def bitLines (b : Bool) : List Lines := [⟨false, b⟩, ⟨true, b⟩]

/-- The bits of a byte on the wire, "most significant bit first" (R55). -/
def wireBits (b : Byte) : List Bool :=
  [b.getLsbD 7, b.getLsbD 6, b.getLsbD 5, b.getLsbD 4, b.getLsbD 3, b.getLsbD 2, b.getLsbD 1, b.getLsbD 0]

/-- The level of the ninth bit: "SDA low is acknowledge (ACK), SDA left high is not-acknowledge" (R55). -/
def ackLevel (acknowledged : Bool) : Bool := !acknowledged

/-- A byte with its acknowledge: nine clock pulses (R55). -/
def byteLines (b : Byte) (acknowledged : Bool) : List Lines :=
  (wireBits b ++ [ackLevel acknowledged]).flatMap bitLines

/-- The lines of a completed event; `none` where the spec does not give them (a collision, a lost arbitration or a bus error cuts
the pattern at a place it does not name). `Stop(0)` puts nothing on the bus (`43_stop.md` R112). -/
def BusEvent.lines : BusEvent → Option (List Lines)
  | .startAttempt .fresh => some startLines
  | .startAttempt .repeated => some repeatedStartLines
  | .startAttempt .collision => none
  | .startAttempt .error => none
  | .tx b .ack => some (byteLines b true)
  | .tx b .nack => some (byteLines b false)
  | .tx _ .lost => none
  | .tx _ .error => none
  | .rx d k .ok => some (byteLines d k)
  | .rx _ _ .lost => none
  | .rx _ _ .error => none
  | .stop true => some stopLines
  | .stop false => some []

/-- "While `CTRL.EN = 0` both outputs are released" (R53). What they are while `CTRL.EN = 1` the spec does not say of a state (R53 and
R14 speak of `EN = 0` alone), and the view says nothing there either: `none` (log 18). -/
def State.outputsReleased (s : State) : Option Bool := if s.en then none else some true

end Sys2Proof.Machine
end

