-- ==== Sys2Proof/Safety.lean ====
section
/-! DEFINITION. What claims about runs are stated in: the well-ended run (`00_scope.md` R9), the released bus
(`70_reset_and_hazards.md` R197), the premises on the environment (R198, R199), the invariants of the engine, and the reading of
`LINK` and `STATUS.CODE` from the history of bus events (R207). Nothing here is used by `step`. -/

namespace Sys2Proof.Machine

/-! ## Runs and their ends

"A run of the model is a finite or infinite sequence of host and engine steps from a start state" (R9). A finite one is
`core.run n s`. -/

/-- An infinite run (R9): `run n` is the state after `n` steps, and the step after it takes the input `feed n` (log 17). -/
def EndlessRun (feed : Nat → Input) (run : Nat → State) : Prop :=
  ∀ n, step ((run n).given (feed n)) = .next (run (n + 1))

/-- *Ended well*: "the host program has returned, `BUSY = None` and `CTRL.STO = 0`" (R9). -/
def State.endedWell (s : State) : Prop := s.host = .idle ∧ s.busy = .none ∧ s.sto = false

/-- The bus is released: `LINK = Idle` (R197); not part of a well-ended run (R9). -/
def State.busReleased (s : State) : Prop := s.link = .idle

/-! ## Premises on what is to come -/

/-- `EnvRxOk` (R199) of the run from `s`: "`env.rx` always answers `(d, Ok)`". It binds the completion of a receive alone; a start
and a transmitted byte may be answered in any way. -/
def EnvRxOk (s : State) : Prop :=
  ∀ (n : Nat) (t : State) (env : Env) (rest : List Input) (k : Bool),
    core.run n s = .next t → t.inputs = .complete env :: rest → t.busy = .rx k → ∃ d, env.rxAnswer = .ok d

/-- `EnvLive` (R198) of an infinite run: "every issued command's completion step is eventually enabled", and taken ("the scheduler
is weakly fair to the engine"). A reset abandons the command instead (R190). -/
def EnvLive (feed : Nat → Input) (run : Nat → State) : Prop :=
  ∀ n, (run n).busy ≠ .none → ∃ m, n ≤ m ∧ ((∃ env, feed m = .complete env) ∨ feed m = .reset)

/-- What the environment answers to the completion of the command in flight, after a history of events (R52). -/
abbrev Oracle := List BusEvent → Busy → Env

/-- Every completion in the run from `s` is answered as the oracle says. -/
def State.answeredBy (s : State) (env : Oracle) : Prop :=
  ∀ (n : Nat) (t : State) (e : Env) (rest : List Input),
    core.run n s = .next t → t.inputs = .complete e :: rest → e = env t.trace t.busy

/-- `EnvRxOk` (R199) of an oracle. -/
def Oracle.rxOk (env : Oracle) : Prop := ∀ es k, ∃ d, (env es (.rx k)).rxAnswer = .ok d

/-- Only the host's program and the engine move: no other host, no new call, no reset (R2, R47). -/
def OneHost (inputs : List Input) : Prop :=
  ∀ i, i ∈ inputs → i = .host ∨ ∃ env, i = .complete env

/-- The same of an infinite run; the host's program may be called again when it has returned (R2). -/
def OneHostFeed (feed : Nat → Input) : Prop :=
  ∀ n, feed n = .host ∨ (∃ env, feed n = .complete env) ∨ ∃ c, feed n = .call c

/-- A bus on which nothing goes wrong: a transmitted byte is acknowledged, a receive gets `d`. -/
def Env.sends (d : Byte) : Env := { busFault := false, arbLost := false, ack := true, data := d }

/-- The inputs of one call of a primitive whose command the environment answers with `env` after the host has polled `polls`
times in vain (R141 to R145): the writes, the polls, the completion, the poll that ends, the read. -/
def Prim.schedule (p : Prim) (polls : Nat) (env : Env) : List Input :=
  (match p with
    | .writeByte _ => [.host, .host]
    | .start => [.host]
    | .stop => [.host]
    | .readByte _ => [.host]) ++
  List.replicate polls .host ++ [.complete env, .host] ++
  (match p with
    | .stop => []
    | .start => [.host]
    | .writeByte _ => [.host]
    | .readByte _ => [.host])

/-- The inputs of a `read` that goes well and receives `bytes`, after its call (R160); the host polls each command `polls` times
before the command completes. -/
def readSchedule (polls : Nat) (slave : SlaveAddr) (reg : Byte) (bytes : List Byte) : List Input :=
  Prim.start.schedule polls (.sends 0#8) ++ (Prim.writeByte (addrByte slave false)).schedule polls (.sends 0#8) ++
  (Prim.writeByte reg).schedule polls (.sends 0#8) ++ Prim.start.schedule polls (.sends 0#8) ++
  (Prim.writeByte (addrByte slave true)).schedule polls (.sends 0#8) ++
  bytes.flatMap (fun d => (Prim.readByte true).schedule polls (.sends d)) ++ Prim.stop.schedule polls (.sends 0#8)

/-- The same of a `write` of `bytes`. -/
def writeSchedule (polls : Nat) (slave : SlaveAddr) (reg : Byte) (bytes : List Byte) : List Input :=
  Prim.start.schedule polls (.sends 0#8) ++ (Prim.writeByte (addrByte slave false)).schedule polls (.sends 0#8) ++
  (Prim.writeByte reg).schedule polls (.sends 0#8) ++
  bytes.flatMap (fun b => (Prim.writeByte b).schedule polls (.sends 0#8)) ++ Prim.stop.schedule polls (.sends 0#8)

/-- The events of receiving `bytes`: "For all but the last requested byte" an acknowledge, for the last none (R153). -/
def receiveEvents : List Byte → List BusEvent
  | [] => []
  | [d] => [.rx d false .ok]
  | d :: e :: rest => .rx d true .ok :: receiveEvents (e :: rest)

/-- The two transaction calls with their arguments in the domains of R146: a 7-bit slave address and a buffer "of length ≥
byte_count". -/
def HostCall.TransactionInDomain : HostCall → Prop
  | .configure _ _ => False
  | .prim _ => False
  | .read a n _ len => a ≤ 127 ∧ n.toNat ≤ len
  | .write a n _ src => a ≤ 127 ∧ n.toNat ≤ src.length

/-- A transaction call for no bytes (R149). -/
def HostCall.ofZeroBytes : HostCall → Prop
  | .configure _ _ => False
  | .prim _ => False
  | .read _ n _ _ => n = 0#8
  | .write _ n _ _ => n = 0#8

/-- What kind of thing each call returns (R135, R141 to R146). -/
def HostCall.returnedBy : HostCall → HostReturn → Prop
  | .configure _ _, r => r = .configured
  | .prim _, r => ∃ v, r = .prim v
  | .read _ _ _ _, r => ∃ st d, r = .txn st d
  | .write _ _ _ _, r => ∃ st d, r = .txn st d

/-- A transaction call may be made here: the host is in no call and the preconditions of R140 hold, `CTRL.EN = 1` and
`BUSY = None`; "`LINK` need not be `Idle`". -/
def State.readyForCall (s : State) : Prop := s.host = .idle ∧ s.en = true ∧ s.busy = .none

/-! ## The event history read as protocol -/

/-- The status and the next `LINK` a start attempt stands for at `l` (R207, columns START; R82 to R86); `none` if the protocol has
no such event there. -/
def afterStart (l : Link) : StartEvent → Option (Option BusStatus × Link)
  | .fresh => if l = .idle ∨ l = .unknown then some (some .startOk, .started) else none
  | .repeated => if l = .idle then none else some (some .repeatedStartOk, .started)
  | .collision => some (some .arbLost, .idle)
  | .error => some (some .busError, .unknown)

/-- The same for a transmitted byte (R207, columns TX; R92 to R97): an address byte from `Started`, a data byte from `MT`. -/
def afterTransmit (l : Link) (b : Byte) : TxAnswer → Option (Option BusStatus × Link)
  | .ack =>
    if l = .started then some (if b.getLsbD 0 then (some .mrSlaAck, .mr) else (some .mtSlaAck, .mt))
    else if l = .mt then some (some .mtDataAck, .mt) else none
  | .nack =>
    if l = .started then some (some (if b.getLsbD 0 then .mrSlaNack else .mtSlaNack), .halted)
    else if l = .mt then some (some .mtDataNack, .halted) else none
  | .lost => if l = .started ∨ l = .mt then some (some .arbLost, .idle) else none
  | .error => if l = .started ∨ l = .mt then some (some .busError, .unknown) else none

/-- The same for a received byte (R207, columns RX; R102 to R104): only from `MR`. -/
def afterReceive (l : Link) (k : Bool) : RxEvent → Option (Option BusStatus × Link)
  | .ok => if l = .mr then some (if k then (some .mrDataAck, .mr) else (some .mrDataNack, .halted)) else none
  | .lost => if l = .mr then some (some .arbLost, .idle) else none
  | .error => if l = .mr then some (some .busError, .unknown) else none

/-- The same for a stop, which reports no status (R207, column STOP; R111 to R114): `Stop(0)` exactly from `Idle`. -/
def afterStop (l : Link) (h : Bool) : Option (Option BusStatus × Link) :=
  if h = (l != .idle) then some (none, .idle) else none

/-- The status and the next `LINK` an event stands for when it happens at `l` (R207). -/
def afterEvent (l : Link) : BusEvent → Option (Option BusStatus × Link)
  | .startAttempt o => afterStart l o
  | .tx b a => afterTransmit l b a
  | .rx _ k a => afterReceive l k a
  | .stop h => afterStop l h

/-- `LINK` and the last reported status after a history of events, oldest first, read from after reset; `none` if the history
breaks the protocol somewhere. -/
def replayFrom (l : Link) (c : Option BusStatus) : List BusEvent → Option (Link × Option BusStatus)
  | [] => some (l, c)
  | e :: es =>
    match afterEvent l e with
    | none => none
    | some r => replayFrom r.2 (r.1.or c) es

/-- The history read from the state after reset (R30). -/
def replay (es : List BusEvent) : Option (Link × Option BusStatus) := replayFrom .idle none es

/-! ## Invariants of the engine -/

/-- The byte or the receive in flight was issued where it has a meaning (R24, R90, R100), and the byte in flight is the one in
DATA (R90, R45: DATA cannot be written while a command is in flight). -/
def Busy.legal (s : State) : Prop :=
  match s.busy with
  | .none => True
  | .start => True
  | .tx b => s.link.mayTransmit = true ∧ s.data = some b
  | .rx _ => s.link = .mr
  | .stop => True

/-- The flags tell one story: an unread status implies ready, ready implies no command in flight and a reported status, a disabled
engine is quiescent with both flags clear (R14, R16, R21, R132). -/
def State.flagsAgree (s : State) : Prop :=
  (s.fresh = true → s.rdy = true) ∧
  (s.rdy = true → s.busy = .none ∧ s.code ≠ none) ∧
  (s.en = false → s.busy = .none ∧ s.link = .idle ∧ s.rdy = false)

/-- The event history is a legal run of the protocol, and `LINK` and `STATUS.CODE` are what it says (R207). -/
def State.historyAgrees (s : State) : Prop := replay s.trace = some (s.link, s.code)

/-- The invariant of the engine. -/
structure State.EngineInv (s : State) : Prop where
  flags : s.flagsAgree
  flight : Busy.legal s
  history : s.historyAgrees

/-! ## Invariants of the host -/

/-- The retry budget of a transaction by phase (R147): not zero while the slave is still being acquired, and exactly zero when an
exhaustion is reported. -/
def Txn.budgetAt (t : Txn) : Phase → Prop
  | .startPending => 0 < t.budget
  | .addressPending => 0 < t.budget
  | .stopping st => st = .startExhausted ∨ st = .addressExhausted → t.budget = 0
  | .offsetPhase => True
  | .repeatedStart => True
  | .readAddressPending => True
  | .readData _ => True
  | .writeData _ _ => True

/-- The retry budget is never above 20 and is right for the phase. -/
def HostControl.budgetOk : HostControl → Prop
  | .idle => True
  | .configure _ => True
  | .prim _ _ => True
  | .txn t ph _ => t.budget ≤ Config.retryBudget ∧ t.budgetAt ph

/-- How many start attempts a history holds. -/
def startAttempts (es : List BusEvent) : Nat :=
  es.countP fun e => match e with
    | .startAttempt _ => true
    | .tx _ _ => false
    | .rx _ _ _ => false
    | .stop _ => false

/-- How many bytes a history says were transmitted; while the slave is being acquired, address bytes. -/
def transmits (es : List BusEvent) : Nat :=
  es.countP fun e => match e with
    | .tx _ _ => true
    | .startAttempt _ => false
    | .rx _ _ _ => false
    | .stop _ => false

/-- How many stop events a history holds, "with either value of `h`" (`43_stop.md` R116). -/
def stopEvents (es : List BusEvent) : Nat :=
  es.countP fun e => match e with
    | .stop _ => true
    | .startAttempt _ => false
    | .tx _ _ => false
    | .rx _ _ _ => false

end Sys2Proof.Machine
end

