-- ==== Sys2Proof/Certificates/Slice0/Obligations.lean ====
section
/-! DEFINITION. The statements for the provers. Each formalises the rules its docstring names; a clause that is the model's own
choice names its log entry (`notes/assumptions/`). `s.given i` is the state `s` with the input `i` to come next. -/

open Sys2Proof Sys2Proof.Machine

/-! ## Encoding and decoding -/

/-- R61, R62, R67: a byte decodes to a command exactly if it is that command's encoding and the command bears the right name
(R62: START or RSTART, by whether the engine holds the bus; log 6 for `LINK = Unknown`). -/
def Obligations.DecodeAndEncodeAgree : Prop :=
  ∀ (held : Bool) (v : Byte) (i : Instr), decode held v = .command i ↔ i.wellFormed held = true ∧ v = encode i

/-- R62 and `opcode_table.json`: the bytes written out from the encoding stand for their commands. -/
def Obligations.WrittenCommandBytesDecode : Prop :=
  ∀ held : Bool,
    decode held 0b01000000#8 = .command (.nop false true) ∧
    decode held 0b10000000#8 = .command (.nop true false) ∧
    decode false 0b01000001#8 = .command (.start false) ∧
    decode true 0b11000001#8 = .command (.rstart true) ∧
    decode held 0b01000010#8 = .command (.stop false) ∧
    decode held 0b11000011#8 = .command (.tx true) ∧
    decode held 0b01000100#8 = .command (.rxAck false) ∧
    decode held 0b11000101#8 = .command (.rxNack true)

/-- R65: a CTRL write is refused as reserved exactly if bits 5:3 are not 0, the opcode is 0b110 or 0b111, or a bus command comes
with `en = 0`; every other write decodes to a command. -/
def Obligations.ReservedCtrlWritesAreRefused : Prop :=
  ∀ (s : State) (v : Byte),
    let reserved := v.extractLsb' 3 3 ≠ 0#3 ∨ v.extractLsb' 0 3 = 6#3 ∨ v.extractLsb' 0 3 = 7#3 ∨
      (1 ≤ (v.extractLsb' 0 3).toNat ∧ (v.extractLsb' 0 3).toNat ≤ 5 ∧ v.getLsbD 6 = false)
    (reserved → ∃ why, step (s.given (.access (.write 0#3 v))) = .refused (.reservedEncoding why)) ∧
    (¬reserved → ∃ i, decode s.holdsBus v = .command i ∧ step (s.given (.access (.write 0#3 v))) = exec i s)

/-- R50, R67: a write of CTRL runs the command it decodes to, at the write itself; so does the word the host places, and the
host's program does so and then goes on in its listing. -/
def Obligations.StepRunsDecodedCommand : Prop :=
  ∀ (s : State) (v : Byte) (i : Instr), decode s.holdsBus v = .command i →
    step (s.given (.access (.write offCtrl v))) = exec i s ∧
    step (s.withFetchWord 8 v.toNat) = exec i s ∧
    (s.host.access = some (.write offCtrl v) →
      step (s.given .host) = andThen (exec i s) fun t => .next (hostAfter Config.stopOnAbort t))

/-! ## Commands at the CTRL write -/

/-- R130, R132: NOP keeps, sets or clears `EN`, writes `IE`, and a disable of an engine that is not quiescent is `refuse(U15)`. -/
def Obligations.NopWritesEnableAndInterruptEnable : Prop :=
  ∀ (s : State) (ie en : Bool),
    (en = s.en → exec (.nop ie en) s = .next { s with ie := ie }) ∧
    (s.en = false → exec (.nop ie true) s = .next { s with en := true, ie := ie }) ∧
    (s.en = true → s.busy = .none → s.link = .idle →
      exec (.nop ie false) s = .next { s with en := false, ie := ie, rdy := false, fresh := false }) ∧
    (s.en = true → (s.busy ≠ .none ∨ s.link ≠ .idle) →
      exec (.nop ie false) s = .refused .disableWhileNotQuiescent)

/-- R80 (and R62 for the name RSTART): START goes in flight in every `LINK`, and nothing else changes but `IE`. -/
def Obligations.StartGoesInFlight : Prop :=
  ∀ (s : State) (ie : Bool), s.en = true → s.busy = .none →
    exec (.start ie) s = .next { s with ie := ie, busy := .start, rdy := false, fresh := false } ∧
    exec (.rstart ie) s = .next { s with ie := ie, busy := .start, rdy := false, fresh := false }

/-- R110: STOP goes in flight in every `LINK`; `STO` reads 1 from then on. -/
def Obligations.StopGoesInFlight : Prop :=
  ∀ (s : State) (ie : Bool), s.en = true → s.busy = .none →
    ∃ t, exec (.stop ie) s = .next t ∧ t = { s with ie := ie, busy := .stop, rdy := false, fresh := false } ∧
      t.ctrlByte.getLsbD 4 = true

/-- R90: TX captures the byte in DATA, in `Started` and `MT`. -/
def Obligations.TransmitCapturesData : Prop :=
  ∀ (s : State) (ie : Bool) (b : Byte), s.en = true → s.busy = .none → s.data = some b →
    (s.link = .started ∨ s.link = .mt →
      exec (.tx ie) s = .next { s with ie := ie, busy := .tx b, rdy := false, fresh := false }) ∧
    (s.link = .idle ∨ s.link = .mr ∨ s.link = .halted ∨ s.link = .unknown →
      exec (.tx ie) s = .refused .noMeaningInLink)

/-- R100, R101: the receives go in flight in `MR` with their acknowledge choice, and have no meaning elsewhere. -/
def Obligations.ReceivesGoInFlight : Prop :=
  ∀ (s : State) (ie : Bool), s.en = true → s.busy = .none →
    (s.link = .mr →
      exec (.rxAck ie) s = .next { s with ie := ie, busy := .rx true, rdy := false, fresh := false } ∧
      exec (.rxNack ie) s = .next { s with ie := ie, busy := .rx false, rdy := false, fresh := false }) ∧
    (s.link ≠ .mr →
      exec (.rxAck ie) s = .refused .noMeaningInLink ∧ exec (.rxNack ie) s = .refused .noMeaningInLink)

/-- R66 and R67: a bus command is accepted only with `EN = 1` (else U7), nothing in flight (else U3; R67 tests `EN` first), a LINK
that gives it a meaning (else U5), and for TX a byte in DATA (else U8); with all of them it is accepted. That a TX failing both of
the last two is refused for its LINK is the model's reading (log 8). -/
def Obligations.BusCommandAcceptance : Prop :=
  ∀ (s : State) (i : Instr), (∀ ie en, i ≠ .nop ie en) →
    let meaning := match i with
      | .tx _ => s.link = .started ∨ s.link = .mt
      | .rxAck _ => s.link = .mr
      | .rxNack _ => s.link = .mr
      | _ => True
    let byteIfTransmit := ∀ ie, i = .tx ie → s.data ≠ none
    (s.en = false → exec i s = .refused .notEnabled) ∧
    (s.en = true → s.busy ≠ .none → exec i s = .refused .commandInFlight) ∧
    (s.en = true → s.busy = .none → ¬meaning → exec i s = .refused .noMeaningInLink) ∧
    (s.en = true → s.busy = .none → meaning → ¬byteIfTransmit → exec i s = .refused .transmitUnspecifiedData) ∧
    (s.en = true → s.busy = .none → meaning → byteIfTransmit → ∃ t, exec i s = .next t)

/-- The frame of every command at its CTRL write (R67, R80, R90, R100, R101, R110, R130): of the registers only `IE`, `EN` (NOP
alone), `RDY`, `FRESH` and the command slot (a bus command alone) may change; `LINK`, CODE, DATA, DIV, PS, TRACE and what is not
the engine's stay, and no `any` is drawn (log 4). DATA, DIV and PRESC, where they hold a value, read as before. -/
def Obligations.CommandWriteFrame : Prop :=
  ∀ (s t : State) (i : Instr), exec i s = .next t →
    t.data = s.data ∧ t.div = s.div ∧ t.ps = s.ps ∧ t.code = s.code ∧ t.link = s.link ∧ t.trace = s.trace ∧
    t.rdata = s.rdata ∧ t.draws = s.draws ∧ t.host = s.host ∧ t.returned = s.returned ∧ t.inputs = s.inputs ∧
    t.ie = i.ie ∧
    (s.data ≠ none → (memRead 2#3 t).rdata = (memRead 2#3 s).rdata) ∧
    (s.div ≠ none → (memRead 3#3 t).rdata = (memRead 3#3 s).rdata) ∧
    (s.ps ≠ none → (memRead 4#3 t).rdata = (memRead 4#3 s).rdata) ∧
    (∀ ie en, i = .nop ie en → t.en = en ∧ t.busy = s.busy ∧
      (en = s.en ∨ en = true → t.rdy = s.rdy ∧ t.fresh = s.fresh) ∧
      (s.en = true ∧ en = false → t.rdy = false ∧ t.fresh = false)) ∧
    ((∀ ie en, i ≠ .nop ie en) →
      t.en = s.en ∧ s.busy = .none ∧ t.busy ≠ .none ∧ t.rdy = false ∧ t.fresh = false)

/-! ## Completion -/

/-- R82, R83 (with the common part R81): an accepted start is fresh from `Idle` and repeated while the bus is held. -/
def Obligations.AcceptedStartIsFreshOrRepeated : Prop :=
  ∀ (s : State) (env : Env), s.busy = .start → env.startAnswer = .accept →
    (s.link = .idle → step (s.given (.complete env)) = .next { s with
      data := none, code := some .startOk, link := .started, trace := s.trace ++ [.startAttempt .fresh],
      fresh := true, busy := .none, rdy := true }) ∧
    (s.link = .started ∨ s.link = .mt ∨ s.link = .mr ∨ s.link = .halted →
      step (s.given (.complete env)) = .next { s with
        data := none, code := some .repeatedStartOk, link := .started, trace := s.trace ++ [.startAttempt .repeated],
        fresh := true, busy := .none, rdy := true })

/-- R84, R85: a collision and a bus error on start, "whatever `LINK` was". -/
def Obligations.FailedStartReports : Prop :=
  ∀ (s : State) (env : Env), s.busy = .start →
    (env.startAnswer = .collide → step (s.given (.complete env)) = .next { s with
      data := none, code := some .arbLost, link := .idle, trace := s.trace ++ [.startAttempt .collision],
      fresh := true, busy := .none, rdy := true }) ∧
    (env.startAnswer = .error → step (s.given (.complete env)) = .next { s with
      data := none, code := some .busError, link := .unknown, trace := s.trace ++ [.startAttempt .error],
      fresh := true, busy := .none, rdy := true })

/-- R86: a start accepted from `Unknown` reports one of the two accepted codes, a free value, with the event to match; the
counter of free values is the model's own (log 4). -/
def Obligations.StartFromUnknownReportsEither : Prop :=
  ∀ (s : State) (env : Env), s.busy = .start → env.startAnswer = .accept → s.link = .unknown →
    step (s.given (.complete env)) = .next { s with
      data := none, code := some .startOk, link := .started, trace := s.trace ++ [.startAttempt .fresh],
      fresh := true, busy := .none, rdy := true, draws := s.draws + 1 } ∨
    step (s.given (.complete env)) = .next { s with
      data := none, code := some .repeatedStartOk, link := .started, trace := s.trace ++ [.startAttempt .repeated],
      fresh := true, busy := .none, rdy := true, draws := s.draws + 1 }

/-- R92, R93: an address byte reports by its direction bit and its acknowledge. -/
def Obligations.AddressByteReports : Prop :=
  ∀ (s : State) (env : Env) (b : Byte), s.busy = .tx b → s.link = .started →
    (b.getLsbD 0 = false → env.txAnswer = .ack → step (s.given (.complete env)) = .next { s with
      data := none, code := some .mtSlaAck, link := .mt, trace := s.trace ++ [.tx b .ack],
      fresh := true, busy := .none, rdy := true }) ∧
    (b.getLsbD 0 = false → env.txAnswer = .nack → step (s.given (.complete env)) = .next { s with
      data := none, code := some .mtSlaNack, link := .halted, trace := s.trace ++ [.tx b .nack],
      fresh := true, busy := .none, rdy := true }) ∧
    (b.getLsbD 0 = true → env.txAnswer = .ack → step (s.given (.complete env)) = .next { s with
      data := none, code := some .mrSlaAck, link := .mr, trace := s.trace ++ [.tx b .ack],
      fresh := true, busy := .none, rdy := true }) ∧
    (b.getLsbD 0 = true → env.txAnswer = .nack → step (s.given (.complete env)) = .next { s with
      data := none, code := some .mrSlaNack, link := .halted, trace := s.trace ++ [.tx b .nack],
      fresh := true, busy := .none, rdy := true })

/-- R94: a data byte reports by its acknowledge alone. -/
def Obligations.DataByteReports : Prop :=
  ∀ (s : State) (env : Env) (b : Byte), s.busy = .tx b → s.link = .mt →
    (env.txAnswer = .ack → step (s.given (.complete env)) = .next { s with
      data := none, code := some .mtDataAck, link := .mt, trace := s.trace ++ [.tx b .ack],
      fresh := true, busy := .none, rdy := true }) ∧
    (env.txAnswer = .nack → step (s.given (.complete env)) = .next { s with
      data := none, code := some .mtDataNack, link := .halted, trace := s.trace ++ [.tx b .nack],
      fresh := true, busy := .none, rdy := true })

/-- R96, R97: arbitration lost and bus error during a transmit. -/
def Obligations.FailedTransmitReports : Prop :=
  ∀ (s : State) (env : Env) (b : Byte), s.busy = .tx b → s.link = .started ∨ s.link = .mt →
    (env.txAnswer = .lost → step (s.given (.complete env)) = .next { s with
      data := none, code := some .arbLost, link := .idle, trace := s.trace ++ [.tx b .lost],
      fresh := true, busy := .none, rdy := true }) ∧
    (env.txAnswer = .error → step (s.given (.complete env)) = .next { s with
      data := none, code := some .busError, link := .unknown, trace := s.trace ++ [.tx b .error],
      fresh := true, busy := .none, rdy := true })

/-- R102: a received byte lands in DATA, and the status and LINK follow the acknowledge this engine gave. -/
def Obligations.ReceivedByteLandsInData : Prop :=
  ∀ (s : State) (env : Env) (d : Byte), env.rxAnswer = .ok d →
    (s.busy = .rx true → step (s.given (.complete env)) = .next { s with
      data := some d, code := some .mrDataAck, link := .mr, trace := s.trace ++ [.rx d true .ok],
      fresh := true, busy := .none, rdy := true }) ∧
    (s.busy = .rx false → step (s.given (.complete env)) = .next { s with
      data := some d, code := some .mrDataNack, link := .halted, trace := s.trace ++ [.rx d false .ok],
      fresh := true, busy := .none, rdy := true })

/-- R103, R104: a failed receive leaves DATA unspecified; the byte in its event is a free value (log 4). -/
def Obligations.FailedReceiveReports : Prop :=
  ∀ (s : State) (env : Env) (k : Bool), s.busy = .rx k →
    (env.rxAnswer = .lost → ∃ d, step (s.given (.complete env)) = .next { s with
      data := none, code := some .arbLost, link := .idle, trace := s.trace ++ [.rx d k .lost],
      fresh := true, busy := .none, rdy := true, draws := s.draws + 1 }) ∧
    (env.rxAnswer = .error → ∃ d, step (s.given (.complete env)) = .next { s with
      data := none, code := some .busError, link := .unknown, trace := s.trace ++ [.rx d k .error],
      fresh := true, busy := .none, rdy := true, draws := s.draws + 1 })

/-- R111, R112, R113: STOP ends in `Idle` whatever LINK was and whatever the environment did; a stop condition is put on the bus
unless the engine held nothing. -/
def Obligations.StopCompletes : Prop :=
  ∀ (s : State) (env : Env), s.busy = .stop →
    (s.link ≠ .idle → step (s.given (.complete env)) = .next { s with
      trace := s.trace ++ [.stop true], link := .idle, data := none, busy := .none }) ∧
    (s.link = .idle → step (s.given (.complete env)) = .next { s with
      trace := s.trace ++ [.stop false], link := .idle, data := none, busy := .none })

/-- R114: when a STOP has completed, `RDY = 0` and `FRESH = 0`, no status has been written, and a read of STATUS then changes nothing
but what the host reads (a free value, log 4). -/
def Obligations.StopReportsNoStatus : Prop :=
  ∀ (s t : State) (ie : Bool) (env : Env), exec (.stop ie) s = .next t →
    ∃ u, step (t.given (.complete env)) = .next u ∧ u.rdy = false ∧ u.fresh = false ∧ u.code = s.code ∧
      ∃ v, step (u.given (.access (.read 1#3))) = .next { u with rdata := v, draws := u.draws + 1 }

/-- R48, R51, and R52 for the engine with nothing in flight: a completion step ends exactly one command, appends exactly one
event, publishes status, ready and fresh together (STOP none of them, R114), and changes no register of the host's. -/
def Obligations.CompletionPublishesAtOnce : Prop :=
  ∀ (s t : State) (env : Env), step (s.given (.complete env)) = .next t →
    s.busy ≠ .none ∧ t.busy = .none ∧ (∃ e, t.trace = s.trace ++ [e]) ∧
    (s.busy ≠ .stop → t.code ≠ none ∧ t.rdy = true ∧ t.fresh = true) ∧
    (s.busy = .stop → t.code = s.code ∧ t.rdy = s.rdy ∧ t.fresh = s.fresh ∧ t.link = .idle) ∧
    t.ie = s.ie ∧ t.en = s.en ∧ t.div = s.div ∧ t.ps = s.ps ∧ t.rdata = s.rdata ∧ t.host = s.host ∧
    t.returned = s.returned ∧ t.inputs = s.inputs

/-- Every command in flight has a completion step for every answer, where the command was legal (R24, R52, R82 to R86, R92 to R97,
R102 to R104, R111 to R113); with none in flight the engine is stuck (R52; the name of the stop is log 2). -/
def Obligations.EveryCommandCanComplete : Prop :=
  ∀ (s : State) (env : Env),
    (s.busy ≠ .none → Busy.legal s → ∃ t, step (s.given (.complete env)) = .next t) ∧
    (s.busy = .none → step (s.given (.complete env)) = .fault .stuckEngine)

/-- R174: several causes at once report one status, by the precedence "`BusError`, then `ArbLost`, then the acknowledge result"
(that the environment gives its answer by its causes is log 10). -/
def Obligations.CausesReportByPrecedence : Prop :=
  ∀ env : Env,
    (env.busFault = true → env.startAnswer = .error ∧ env.txAnswer = .error ∧ env.rxAnswer = .error) ∧
    (env.busFault = false → env.arbLost = true →
      env.startAnswer = .collide ∧ env.txAnswer = .lost ∧ env.rxAnswer = .lost) ∧
    (env.busFault = false → env.arbLost = false →
      env.startAnswer = .accept ∧ (env.ack = true → env.txAnswer = .ack) ∧ (env.ack = false → env.txAnswer = .nack) ∧
      env.rxAnswer = .ok env.data)

/-- R54, R55: what an event puts on the two wires (a view, log 18): a start is a fall and a stop a rise of SDA while SCL is high; a
byte is nine pulses, most significant bit first, the ninth low for an acknowledge. -/
def Obligations.EventsOnTheWires : Prop :=
  ∀ (b : Byte) (k : Bool),
    (BusEvent.startAttempt .fresh).lines = some [⟨true, true⟩, ⟨true, false⟩] ∧
    (BusEvent.stop true).lines = some [⟨true, false⟩, ⟨true, true⟩] ∧ (BusEvent.stop false).lines = some [] ∧
    ∃ ls, (BusEvent.tx b (if k then .ack else .nack)).lines = some ls ∧ (BusEvent.rx b k .ok).lines = some ls ∧
      (ls.filter fun l => l.scl).map (fun l => l.sda) =
        [b.getLsbD 7, b.getLsbD 6, b.getLsbD 5, b.getLsbD 4, b.getLsbD 3, b.getLsbD 2, b.getLsbD 1, b.getLsbD 0, !k]

/-! ## Register accesses -/

/-- R44, R43: what each offset reads as and what the read changes. An unspecified register, a STATUS that is not fresh and a
reserved offset read `any`: some byte, counted by the model's `draws` (log 4). -/
def Obligations.RegisterReads : Prop :=
  ∀ s : State,
    (step (s.given (.access (.read 0#3))) = .next { s with
      rdata := BitVec.ofBool s.ie ++ BitVec.ofBool s.en ++ BitVec.ofBool s.rdy ++ BitVec.ofBool (s.busy == .stop) ++ 0#4 }) ∧
    (∀ c, s.fresh = true → s.code = some c →
      step (s.given (.access (.read 1#3))) = .next { s with
        fresh := false, rdata := c.code ++ BitVec.ofBool (startAccepted c.code) ++ (txOutcome c.code).field }) ∧
    (s.fresh = false → ∃ v, step (s.given (.access (.read 1#3))) = .next { s with rdata := v, draws := s.draws + 1 }) ∧
    (∀ b, s.data = some b → step (s.given (.access (.read 2#3))) = .next { s with rdata := b }) ∧
    (s.data = none → ∃ v, step (s.given (.access (.read 2#3))) = .next { s with rdata := v, draws := s.draws + 1 }) ∧
    (∀ b, s.div = some b → step (s.given (.access (.read 3#3))) = .next { s with rdata := b }) ∧
    (s.div = none → ∃ v, step (s.given (.access (.read 3#3))) = .next { s with rdata := v, draws := s.draws + 1 }) ∧
    (∀ p, s.ps = some p → step (s.given (.access (.read 4#3))) = .next { s with rdata := 0#6 ++ p }) ∧
    (s.ps = none → ∃ p : PsField,
      step (s.given (.access (.read 4#3))) = .next { s with rdata := 0#6 ++ p, draws := s.draws + 1 }) ∧
    (∀ off : Offset, 5 ≤ off.toNat →
      ∃ v, step (s.given (.access (.read off))) = .next { s with rdata := v, draws := s.draws + 1 })

/-- R45, R43, R133, R134: what a write of each offset but CTRL's does, and when it is refused. -/
def Obligations.RegisterWrites : Prop :=
  ∀ (s : State) (v : Byte),
    step (s.given (.access (.write 1#3 v))) = .next s ∧
    (s.busy = .none → step (s.given (.access (.write 2#3 v))) = .next { s with data := some v }) ∧
    (s.busy ≠ .none → step (s.given (.access (.write 2#3 v))) = .refused .dataWriteInFlight) ∧
    (s.busy = .none → s.link = .idle →
      step (s.given (.access (.write 3#3 v))) = .next { s with div := some v } ∧
      step (s.given (.access (.write 4#3 v))) = .next { s with ps := some (v.extractLsb' 0 2) }) ∧
    (s.busy ≠ .none ∨ s.link ≠ .idle →
      step (s.given (.access (.write 3#3 v))) = .refused .configureWhileNotQuiescent ∧
      step (s.given (.access (.write 4#3 v))) = .refused .configureWhileNotQuiescent) ∧
    (∀ off : Offset, 5 ≤ off.toNat → step (s.given (.access (.write off v))) = .refused .reservedOffsetWrite)

/-- R44, R45, R133, R134: DATA and DIV read back the byte written, PRESC its two low bits; the write completes first. -/
def Obligations.WrittenRegistersReadBack : Prop :=
  ∀ (s : State) (v : Byte), s.busy = .none → s.link = .idle →
    (∃ t u, step (s.given (.access (.write 2#3 v))) = .next t ∧ step (t.given (.access (.read 2#3))) = .next u ∧ u.rdata = v) ∧
    (∃ t u, step (s.given (.access (.write 3#3 v))) = .next t ∧ step (t.given (.access (.read 3#3))) = .next u ∧ u.rdata = v) ∧
    (∃ t u, step (s.given (.access (.write 4#3 v))) = .next t ∧ step (t.given (.access (.read 4#3))) = .next u ∧
      u.rdata = v &&& 0x03#8)

/-- R21, R18: the first read of a fresh STATUS gives its code in bits 7:3 and consumes it; the next read gives `any` and leaves
the engine as it is. -/
def Obligations.StatusIsReadOnce : Prop :=
  ∀ (s : State) (c : BusStatus), s.fresh = true → s.code = some c →
    ∃ t, step (s.given (.access (.read 1#3))) = .next t ∧ t.rdata.extractLsb' 3 5 = c.code ∧ t.fresh = false ∧
      ∃ v, step (t.given (.access (.read 1#3))) = .next { t with rdata := v, draws := t.draws + 1 }

/-- R121 to R126: the decoder's bits of a fresh STATUS: `SOK` for the two accepted codes, `TXO` by the known-good and known-bad
sets (their members are the spec's decision D20), never 0b11. -/
def Obligations.StatusDecoderBits : Prop :=
  ∀ (s t : State) (c : BusStatus), s.fresh = true → s.code = some c → step (s.given (.access (.read 1#3))) = .next t →
    (t.rdata.getLsbD 2 = true ↔ c = .startOk ∨ c = .repeatedStartOk) ∧
    (t.rdata.extractLsb' 0 2 = 0b00#2 ↔ c = .mtSlaAck ∨ c = .mrSlaAck ∨ c = .mtDataAck) ∧
    (t.rdata.extractLsb' 0 2 = 0b01#2 ↔ c = .mtSlaNack ∨ c = .mrSlaNack ∨ c = .mtDataNack ∨ c = .busError) ∧
    (t.rdata.extractLsb' 0 2 = 0b10#2 ↔
      c = .startOk ∨ c = .repeatedStartOk ∨ c = .arbLost ∨ c = .mrDataAck ∨ c = .mrDataNack)

/-- R125, U17: the decoder classifies the codes no status has, too: not accepted, and Unexpected. -/
def Obligations.UnassignedCodesAreUnexpected : Prop :=
  ∀ c : Code, 12 ≤ c.toNat → startAccepted c = false ∧ txOutcome c = .unexpected

/-! ## Rules about the whole machine -/

/-- The engine's invariant holds after reset (R30). -/
def Obligations.EngineInvariantAtReset : Prop := State.reset.EngineInv

/-- Every step keeps the engine's invariant: the flags agree, a byte is in flight only where it has a meaning, and `LINK` and
`STATUS.CODE` are what the history of bus events says by the table R207. -/
def Obligations.EngineInvariantKept : Prop :=
  ∀ s t : State, s.EngineInv → step s = .next t → t.EngineInv

/-- R16: `RDY` is set by the completion step of START, TX, RX_ACK, RX_NACK and by nothing else, and cleared only by the issue of
a command, by disabling and by reset. -/
def Obligations.ReadyIsSetByCompletionOnly : Prop :=
  ∀ s t : State, step s = .next t →
    (s.rdy = false → t.rdy = true →
      ∃ env rest, s.inputs = .complete env :: rest ∧ s.busy ≠ .none ∧ s.busy ≠ .stop ∧ t.busy = .none) ∧
    (s.rdy = true → t.rdy = false →
      (s.busy = .none ∧ t.busy ≠ .none) ∨ (s.en = true ∧ t.en = false) ∨ ∃ rest, s.inputs = .reset :: rest)

/-- R12: `BUSY` advances "`None -> cmd -> None` and in no other way" (a reset apart, R190), and TRACE grows only by the one event
of a completion (R51). -/
def Obligations.CommandSlotAdvancesOneWay : Prop :=
  ∀ s t : State, step s = .next t → (∀ rest, s.inputs ≠ .reset :: rest) →
    (s.busy ≠ .none → t.busy = s.busy ∨ t.busy = .none) ∧
    (t.trace = s.trace ∨ ∃ e, t.trace = s.trace ++ [e] ∧ s.busy ≠ .none ∧ t.busy = .none) ∧
    (s.busy ≠ .none → t.busy = .none → ∃ e, t.trace = s.trace ++ [e])

/-- R138, R195: DIV and PS change, and `EN` is cleared, only while the engine is quiescent (a reset apart). -/
def Obligations.ConfigurationChangesOnlyWhenQuiescent : Prop :=
  ∀ s t : State, step s = .next t → (∀ rest, s.inputs ≠ .reset :: rest) →
    (t.div ≠ s.div ∨ t.ps ≠ s.ps ∨ (s.en = true ∧ t.en = false)) → s.busy = .none ∧ s.link = .idle

/-- R173: the request line rises at the completion of START, TX, RX_ACK and RX_NACK exactly if `IE = 1`, never at that of STOP,
and the issue of a command lowers it. -/
def Obligations.InterruptFollowsReady : Prop :=
  ∀ s t : State,
    (∀ env, step (s.given (.complete env)) = .next t → s.busy ≠ .stop → t.irq = s.ie) ∧
    (∀ env, step (s.given (.complete env)) = .next t → s.busy = .stop → t.irq = s.irq) ∧
    (∀ i, (∀ ie en, i ≠ Instr.nop ie en) → exec i s = .next t → t.irq = false)

/-- R190, R30: asserting `rst` at any time puts every piece of the engine's state to its value after reset in one step; what is
not the engine's stays (log 11). -/
def Obligations.ResetLineResetsEngine : Prop :=
  ∀ s : State, ∃ t, step (s.given .reset) = .next t ∧
    t.en = false ∧ t.ie = false ∧ t.rdy = false ∧ t.sto = false ∧ t.irq = false ∧ t.busy = .none ∧ t.link = .idle ∧
    t.fresh = false ∧ t.code = none ∧ t.data = none ∧ t.div = none ∧ t.ps = none ∧ t.trace = [] ∧
    t.rdata = s.rdata ∧ t.draws = s.draws ∧ t.host = s.host ∧ t.returned = s.returned ∧ t.inputs = s.inputs

/-! ## The host's primitives and `configure` -/

/-- R141 to R145: the register accesses of each primitive, in the order of its listing from its first line on, and what each
returns. -/
def Obligations.PrimitiveListings : Prop :=
  ∀ (b v : Byte) (k : Bool),
    (Prim.start.first = .issue ∧ Prim.start.access .issue = some (.write 0#3 0x41#8) ∧
      Prim.start.access .poll = some (.read 0#3) ∧
      Prim.start.access .take = some (.read 1#3) ∧ Prim.start.next .take v = .returns (.accepted (v.getLsbD 2))) ∧
    (Prim.stop.first = .issue ∧ Prim.stop.access .issue = some (.write 0#3 0x42#8) ∧ Prim.stop.access .poll = some (.read 0#3) ∧
      (v.getLsbD 4 = false → Prim.stop.next .poll v = .returns .done) ∧
      (v.getLsbD 4 = true → Prim.stop.next .poll v = .at .poll)) ∧
    ((Prim.writeByte b).first = .load ∧ (Prim.writeByte b).access .load = some (.write 2#3 b) ∧
      (Prim.writeByte b).next .load v = .at .issue ∧ (Prim.writeByte b).access .issue = some (.write 0#3 0x43#8) ∧
      (Prim.writeByte b).access .poll = some (.read 0#3) ∧ (Prim.writeByte b).access .take = some (.read 1#3) ∧
      (v.extractLsb' 0 2 = 0b00#2 → (Prim.writeByte b).next .take v = .returns (.outcome .acked)) ∧
      (v.extractLsb' 0 2 = 0b01#2 → (Prim.writeByte b).next .take v = .returns (.outcome .rejected)) ∧
      (v.getLsbD 1 = true → (Prim.writeByte b).next .take v = .returns (.outcome .unexpected))) ∧
    ((Prim.readByte k).first = .issue ∧ (Prim.readByte true).access .issue = some (.write 0#3 0x44#8) ∧
      (Prim.readByte false).access .issue = some (.write 0#3 0x45#8) ∧
      (Prim.readByte k).access .poll = some (.read 0#3) ∧ (Prim.readByte k).access .take = some (.read 2#3) ∧
      (Prim.readByte k).next .take v = .returns (.byte v)) ∧
    (∀ p : Prim, p.next .issue v = .at .poll) ∧
    (∀ p : Prim, p ≠ .stop →
      (v.getLsbD 5 = true → p.next .poll v = .at .take) ∧ (v.getLsbD 5 = false → p.next .poll v = .at .poll))

/-- R135, R131, R136: `configure` on a quiescent engine, three writes in order, ends with `DIV` programmed, `PS` clear, `EN = 1`,
`IE = 0`, everything else of the engine as before. -/
def Obligations.ConfigureProgramsAndEnables : Prop :=
  ∀ (s : State) (cpuHz busHz : Nat) (rest : List Input), s.host = .idle → s.busy = .none → s.link = .idle →
    s.inputs = .call (.configure cpuHz (some busHz)) :: .host :: .host :: .host :: rest →
    core.run 4 s = .next { s with
      div := some (Config.divOf cpuHz busHz), ps := some 0#2, en := true, ie := false,
      returned := some .configured, inputs := rest }

/-- R137: a second `configure` with the same arguments changes no state of the engine. -/
def Obligations.ConfigureIsIdempotent : Prop :=
  ∀ (s : State) (cpuHz : Nat) (busHz : Option Nat) (rest : List Input), s.host = .idle → s.busy = .none → s.link = .idle →
    s.inputs = [.call (.configure cpuHz busHz), .host, .host, .host, .call (.configure cpuHz busHz), .host, .host, .host] ++ rest →
    ∃ a b : State, core.run 4 s = .next a ∧ core.run 8 s = .next b ∧ b = { a with inputs := rest } ∧ a.div ≠ none

/-- R95, R198: while the environment does not enable the completion, a host that polls a transmit polls for ever: any number of
its steps changes nothing but the byte it reads. -/
def Obligations.StalledTransmitWaits : Prop :=
  ∀ (n : Nat) (s : State) (b : Byte) (t : Txn) (ph : Phase) (rest : List Input),
    s.busy = .tx b → s.rdy = false → s.host = .txn t ph .poll → t.prim ph = .writeByte b →
    s.inputs = List.replicate n .host ++ rest →
    ∃ v : Byte, core.run n s = .next { s with rdata := v, inputs := rest }

/-! ## Transactions -/

/-- R149: a call with `byte_count = 0` returns success with no register access, whatever the other arguments (log 13). -/
def Obligations.ZeroBytesTouchNothing : Prop :=
  ∀ (s : State) (a : Nat) (reg : Byte) (len : Nat) (src : List Byte), s.host = .idle →
    step (s.given (.call (.read a 0#8 reg len))) = .next { s with returned := some (.txn .success []) } ∧
    step (s.given (.call (.write a 0#8 reg src))) = .next { s with returned := some (.txn .success []) } ∧
    TxnStatus.success.number = 0

/-- R146, R64: for a count that is not zero (log 13), a slave address above 127 is `refuse(U14)`, a buffer shorter than the count
`refuse(U13)`, and every other call begins at step 2 with the whole budget (R147, R150). That a call with both faults is refused
for its address is the model's choice (log 23). -/
def Obligations.TransactionArgumentDomains : Prop :=
  ∀ (s : State) (a : Nat) (n reg : Byte) (len : Nat) (src : List Byte), s.host = .idle → n ≠ 0#8 →
    (127 < a → step (s.given (.call (.read a n reg len))) = .refused .slaveAddressOutOfRange ∧
      step (s.given (.call (.write a n reg src))) = .refused .slaveAddressOutOfRange) ∧
    (a ≤ 127 → len < n.toNat → step (s.given (.call (.read a n reg len))) = .refused .bufferTooShort) ∧
    (a ≤ 127 → src.length < n.toNat → step (s.given (.call (.write a n reg src))) = .refused .bufferTooShort) ∧
    (a ≤ 127 → n.toNat ≤ len → step (s.given (.call (.read a n reg len))) = .next { s with
      host := .txn ⟨.read n.toNat, BitVec.ofNat 7 a, reg, [], 20⟩ .startPending .issue }) ∧
    (a ≤ 127 → n.toNat ≤ src.length → step (s.given (.call (.write a n reg src))) = .next { s with
      host := .txn ⟨.write (src.take n.toNat), BitVec.ofNat 7 a, reg, [], 20⟩ .startPending .issue })

/-- R150, R147, R159: the acquisition loop. A failed start and a rejected address each spend one unit of the one budget; at zero
the host stops once and reports the failure that brought it there. -/
def Obligations.AcquisitionSpendsOneBudget : Prop :=
  ∀ (soa : Bool) (t : Txn) (o : TxOutcome), o ≠ .acked →
    t.prim .startPending = .start ∧ t.prim .addressPending = .writeByte (t.slave ++ 0#1) ∧
    t.next soa .startPending (.accepted true) = .enter t .addressPending ∧
    t.next soa .addressPending (.outcome .acked) = .enter t .offsetPhase ∧
    (1 < t.budget →
      t.next soa .startPending (.accepted false) = .enter { t with budget := t.budget - 1 } .startPending ∧
      t.next soa .addressPending (.outcome o) = .enter { t with budget := t.budget - 1 } .startPending) ∧
    (t.budget ≤ 1 →
      t.next soa .startPending (.accepted false) = .enter { t with budget := 0 } (.stopping .startExhausted) ∧
      t.next soa .addressPending (.outcome o) = .enter { t with budget := 0 } (.stopping .addressExhausted)) ∧
    TxnStatus.startExhausted.number = 1 ∧ TxnStatus.addressExhausted.number = 2

/-- R151, R152, R155, R156, R158: after the slave is acquired a rejection ends the transaction at once with its own code, with a
`stop()` exactly if `STOP_ON_ABORT`; the budget is not touched. -/
def Obligations.LaterRejectionsAbort : Prop :=
  ∀ (t : Txn) (o : TxOutcome) (b : Byte) (rest : List Byte), o ≠ .acked →
    (t.next false .offsetPhase (.outcome o) = .returns .offsetWriteFailed ∧
      t.next true .offsetPhase (.outcome o) = .enter t (.stopping .offsetWriteFailed)) ∧
    (t.next false .repeatedStart (.accepted false) = .returns .repeatedStartFailed ∧
      t.next true .repeatedStart (.accepted false) = .enter t (.stopping .repeatedStartFailed)) ∧
    (t.next false .readAddressPending (.outcome o) = .returns .readAddressFailed ∧
      t.next true .readAddressPending (.outcome o) = .enter t (.stopping .readAddressFailed)) ∧
    (t.next false (.writeData b rest) (.outcome o) = .returns .dataWriteFailed ∧
      t.next true (.writeData b rest) (.outcome o) = .enter t (.stopping .dataWriteFailed)) ∧
    TxnStatus.offsetWriteFailed.number = 3 ∧ TxnStatus.repeatedStartFailed.number = 4 ∧
    TxnStatus.dataWriteFailed.number = 4 ∧ TxnStatus.readAddressFailed.number = 5

/-- R152 to R154: a read of `n` bytes turns the bus round, acknowledges all bytes but the last, stores them in order and stops. The
last phase of every transaction, a stop, returns the status the transaction stops with (R150, R154 to R156). -/
def Obligations.ReadAcknowledgesAllButTheLast : Prop :=
  ∀ (soa : Bool) (t : Txn) (n left : Nat) (d : Byte) (st : TxnStatus),
    (t.kind = .read (n + 1) →
      t.next soa .offsetPhase (.outcome .acked) = .enter t .repeatedStart ∧ t.prim .repeatedStart = .start ∧
      t.next soa .repeatedStart (.accepted true) = .enter t .readAddressPending ∧
      t.prim .readAddressPending = .writeByte (t.slave ++ 1#1) ∧
      t.next soa .readAddressPending (.outcome .acked) = .enter t (.readData n)) ∧
    t.prim (.readData (left + 1)) = .readByte true ∧ t.prim (.readData 0) = .readByte false ∧
    t.next soa (.readData (left + 1)) (.byte d) = .enter { t with destination := t.destination ++ [d] } (.readData left) ∧
    t.next soa (.readData 0) (.byte d) = .enter { t with destination := t.destination ++ [d] } (.stopping .success) ∧
    t.prim (.stopping st) = .stop ∧ t.next soa (.stopping st) .done = .returns st

/-- R151, R155: a write sends its source bytes one by one in ascending order and stops. -/
def Obligations.WriteSendsSourceInOrder : Prop :=
  ∀ (soa : Bool) (t : Txn) (b c : Byte) (rest : List Byte),
    t.prim .offsetPhase = .writeByte t.deviceRegister ∧
    (t.kind = .write (b :: rest) → t.next soa .offsetPhase (.outcome .acked) = .enter t (.writeData b rest)) ∧
    t.prim (.writeData b rest) = .writeByte b ∧
    t.next soa (.writeData b (c :: rest)) (.outcome .acked) = .enter t (.writeData c rest) ∧
    t.next soa (.writeData b []) (.outcome .acked) = .enter t (.stopping .success)

/-- The budget invariant holds after reset (the host is idle there, log 12). -/
def Obligations.BudgetInvariantAtReset : Prop := State.reset.host.budgetOk

/-- R147: every step keeps the budget within 20, above zero while the slave is being acquired, and at exactly zero when an
exhaustion is reported. -/
def Obligations.BudgetInvariantKept : Prop :=
  ∀ s t : State, s.host.budgetOk → step s = .next t → t.host.budgetOk

/-- R147, R150, R198: whatever the environment answers and however the steps fall, the acquisition phase of a transaction makes at
most 20 start attempts and sends at most 20 address bytes. A whole write makes at most 20 start attempts, a read one more (the
repeated start of R152); a call that returns an exhaustion made exactly 20, and exactly one stop. -/
def Obligations.AcquisitionMakesAtMostTwentyStarts : Prop :=
  ∀ (s t : State) (c : HostCall) (n : Nat), s.readyForCall → c.TransactionInDomain → OneHost s.inputs →
    core.run n (s.given (.call c)) = .next t →
    (∀ x ph pos, t.host = .txn x ph pos → ph = .startPending ∨ ph = .addressPending →
      startAttempts t.trace ≤ startAttempts s.trace + 20 ∧ transmits t.trace ≤ transmits s.trace + 20) ∧
    startAttempts t.trace ≤ startAttempts s.trace + 21 ∧
    ((∃ a k r src, c = .write a k r src) → startAttempts t.trace ≤ startAttempts s.trace + 20) ∧
    (∀ st d, 0 < n → t.host = .idle → t.returned = some (.txn st d) → st = .startExhausted ∨ st = .addressExhausted →
      startAttempts t.trace = startAttempts s.trace + 20 ∧ stopEvents t.trace = stopEvents s.trace + 1 ∧
      transmits t.trace ≤ transmits s.trace + 20)

/-- R201, R193, R196: the two transactions keep the protocol order on every path, so that no access of theirs is ever refused,
if every receive gets its byte (`EnvRxOk`, R199) and no other host interferes (R2). -/
def Obligations.TransactionsAreNeverRefused : Prop :=
  ∀ (s : State) (c : HostCall) (n : Nat) (r : Refusal), s.readyForCall → c.TransactionInDomain → OneHost s.inputs →
    EnvRxOk (s.given (.call c)) → core.run n (s.given (.call c)) ≠ .refused r

/-- R197, R154, R150: when a transaction has returned, the run has ended well (R9), and the bus is released if it returned success
or an exhaustion, or, for every return, if `STOP_ON_ABORT` is true. A call for zero bytes leaves LINK and TRACE as they were
instead (R149); of the TRACE of other calls nothing is said here. -/
def Obligations.ReturnLeavesBusReleased : Prop :=
  ∀ (s t : State) (c : HostCall) (n : Nat), s.readyForCall → c.TransactionInDomain → OneHost s.inputs →
    0 < n → core.run n (s.given (.call c)) = .next t → t.host = .idle →
    t.endedWell ∧ ∃ st d, t.returned = some (.txn st d) ∧
      (c.ofZeroBytes → t.trace = s.trace ∧ t.link = s.link) ∧
      (¬c.ofZeroBytes → Config.stopOnAbort = true ∨ st = .success ∨ st = .startExhausted ∨ st = .addressExhausted →
        t.busReleased)

/-- R156, R197 (for one of the aborts): an offset byte that is not acknowledged ends the call at once if `STOP_ON_ABORT` is false,
with the bus as the failure left it; otherwise the host goes on to its `stop()`. -/
def Obligations.RejectedOffsetLeavesBusAsItIs : Prop :=
  ∀ (s : State) (t : Txn) (env : Env) (rest : List Input),
    s.host = .txn t .offsetPhase .poll → s.busy = .tx t.deviceRegister → s.link = .mt →
    s.inputs = [.complete env, .host, .host] ++ rest → env.txAnswer ≠ .ack →
    ∃ u : State, core.run 3 s = .next u ∧ u.inputs = rest ∧ u.busy = .none ∧ u.trace = s.trace ++ [.tx t.deviceRegister env.txAnswer] ∧
      (env.txAnswer = .nack → u.link = .halted) ∧ (env.txAnswer = .lost → u.link = .idle) ∧
      (env.txAnswer = .error → u.link = .unknown) ∧
      (Config.stopOnAbort = false → u.host = .idle ∧ u.returned = some (.txn .offsetWriteFailed t.destination)) ∧
      (Config.stopOnAbort = true → u.host = .txn t (.stopping .offsetWriteFailed) .issue)

/-- R160, R152 to R154, R95: on a bus where nothing goes wrong a `read` called with `LINK` known (not `Unknown`, from which the first
start is either event, R86) returns success with the bytes received, in order, after exactly the bus events of the listing, and
leaves the bus released. The host polls every command the same number of times, `polls`, before it completes. -/
def Obligations.ReadDeliversTheBytes : Prop :=
  ∀ (s : State) (polls a len : Nat) (n reg : Byte) (bytes : List Byte) (rest : List Input),
    s.readyForCall → s.link ≠ .unknown → a ≤ 127 → bytes.length = n.toNat → 0 < n.toNat → n.toNat ≤ len →
    let slave : SlaveAddr := BitVec.ofNat 7 a
    let schedule := Input.call (.read a n reg len) :: readSchedule polls slave reg bytes
    s.inputs = schedule ++ rest →
    ∃ t : State, core.run schedule.length s = .next t ∧ t.returned = some (.txn .success bytes) ∧ t.endedWell ∧ t.busReleased ∧
      t.inputs = rest ∧
      t.trace = s.trace ++ [.startAttempt (if s.link = .idle then .fresh else .repeated), .tx (addrByte slave false) .ack,
        .tx reg .ack, .startAttempt .repeated, .tx (addrByte slave true) .ack] ++ receiveEvents bytes ++ [.stop true]

/-- R160, R155, R95: the same of a `write`, with `LINK` known and one number of polls for every command: the address, the offset,
then the source bytes in order, and the bus released. -/
def Obligations.WriteDeliversTheBytes : Prop :=
  ∀ (s : State) (polls a : Nat) (n reg : Byte) (source : List Byte) (rest : List Input),
    s.readyForCall → s.link ≠ .unknown → a ≤ 127 → 0 < n.toNat → n.toNat ≤ source.length →
    let slave : SlaveAddr := BitVec.ofNat 7 a
    let bytes := source.take n.toNat
    let schedule := Input.call (.write a n reg source) :: writeSchedule polls slave reg bytes
    s.inputs = schedule ++ rest →
    ∃ t : State, core.run schedule.length s = .next t ∧ t.returned = some (.txn .success []) ∧ t.endedWell ∧ t.busReleased ∧
      t.inputs = rest ∧
      t.trace = s.trace ++ [.startAttempt (if s.link = .idle then .fresh else .repeated), .tx (addrByte slave false) .ack,
        .tx reg .ack] ++ bytes.map (fun b => .tx b .ack) ++ [.stop true]

/-- R198, R199: from every point of a transaction, whatever the environment answers from then on (if every receive gets its byte),
there is an order of host steps and completions in which the call returns: no path of a transaction waits for anything but its
own completions. That such an order exists is all this says (log 17); that the call returns in every order in which the
environment is live is `Obligations.CallsReturnIfEnvironmentIsLive`. -/
def Obligations.TransactionsCanAlwaysReturn : Prop :=
  ∀ (s u : State) (c : HostCall) (n : Nat) (env : Oracle), s.readyForCall → c.TransactionInDomain → OneHost s.inputs →
    EnvRxOk (s.given (.call c)) → 0 < n → core.run n (s.given (.call c)) = .next u → env.rxOk →
    ∃ (ins : List Input) (t : State), OneHost ins ∧ (u.setInputs ins).answeredBy env ∧
      core.run ins.length (u.setInputs ins) = .next t ∧ t.host = .idle ∧ t.inputs = [] ∧ ∃ st d, t.returned = some (.txn st d)

/-- R198, R9: in every infinite run of one host and the engine in which the environment is live (`EnvLive`), every call of the
host's program returns, whatever its arguments and the answers, with what the call returns. That a live environment's completion is
also taken, not only enabled, and what an infinite run is, are log 17. (A run that a refusal ends, such as
that of R199's failed receive, is no infinite run.) -/
def Obligations.CallsReturnIfEnvironmentIsLive : Prop :=
  ∀ (feed : Nat → Input) (run : Nat → State) (c : HostCall) (k : Nat), EndlessRun feed run → OneHostFeed feed → EnvLive feed run →
    feed k = .call c →
    ∃ n, k < n ∧ (run n).host = .idle ∧ (∀ m, k < m → m < n → (run m).host ≠ .idle) ∧
      ∃ r, (run n).returned = some r ∧ c.returnedBy r

/-- R198, R95: without that premise a call need not return. A host that polls a command in flight whose completion is never enabled
polls for ever, in a primitive of its own or in one of a transaction: no timeout ends the infinite run. -/
def Obligations.UnansweredCommandIsPolledForEver : Prop :=
  ∀ (s : State) (p : Prim),
    (s.host = .prim p .poll ∨ ∃ t ph, s.host = .txn t ph .poll ∧ t.prim ph = p) →
    (p ≠ .stop ∧ s.rdy = false ∨ p = .stop ∧ s.busy = .stop) →
    ∃ run, run 0 = s ∧ EndlessRun (fun _ => .host) run ∧
      ∀ n, (run n).host = s.host ∧ (run n).busy = s.busy ∧ (run n).trace = s.trace ∧ (run n).returned = s.returned
end

