-- ==== Sys2Proof/Laws/State.lean ====
section
/-! SUPPORT. One lemma per field per named update of the state, true by `rfl`: later proofs never unfold a record update. -/

namespace Sys2Proof.Machine.State

variable (s : State)

@[simp] theorem issue_data (ie : Bool) (b : Busy) : (s.issue ie b).data = s.data := rfl
@[simp] theorem issue_busy (ie : Bool) (b : Busy) : (s.issue ie b).busy = b := rfl
@[simp] theorem issue_ie (ie : Bool) (b : Busy) : (s.issue ie b).ie = ie := rfl
@[simp] theorem issue_en (ie : Bool) (b : Busy) : (s.issue ie b).en = s.en := rfl
@[simp] theorem issue_rdy (ie : Bool) (b : Busy) : (s.issue ie b).rdy = false := rfl
@[simp] theorem issue_code (ie : Bool) (b : Busy) : (s.issue ie b).code = s.code := rfl
@[simp] theorem issue_fresh (ie : Bool) (b : Busy) : (s.issue ie b).fresh = false := rfl
@[simp] theorem issue_div (ie : Bool) (b : Busy) : (s.issue ie b).div = s.div := rfl
@[simp] theorem issue_ps (ie : Bool) (b : Busy) : (s.issue ie b).ps = s.ps := rfl
@[simp] theorem issue_link (ie : Bool) (b : Busy) : (s.issue ie b).link = s.link := rfl
@[simp] theorem issue_trace (ie : Bool) (b : Busy) : (s.issue ie b).trace = s.trace := rfl
@[simp] theorem issue_rdata (ie : Bool) (b : Busy) : (s.issue ie b).rdata = s.rdata := rfl
@[simp] theorem issue_draws (ie : Bool) (b : Busy) : (s.issue ie b).draws = s.draws := rfl
@[simp] theorem issue_host (ie : Bool) (b : Busy) : (s.issue ie b).host = s.host := rfl
@[simp] theorem issue_returned (ie : Bool) (b : Busy) : (s.issue ie b).returned = s.returned := rfl
@[simp] theorem issue_inputs (ie : Bool) (b : Busy) : (s.issue ie b).inputs = s.inputs := rfl

@[simp] theorem publish_data (d : Option Byte) (c : BusStatus) (l : Link) (e : BusEvent) : (s.publish d c l e).data = d := rfl
@[simp] theorem publish_busy (d : Option Byte) (c : BusStatus) (l : Link) (e : BusEvent) : (s.publish d c l e).busy = .none := rfl
@[simp] theorem publish_ie (d : Option Byte) (c : BusStatus) (l : Link) (e : BusEvent) : (s.publish d c l e).ie = s.ie := rfl
@[simp] theorem publish_en (d : Option Byte) (c : BusStatus) (l : Link) (e : BusEvent) : (s.publish d c l e).en = s.en := rfl
@[simp] theorem publish_rdy (d : Option Byte) (c : BusStatus) (l : Link) (e : BusEvent) : (s.publish d c l e).rdy = true := rfl
@[simp] theorem publish_code (d : Option Byte) (c : BusStatus) (l : Link) (e : BusEvent) : (s.publish d c l e).code = some c := rfl
@[simp] theorem publish_fresh (d : Option Byte) (c : BusStatus) (l : Link) (e : BusEvent) : (s.publish d c l e).fresh = true := rfl
@[simp] theorem publish_div (d : Option Byte) (c : BusStatus) (l : Link) (e : BusEvent) : (s.publish d c l e).div = s.div := rfl
@[simp] theorem publish_ps (d : Option Byte) (c : BusStatus) (l : Link) (e : BusEvent) : (s.publish d c l e).ps = s.ps := rfl
@[simp] theorem publish_link (d : Option Byte) (c : BusStatus) (l : Link) (e : BusEvent) : (s.publish d c l e).link = l := rfl
@[simp] theorem publish_trace (d : Option Byte) (c : BusStatus) (l : Link) (e : BusEvent) : (s.publish d c l e).trace = s.trace ++ [e] := rfl
@[simp] theorem publish_rdata (d : Option Byte) (c : BusStatus) (l : Link) (e : BusEvent) : (s.publish d c l e).rdata = s.rdata := rfl
@[simp] theorem publish_draws (d : Option Byte) (c : BusStatus) (l : Link) (e : BusEvent) : (s.publish d c l e).draws = s.draws := rfl
@[simp] theorem publish_host (d : Option Byte) (c : BusStatus) (l : Link) (e : BusEvent) : (s.publish d c l e).host = s.host := rfl
@[simp] theorem publish_returned (d : Option Byte) (c : BusStatus) (l : Link) (e : BusEvent) : (s.publish d c l e).returned = s.returned := rfl
@[simp] theorem publish_inputs (d : Option Byte) (c : BusStatus) (l : Link) (e : BusEvent) : (s.publish d c l e).inputs = s.inputs := rfl

@[simp] theorem stopped_data (h : Bool) : (s.stopped h).data = none := rfl
@[simp] theorem stopped_busy (h : Bool) : (s.stopped h).busy = .none := rfl
@[simp] theorem stopped_ie (h : Bool) : (s.stopped h).ie = s.ie := rfl
@[simp] theorem stopped_en (h : Bool) : (s.stopped h).en = s.en := rfl
@[simp] theorem stopped_rdy (h : Bool) : (s.stopped h).rdy = s.rdy := rfl
@[simp] theorem stopped_code (h : Bool) : (s.stopped h).code = s.code := rfl
@[simp] theorem stopped_fresh (h : Bool) : (s.stopped h).fresh = s.fresh := rfl
@[simp] theorem stopped_div (h : Bool) : (s.stopped h).div = s.div := rfl
@[simp] theorem stopped_ps (h : Bool) : (s.stopped h).ps = s.ps := rfl
@[simp] theorem stopped_link (h : Bool) : (s.stopped h).link = .idle := rfl
@[simp] theorem stopped_trace (h : Bool) : (s.stopped h).trace = s.trace ++ [.stop h] := rfl
@[simp] theorem stopped_rdata (h : Bool) : (s.stopped h).rdata = s.rdata := rfl
@[simp] theorem stopped_draws (h : Bool) : (s.stopped h).draws = s.draws := rfl
@[simp] theorem stopped_host (h : Bool) : (s.stopped h).host = s.host := rfl
@[simp] theorem stopped_returned (h : Bool) : (s.stopped h).returned = s.returned := rfl
@[simp] theorem stopped_inputs (h : Bool) : (s.stopped h).inputs = s.inputs := rfl

@[simp] theorem setIe_data (ie : Bool) : (s.setIe ie).data = s.data := rfl
@[simp] theorem setIe_busy (ie : Bool) : (s.setIe ie).busy = s.busy := rfl
@[simp] theorem setIe_ie (ie : Bool) : (s.setIe ie).ie = ie := rfl
@[simp] theorem setIe_en (ie : Bool) : (s.setIe ie).en = s.en := rfl
@[simp] theorem setIe_rdy (ie : Bool) : (s.setIe ie).rdy = s.rdy := rfl
@[simp] theorem setIe_code (ie : Bool) : (s.setIe ie).code = s.code := rfl
@[simp] theorem setIe_fresh (ie : Bool) : (s.setIe ie).fresh = s.fresh := rfl
@[simp] theorem setIe_div (ie : Bool) : (s.setIe ie).div = s.div := rfl
@[simp] theorem setIe_ps (ie : Bool) : (s.setIe ie).ps = s.ps := rfl
@[simp] theorem setIe_link (ie : Bool) : (s.setIe ie).link = s.link := rfl
@[simp] theorem setIe_trace (ie : Bool) : (s.setIe ie).trace = s.trace := rfl
@[simp] theorem setIe_rdata (ie : Bool) : (s.setIe ie).rdata = s.rdata := rfl
@[simp] theorem setIe_draws (ie : Bool) : (s.setIe ie).draws = s.draws := rfl
@[simp] theorem setIe_host (ie : Bool) : (s.setIe ie).host = s.host := rfl
@[simp] theorem setIe_returned (ie : Bool) : (s.setIe ie).returned = s.returned := rfl
@[simp] theorem setIe_inputs (ie : Bool) : (s.setIe ie).inputs = s.inputs := rfl

@[simp] theorem enable_data (ie : Bool) : (s.enable ie).data = s.data := rfl
@[simp] theorem enable_busy (ie : Bool) : (s.enable ie).busy = s.busy := rfl
@[simp] theorem enable_ie (ie : Bool) : (s.enable ie).ie = ie := rfl
@[simp] theorem enable_en (ie : Bool) : (s.enable ie).en = true := rfl
@[simp] theorem enable_rdy (ie : Bool) : (s.enable ie).rdy = s.rdy := rfl
@[simp] theorem enable_code (ie : Bool) : (s.enable ie).code = s.code := rfl
@[simp] theorem enable_fresh (ie : Bool) : (s.enable ie).fresh = s.fresh := rfl
@[simp] theorem enable_div (ie : Bool) : (s.enable ie).div = s.div := rfl
@[simp] theorem enable_ps (ie : Bool) : (s.enable ie).ps = s.ps := rfl
@[simp] theorem enable_link (ie : Bool) : (s.enable ie).link = s.link := rfl
@[simp] theorem enable_trace (ie : Bool) : (s.enable ie).trace = s.trace := rfl
@[simp] theorem enable_rdata (ie : Bool) : (s.enable ie).rdata = s.rdata := rfl
@[simp] theorem enable_draws (ie : Bool) : (s.enable ie).draws = s.draws := rfl
@[simp] theorem enable_host (ie : Bool) : (s.enable ie).host = s.host := rfl
@[simp] theorem enable_returned (ie : Bool) : (s.enable ie).returned = s.returned := rfl
@[simp] theorem enable_inputs (ie : Bool) : (s.enable ie).inputs = s.inputs := rfl

@[simp] theorem disable_data (ie : Bool) : (s.disable ie).data = s.data := rfl
@[simp] theorem disable_busy (ie : Bool) : (s.disable ie).busy = s.busy := rfl
@[simp] theorem disable_ie (ie : Bool) : (s.disable ie).ie = ie := rfl
@[simp] theorem disable_en (ie : Bool) : (s.disable ie).en = false := rfl
@[simp] theorem disable_rdy (ie : Bool) : (s.disable ie).rdy = false := rfl
@[simp] theorem disable_code (ie : Bool) : (s.disable ie).code = s.code := rfl
@[simp] theorem disable_fresh (ie : Bool) : (s.disable ie).fresh = false := rfl
@[simp] theorem disable_div (ie : Bool) : (s.disable ie).div = s.div := rfl
@[simp] theorem disable_ps (ie : Bool) : (s.disable ie).ps = s.ps := rfl
@[simp] theorem disable_link (ie : Bool) : (s.disable ie).link = s.link := rfl
@[simp] theorem disable_trace (ie : Bool) : (s.disable ie).trace = s.trace := rfl
@[simp] theorem disable_rdata (ie : Bool) : (s.disable ie).rdata = s.rdata := rfl
@[simp] theorem disable_draws (ie : Bool) : (s.disable ie).draws = s.draws := rfl
@[simp] theorem disable_host (ie : Bool) : (s.disable ie).host = s.host := rfl
@[simp] theorem disable_returned (ie : Bool) : (s.disable ie).returned = s.returned := rfl
@[simp] theorem disable_inputs (ie : Bool) : (s.disable ie).inputs = s.inputs := rfl

@[simp] theorem loadData_data (v : Byte) : (s.loadData v).data = some v := rfl
@[simp] theorem loadData_busy (v : Byte) : (s.loadData v).busy = s.busy := rfl
@[simp] theorem loadData_ie (v : Byte) : (s.loadData v).ie = s.ie := rfl
@[simp] theorem loadData_en (v : Byte) : (s.loadData v).en = s.en := rfl
@[simp] theorem loadData_rdy (v : Byte) : (s.loadData v).rdy = s.rdy := rfl
@[simp] theorem loadData_code (v : Byte) : (s.loadData v).code = s.code := rfl
@[simp] theorem loadData_fresh (v : Byte) : (s.loadData v).fresh = s.fresh := rfl
@[simp] theorem loadData_div (v : Byte) : (s.loadData v).div = s.div := rfl
@[simp] theorem loadData_ps (v : Byte) : (s.loadData v).ps = s.ps := rfl
@[simp] theorem loadData_link (v : Byte) : (s.loadData v).link = s.link := rfl
@[simp] theorem loadData_trace (v : Byte) : (s.loadData v).trace = s.trace := rfl
@[simp] theorem loadData_rdata (v : Byte) : (s.loadData v).rdata = s.rdata := rfl
@[simp] theorem loadData_draws (v : Byte) : (s.loadData v).draws = s.draws := rfl
@[simp] theorem loadData_host (v : Byte) : (s.loadData v).host = s.host := rfl
@[simp] theorem loadData_returned (v : Byte) : (s.loadData v).returned = s.returned := rfl
@[simp] theorem loadData_inputs (v : Byte) : (s.loadData v).inputs = s.inputs := rfl

@[simp] theorem loadDiv_data (v : Byte) : (s.loadDiv v).data = s.data := rfl
@[simp] theorem loadDiv_busy (v : Byte) : (s.loadDiv v).busy = s.busy := rfl
@[simp] theorem loadDiv_ie (v : Byte) : (s.loadDiv v).ie = s.ie := rfl
@[simp] theorem loadDiv_en (v : Byte) : (s.loadDiv v).en = s.en := rfl
@[simp] theorem loadDiv_rdy (v : Byte) : (s.loadDiv v).rdy = s.rdy := rfl
@[simp] theorem loadDiv_code (v : Byte) : (s.loadDiv v).code = s.code := rfl
@[simp] theorem loadDiv_fresh (v : Byte) : (s.loadDiv v).fresh = s.fresh := rfl
@[simp] theorem loadDiv_div (v : Byte) : (s.loadDiv v).div = some v := rfl
@[simp] theorem loadDiv_ps (v : Byte) : (s.loadDiv v).ps = s.ps := rfl
@[simp] theorem loadDiv_link (v : Byte) : (s.loadDiv v).link = s.link := rfl
@[simp] theorem loadDiv_trace (v : Byte) : (s.loadDiv v).trace = s.trace := rfl
@[simp] theorem loadDiv_rdata (v : Byte) : (s.loadDiv v).rdata = s.rdata := rfl
@[simp] theorem loadDiv_draws (v : Byte) : (s.loadDiv v).draws = s.draws := rfl
@[simp] theorem loadDiv_host (v : Byte) : (s.loadDiv v).host = s.host := rfl
@[simp] theorem loadDiv_returned (v : Byte) : (s.loadDiv v).returned = s.returned := rfl
@[simp] theorem loadDiv_inputs (v : Byte) : (s.loadDiv v).inputs = s.inputs := rfl

@[simp] theorem loadPs_data (p : PsField) : (s.loadPs p).data = s.data := rfl
@[simp] theorem loadPs_busy (p : PsField) : (s.loadPs p).busy = s.busy := rfl
@[simp] theorem loadPs_ie (p : PsField) : (s.loadPs p).ie = s.ie := rfl
@[simp] theorem loadPs_en (p : PsField) : (s.loadPs p).en = s.en := rfl
@[simp] theorem loadPs_rdy (p : PsField) : (s.loadPs p).rdy = s.rdy := rfl
@[simp] theorem loadPs_code (p : PsField) : (s.loadPs p).code = s.code := rfl
@[simp] theorem loadPs_fresh (p : PsField) : (s.loadPs p).fresh = s.fresh := rfl
@[simp] theorem loadPs_div (p : PsField) : (s.loadPs p).div = s.div := rfl
@[simp] theorem loadPs_ps (p : PsField) : (s.loadPs p).ps = some p := rfl
@[simp] theorem loadPs_link (p : PsField) : (s.loadPs p).link = s.link := rfl
@[simp] theorem loadPs_trace (p : PsField) : (s.loadPs p).trace = s.trace := rfl
@[simp] theorem loadPs_rdata (p : PsField) : (s.loadPs p).rdata = s.rdata := rfl
@[simp] theorem loadPs_draws (p : PsField) : (s.loadPs p).draws = s.draws := rfl
@[simp] theorem loadPs_host (p : PsField) : (s.loadPs p).host = s.host := rfl
@[simp] theorem loadPs_returned (p : PsField) : (s.loadPs p).returned = s.returned := rfl
@[simp] theorem loadPs_inputs (p : PsField) : (s.loadPs p).inputs = s.inputs := rfl

@[simp] theorem consumeStatus_data : s.consumeStatus.data = s.data := rfl
@[simp] theorem consumeStatus_busy : s.consumeStatus.busy = s.busy := rfl
@[simp] theorem consumeStatus_ie : s.consumeStatus.ie = s.ie := rfl
@[simp] theorem consumeStatus_en : s.consumeStatus.en = s.en := rfl
@[simp] theorem consumeStatus_rdy : s.consumeStatus.rdy = s.rdy := rfl
@[simp] theorem consumeStatus_code : s.consumeStatus.code = s.code := rfl
@[simp] theorem consumeStatus_fresh : s.consumeStatus.fresh = false := rfl
@[simp] theorem consumeStatus_div : s.consumeStatus.div = s.div := rfl
@[simp] theorem consumeStatus_ps : s.consumeStatus.ps = s.ps := rfl
@[simp] theorem consumeStatus_link : s.consumeStatus.link = s.link := rfl
@[simp] theorem consumeStatus_trace : s.consumeStatus.trace = s.trace := rfl
@[simp] theorem consumeStatus_rdata : s.consumeStatus.rdata = s.rdata := rfl
@[simp] theorem consumeStatus_draws : s.consumeStatus.draws = s.draws := rfl
@[simp] theorem consumeStatus_host : s.consumeStatus.host = s.host := rfl
@[simp] theorem consumeStatus_returned : s.consumeStatus.returned = s.returned := rfl
@[simp] theorem consumeStatus_inputs : s.consumeStatus.inputs = s.inputs := rfl

@[simp] theorem returnByte_data (v : Byte) : (s.returnByte v).data = s.data := rfl
@[simp] theorem returnByte_busy (v : Byte) : (s.returnByte v).busy = s.busy := rfl
@[simp] theorem returnByte_ie (v : Byte) : (s.returnByte v).ie = s.ie := rfl
@[simp] theorem returnByte_en (v : Byte) : (s.returnByte v).en = s.en := rfl
@[simp] theorem returnByte_rdy (v : Byte) : (s.returnByte v).rdy = s.rdy := rfl
@[simp] theorem returnByte_code (v : Byte) : (s.returnByte v).code = s.code := rfl
@[simp] theorem returnByte_fresh (v : Byte) : (s.returnByte v).fresh = s.fresh := rfl
@[simp] theorem returnByte_div (v : Byte) : (s.returnByte v).div = s.div := rfl
@[simp] theorem returnByte_ps (v : Byte) : (s.returnByte v).ps = s.ps := rfl
@[simp] theorem returnByte_link (v : Byte) : (s.returnByte v).link = s.link := rfl
@[simp] theorem returnByte_trace (v : Byte) : (s.returnByte v).trace = s.trace := rfl
@[simp] theorem returnByte_rdata (v : Byte) : (s.returnByte v).rdata = v := rfl
@[simp] theorem returnByte_draws (v : Byte) : (s.returnByte v).draws = s.draws := rfl
@[simp] theorem returnByte_host (v : Byte) : (s.returnByte v).host = s.host := rfl
@[simp] theorem returnByte_returned (v : Byte) : (s.returnByte v).returned = s.returned := rfl
@[simp] theorem returnByte_inputs (v : Byte) : (s.returnByte v).inputs = s.inputs := rfl

@[simp] theorem drawn_data : s.drawn.data = s.data := rfl
@[simp] theorem drawn_busy : s.drawn.busy = s.busy := rfl
@[simp] theorem drawn_ie : s.drawn.ie = s.ie := rfl
@[simp] theorem drawn_en : s.drawn.en = s.en := rfl
@[simp] theorem drawn_rdy : s.drawn.rdy = s.rdy := rfl
@[simp] theorem drawn_code : s.drawn.code = s.code := rfl
@[simp] theorem drawn_fresh : s.drawn.fresh = s.fresh := rfl
@[simp] theorem drawn_div : s.drawn.div = s.div := rfl
@[simp] theorem drawn_ps : s.drawn.ps = s.ps := rfl
@[simp] theorem drawn_link : s.drawn.link = s.link := rfl
@[simp] theorem drawn_trace : s.drawn.trace = s.trace := rfl
@[simp] theorem drawn_rdata : s.drawn.rdata = s.rdata := rfl
@[simp] theorem drawn_draws : s.drawn.draws = s.draws + 1 := rfl
@[simp] theorem drawn_host : s.drawn.host = s.host := rfl
@[simp] theorem drawn_returned : s.drawn.returned = s.returned := rfl
@[simp] theorem drawn_inputs : s.drawn.inputs = s.inputs := rfl

@[simp] theorem returnAny_data : s.returnAny.data = s.data := rfl
@[simp] theorem returnAny_busy : s.returnAny.busy = s.busy := rfl
@[simp] theorem returnAny_ie : s.returnAny.ie = s.ie := rfl
@[simp] theorem returnAny_en : s.returnAny.en = s.en := rfl
@[simp] theorem returnAny_rdy : s.returnAny.rdy = s.rdy := rfl
@[simp] theorem returnAny_code : s.returnAny.code = s.code := rfl
@[simp] theorem returnAny_fresh : s.returnAny.fresh = s.fresh := rfl
@[simp] theorem returnAny_div : s.returnAny.div = s.div := rfl
@[simp] theorem returnAny_ps : s.returnAny.ps = s.ps := rfl
@[simp] theorem returnAny_link : s.returnAny.link = s.link := rfl
@[simp] theorem returnAny_trace : s.returnAny.trace = s.trace := rfl
@[simp] theorem returnAny_rdata : s.returnAny.rdata = Config.anyByte s.draws := rfl
@[simp] theorem returnAny_draws : s.returnAny.draws = s.draws + 1 := rfl
@[simp] theorem returnAny_host : s.returnAny.host = s.host := rfl
@[simp] theorem returnAny_returned : s.returnAny.returned = s.returned := rfl
@[simp] theorem returnAny_inputs : s.returnAny.inputs = s.inputs := rfl

@[simp] theorem setHost_data (h : HostControl) : (s.setHost h).data = s.data := rfl
@[simp] theorem setHost_busy (h : HostControl) : (s.setHost h).busy = s.busy := rfl
@[simp] theorem setHost_ie (h : HostControl) : (s.setHost h).ie = s.ie := rfl
@[simp] theorem setHost_en (h : HostControl) : (s.setHost h).en = s.en := rfl
@[simp] theorem setHost_rdy (h : HostControl) : (s.setHost h).rdy = s.rdy := rfl
@[simp] theorem setHost_code (h : HostControl) : (s.setHost h).code = s.code := rfl
@[simp] theorem setHost_fresh (h : HostControl) : (s.setHost h).fresh = s.fresh := rfl
@[simp] theorem setHost_div (h : HostControl) : (s.setHost h).div = s.div := rfl
@[simp] theorem setHost_ps (h : HostControl) : (s.setHost h).ps = s.ps := rfl
@[simp] theorem setHost_link (h : HostControl) : (s.setHost h).link = s.link := rfl
@[simp] theorem setHost_trace (h : HostControl) : (s.setHost h).trace = s.trace := rfl
@[simp] theorem setHost_rdata (h : HostControl) : (s.setHost h).rdata = s.rdata := rfl
@[simp] theorem setHost_draws (h : HostControl) : (s.setHost h).draws = s.draws := rfl
@[simp] theorem setHost_host (h : HostControl) : (s.setHost h).host = h := rfl
@[simp] theorem setHost_returned (h : HostControl) : (s.setHost h).returned = s.returned := rfl
@[simp] theorem setHost_inputs (h : HostControl) : (s.setHost h).inputs = s.inputs := rfl

@[simp] theorem hostReturns_data (r : HostReturn) : (s.hostReturns r).data = s.data := rfl
@[simp] theorem hostReturns_busy (r : HostReturn) : (s.hostReturns r).busy = s.busy := rfl
@[simp] theorem hostReturns_ie (r : HostReturn) : (s.hostReturns r).ie = s.ie := rfl
@[simp] theorem hostReturns_en (r : HostReturn) : (s.hostReturns r).en = s.en := rfl
@[simp] theorem hostReturns_rdy (r : HostReturn) : (s.hostReturns r).rdy = s.rdy := rfl
@[simp] theorem hostReturns_code (r : HostReturn) : (s.hostReturns r).code = s.code := rfl
@[simp] theorem hostReturns_fresh (r : HostReturn) : (s.hostReturns r).fresh = s.fresh := rfl
@[simp] theorem hostReturns_div (r : HostReturn) : (s.hostReturns r).div = s.div := rfl
@[simp] theorem hostReturns_ps (r : HostReturn) : (s.hostReturns r).ps = s.ps := rfl
@[simp] theorem hostReturns_link (r : HostReturn) : (s.hostReturns r).link = s.link := rfl
@[simp] theorem hostReturns_trace (r : HostReturn) : (s.hostReturns r).trace = s.trace := rfl
@[simp] theorem hostReturns_rdata (r : HostReturn) : (s.hostReturns r).rdata = s.rdata := rfl
@[simp] theorem hostReturns_draws (r : HostReturn) : (s.hostReturns r).draws = s.draws := rfl
@[simp] theorem hostReturns_host (r : HostReturn) : (s.hostReturns r).host = .idle := rfl
@[simp] theorem hostReturns_returned (r : HostReturn) : (s.hostReturns r).returned = some r := rfl
@[simp] theorem hostReturns_inputs (r : HostReturn) : (s.hostReturns r).inputs = s.inputs := rfl

@[simp] theorem setInputs_data (inputs : List Input) : (s.setInputs inputs).data = s.data := rfl
@[simp] theorem setInputs_busy (inputs : List Input) : (s.setInputs inputs).busy = s.busy := rfl
@[simp] theorem setInputs_ie (inputs : List Input) : (s.setInputs inputs).ie = s.ie := rfl
@[simp] theorem setInputs_en (inputs : List Input) : (s.setInputs inputs).en = s.en := rfl
@[simp] theorem setInputs_rdy (inputs : List Input) : (s.setInputs inputs).rdy = s.rdy := rfl
@[simp] theorem setInputs_code (inputs : List Input) : (s.setInputs inputs).code = s.code := rfl
@[simp] theorem setInputs_fresh (inputs : List Input) : (s.setInputs inputs).fresh = s.fresh := rfl
@[simp] theorem setInputs_div (inputs : List Input) : (s.setInputs inputs).div = s.div := rfl
@[simp] theorem setInputs_ps (inputs : List Input) : (s.setInputs inputs).ps = s.ps := rfl
@[simp] theorem setInputs_link (inputs : List Input) : (s.setInputs inputs).link = s.link := rfl
@[simp] theorem setInputs_trace (inputs : List Input) : (s.setInputs inputs).trace = s.trace := rfl
@[simp] theorem setInputs_rdata (inputs : List Input) : (s.setInputs inputs).rdata = s.rdata := rfl
@[simp] theorem setInputs_draws (inputs : List Input) : (s.setInputs inputs).draws = s.draws := rfl
@[simp] theorem setInputs_host (inputs : List Input) : (s.setInputs inputs).host = s.host := rfl
@[simp] theorem setInputs_returned (inputs : List Input) : (s.setInputs inputs).returned = s.returned := rfl
@[simp] theorem setInputs_inputs (inputs : List Input) : (s.setInputs inputs).inputs = inputs := rfl

@[simp] theorem assertReset_data : s.assertReset.data = none := rfl
@[simp] theorem assertReset_busy : s.assertReset.busy = .none := rfl
@[simp] theorem assertReset_ie : s.assertReset.ie = false := rfl
@[simp] theorem assertReset_en : s.assertReset.en = false := rfl
@[simp] theorem assertReset_rdy : s.assertReset.rdy = false := rfl
@[simp] theorem assertReset_code : s.assertReset.code = none := rfl
@[simp] theorem assertReset_fresh : s.assertReset.fresh = false := rfl
@[simp] theorem assertReset_div : s.assertReset.div = none := rfl
@[simp] theorem assertReset_ps : s.assertReset.ps = none := rfl
@[simp] theorem assertReset_link : s.assertReset.link = .idle := rfl
@[simp] theorem assertReset_trace : s.assertReset.trace = [] := rfl
@[simp] theorem assertReset_rdata : s.assertReset.rdata = s.rdata := rfl
@[simp] theorem assertReset_draws : s.assertReset.draws = s.draws := rfl
@[simp] theorem assertReset_host : s.assertReset.host = s.host := rfl
@[simp] theorem assertReset_returned : s.assertReset.returned = s.returned := rfl
@[simp] theorem assertReset_inputs : s.assertReset.inputs = s.inputs := rfl

end Sys2Proof.Machine.State
end

