-- ==== Sys2Proof/Laws/Ops.lean ====
section
/-! SUPPORT. What each shared operation can do, said once: if it answers a next state, one of these cases holds. Later proofs cite
these lemmas instead of unfolding the operations. -/

namespace Sys2Proof.Machine

variable {s t : State}

/-! ## Outcomes -/

@[simp] theorem next_inj {a b : State} : (Host.Outcome.next a : Result) = .next b ↔ a = b :=
  ⟨fun h => by injection h, fun h => by rw [h]⟩

@[simp] theorem refused_inj {a b : Refusal} : (Host.Outcome.refused a : Result) = .refused b ↔ a = b :=
  ⟨fun h => by injection h, fun h => by rw [h]⟩

@[simp] theorem fault_inj {a b : Fault} : (Host.Outcome.fault a : Result) = .fault b ↔ a = b :=
  ⟨fun h => by injection h, fun h => by rw [h]⟩

theorem andThen_eq_next {r : Result} {k : State → Result} :
    andThen r k = .next t ↔ ∃ s, r = .next s ∧ k s = .next t := by
  cases r <;> simp [andThen]

theorem andThen_eq_refused {r : Result} {k : State → Result} {f : Refusal} :
    andThen r k = .refused f ↔ r = .refused f ∨ ∃ s, r = .next s ∧ k s = .refused f := by
  cases r <;> simp [andThen]

theorem accept_eq_next {k : State → Result} :
    accept s k = .next t ↔ s.en = true ∧ s.busy = .none ∧ k s = .next t := by
  unfold accept
  split
  · simp_all
  · split <;> simp_all

theorem accept_of (k : State → Result) (he : s.en = true) (hb : s.busy = .none) : accept s k = k s := by
  simp [accept, he, hb]

/-! ## Views -/

theorem quiescent_iff : s.quiescent = true ↔ s.busy = .none ∧ s.link = .idle := by
  simp [State.quiescent]

theorem sto_iff : s.sto = true ↔ s.busy = .stop := by
  simp [State.sto]

theorem holdsBus_iff : s.holdsBus = true ↔ s.link = .started ∨ s.link = .mt ∨ s.link = .mr ∨ s.link = .halted := by
  cases h : s.link <;> simp [State.holdsBus, Link.held, h]

theorem mayTransmit_iff {l : Link} : l.mayTransmit = true ↔ l = .started ∨ l = .mt := by
  cases l <;> simp [Link.mayTransmit]

theorem mayReceive_iff {l : Link} : l.mayReceive = true ↔ l = .mr := by
  cases l <;> simp [Link.mayReceive]

/-! ## Commands -/

/-- The command slot a bus command fills, and what must hold for it (R80, R90, R100, R101, R110). -/
def Issues (i : Instr) (s : State) (b : Busy) : Prop :=
  match i with
  | .nop _ _ => False
  | .start _ => b = .start
  | .rstart _ => b = .start
  | .stop _ => b = .stop
  | .tx _ => s.link.mayTransmit = true ∧ ∃ d, s.data = some d ∧ b = .tx d
  | .rxAck _ => s.link = .mr ∧ b = .rx true
  | .rxNack _ => s.link = .mr ∧ b = .rx false

/-- Everything NOP can do (R130 to R132). -/
theorem execNop_eq_next {ie en : Bool} :
    execNop ie en s = .next t ↔
      (en = s.en ∧ t = s.setIe ie) ∨ (s.en = false ∧ en = true ∧ t = s.enable ie) ∨
      (s.en = true ∧ en = false ∧ s.quiescent = true ∧ t = s.disable ie) := by
  unfold execNop
  cases he : s.en <;> cases en <;> cases hq : s.quiescent <;> simp [@eq_comm _ t]

theorem execTx_eq_next {ie : Bool} :
    execTx ie s = .next t ↔ s.en = true ∧ s.busy = .none ∧ s.link.mayTransmit = true ∧
      ∃ d, s.data = some d ∧ t = s.issue ie (.tx d) := by
  rw [execTx, accept_eq_next]
  cases hl : s.link.mayTransmit <;> cases hd : s.data <;> simp [@eq_comm _ t]

theorem issueRx_eq_next {ie k : Bool} :
    issueRx ie k s = .next t ↔ s.en = true ∧ s.busy = .none ∧ s.link = .mr ∧ t = s.issue ie (.rx k) := by
  rw [issueRx, accept_eq_next, ← mayReceive_iff]
  cases hl : s.link.mayReceive <;> simp [@eq_comm _ t]

theorem issueStart_eq_next {ie : Bool} :
    issueStart ie s = .next t ↔ s.en = true ∧ s.busy = .none ∧ t = s.issue ie .start := by
  rw [issueStart, accept_eq_next]; simp [@eq_comm _ t]

theorem execStop_eq_next {ie : Bool} :
    execStop ie s = .next t ↔ s.en = true ∧ s.busy = .none ∧ t = s.issue ie .stop := by
  rw [execStop, accept_eq_next]; simp [@eq_comm _ t]

/-- Everything a command can do at its CTRL write. -/
theorem exec_cases {i : Instr} (h : exec i s = .next t) :
    (∃ ie en, i = .nop ie en ∧ ((en = s.en ∧ t = s.setIe ie) ∨ (s.en = false ∧ en = true ∧ t = s.enable ie) ∨
      (s.en = true ∧ en = false ∧ s.quiescent = true ∧ t = s.disable ie))) ∨
    (s.en = true ∧ s.busy = .none ∧ ∃ b, Issues i s b ∧ t = s.issue i.ie b) := by
  cases i with
  | nop ie en => exact .inl ⟨ie, en, rfl, execNop_eq_next.1 h⟩
  | start ie =>
    obtain ⟨he, hb, ht⟩ := issueStart_eq_next.1 h
    exact .inr ⟨he, hb, _, rfl, ht⟩
  | rstart ie =>
    obtain ⟨he, hb, ht⟩ := issueStart_eq_next.1 h
    exact .inr ⟨he, hb, _, rfl, ht⟩
  | stop ie =>
    obtain ⟨he, hb, ht⟩ := execStop_eq_next.1 h
    exact .inr ⟨he, hb, _, rfl, ht⟩
  | tx ie =>
    obtain ⟨he, hb, hl, d, hd, ht⟩ := execTx_eq_next.1 h
    exact .inr ⟨he, hb, _, ⟨hl, d, hd, rfl⟩, ht⟩
  | rxAck ie =>
    obtain ⟨he, hb, hl, ht⟩ := issueRx_eq_next.1 h
    exact .inr ⟨he, hb, _, ⟨hl, rfl⟩, ht⟩
  | rxNack ie =>
    obtain ⟨he, hb, hl, ht⟩ := issueRx_eq_next.1 h
    exact .inr ⟨he, hb, _, ⟨hl, rfl⟩, ht⟩

/-! ## Register accesses -/

/-- Everything a read can do (R44): give a byte, draw an `any`, and clear FRESH if it reads a fresh STATUS. -/
theorem memRead_cases (off : Offset) (s : State) :
    ∃ v, memRead off s = s.returnByte v ∨ memRead off s = (s.returnByte v).drawn ∨
      (s.fresh = true ∧ memRead off s = s.consumeStatus.returnByte v) ∨
      (s.fresh = true ∧ memRead off s = (s.consumeStatus.returnByte v).drawn) := by
  unfold memRead
  split
  · exact ⟨_, .inl rfl⟩
  · unfold readStatus
    split
    · exact ⟨_, .inr (.inr (.inl ⟨‹_›, rfl⟩))⟩
    · exact ⟨_, .inr (.inr (.inr ⟨‹_›, rfl⟩))⟩
    · exact ⟨_, .inr (.inl rfl)⟩
  · unfold readOr; split
    · exact ⟨_, .inl rfl⟩
    · exact ⟨_, .inr (.inl rfl)⟩
  · unfold readOr; split
    · exact ⟨_, .inl rfl⟩
    · exact ⟨_, .inr (.inl rfl)⟩
  · unfold readPresc; split
    · exact ⟨_, .inl rfl⟩
    · exact ⟨_, .inr (.inl rfl)⟩
  · exact ⟨_, .inr (.inl rfl)⟩

/-- A read changes FRESH, `rdata` and `draws` at most, and never sets FRESH. -/
theorem memRead_eq (off : Offset) (s : State) :
    ∃ f v n, memRead off s = { s with fresh := f, rdata := v, draws := n } ∧ (f = true → s.fresh = true) := by
  obtain ⟨v, h | h | ⟨hf, h⟩ | ⟨hf, h⟩⟩ := memRead_cases off s <;> rw [h]
  · exact ⟨s.fresh, v, s.draws, rfl, id⟩
  · exact ⟨s.fresh, v, s.draws + 1, rfl, id⟩
  · exact ⟨false, v, s.draws, rfl, nofun⟩
  · exact ⟨false, v, s.draws + 1, rfl, nofun⟩

theorem regAt_eq_ctrl {off : Offset} : regAt off = .ctrl ↔ off = offCtrl := by
  revert off; decide

/-- Everything a write can do (R45). -/
theorem memWrite_cases {off : Offset} {v : Byte} (h : memWrite off v s = .next t) :
    (∃ i, off = offCtrl ∧ decode s.holdsBus v = .command i ∧ exec i s = .next t) ∨ t = s ∨
    (s.busy = .none ∧ t = s.loadData v) ∨
    (s.busy = .none ∧ s.link = .idle ∧ (t = s.loadDiv v ∨ t = s.loadPs (prescField v))) := by
  unfold memWrite at h
  split at h
  · rename_i hr
    unfold ctrlWrite at h
    split at h
    · rename_i i hd
      exact .inl ⟨i, regAt_eq_ctrl.1 hr, hd, h⟩
    · cases h
  · exact .inr (.inl (next_inj.1 h).symm)
  · unfold writeData at h
    split at h
    · exact .inr (.inr (.inl ⟨‹_›, (next_inj.1 h).symm⟩))
    · cases h
  · unfold writeDiv at h
    split at h
    · obtain ⟨hb, hl⟩ := quiescent_iff.1 ‹_›
      exact .inr (.inr (.inr ⟨hb, hl, .inl (next_inj.1 h).symm⟩))
    · cases h
  · unfold writePresc at h
    split at h
    · obtain ⟨hb, hl⟩ := quiescent_iff.1 ‹_›
      exact .inr (.inr (.inr ⟨hb, hl, .inr (next_inj.1 h).symm⟩))
    · cases h
  · cases h

/-! ## Completion -/

/-- Everything a completion step can do. -/
theorem complete_cases {env : Env} (h : complete env s = .next t) :
    (s.busy = .start ∧ t = completeStart env.startAnswer s) ∨
    (∃ b, s.busy = .tx b ∧ s.link.mayTransmit = true ∧
      t = s.publish none (txReport s.link b env.txAnswer).1 (txReport s.link b env.txAnswer).2 (.tx b env.txAnswer)) ∨
    (∃ k, s.busy = .rx k ∧ t = completeRx k env.rxAnswer s) ∨
    (s.busy = .stop ∧ t = completeStop s) := by
  unfold complete at h
  split at h
  · cases h
  · exact .inl ⟨‹_›, (next_inj.1 h).symm⟩
  · rename_i b hb
    unfold completeTx at h
    split at h
    · exact .inr (.inl ⟨b, hb, ‹_›, (next_inj.1 h).symm⟩)
    · cases h
  · rename_i k hb
    exact .inr (.inr (.inl ⟨k, hb, (next_inj.1 h).symm⟩))
  · exact .inr (.inr (.inr ⟨‹_›, (next_inj.1 h).symm⟩))

/-- The four completions of START by LINK (R82 to R86), with the free draw of R86 as a case. -/
theorem startIsAccepted_cases (s : State) :
    (s.link = .idle ∧ startIsAccepted s = s.publish none .startOk .started (.startAttempt .fresh)) ∨
    (s.holdsBus = true ∧ startIsAccepted s = s.publish none .repeatedStartOk .started (.startAttempt .repeated)) ∨
    (s.link = .unknown ∧ (startIsAccepted s = s.drawn.publish none .startOk .started (.startAttempt .fresh) ∨
      startIsAccepted s = s.drawn.publish none .repeatedStartOk .started (.startAttempt .repeated))) := by
  cases hl : s.link with
  | idle => exact .inl ⟨rfl, by simp [startIsAccepted, Link.held, hl]⟩
  | unknown =>
    refine .inr (.inr ⟨rfl, ?_⟩)
    cases hd : Config.anyStartFresh s.draws
    · exact .inr (by simp [startIsAccepted, Link.held, hl, hd])
    · exact .inl (by simp [startIsAccepted, Link.held, hl, hd])
  | _ => exact .inr (.inl ⟨holdsBus_iff.2 (by simp [hl]), by simp [startIsAccepted, Link.held, hl]⟩)

/-- A completion publishes (one event, ready, fresh, no command in flight) or is the end of a STOP, after at most one draw. -/
theorem complete_shape {env : Env} (h : complete env s = .next t) :
    (s.busy ≠ .none ∧ s.busy ≠ .stop ∧ ∃ d c l e n, t = State.publish { s with draws := n } d c l e) ∨
    (s.busy = .stop ∧ ∃ hld, t = s.stopped hld) := by
  rcases complete_cases h with ⟨hb, rfl⟩ | ⟨b, hb, -, rfl⟩ | ⟨k, hb, rfl⟩ | ⟨hb, rfl⟩
  · refine .inl ⟨by simp [hb], by simp [hb], ?_⟩
    cases env.startAnswer with
    | accept =>
      rcases startIsAccepted_cases s with ⟨-, h⟩ | ⟨-, h⟩ | ⟨-, h | h⟩
      · exact ⟨_, _, _, _, s.draws, h⟩
      · exact ⟨_, _, _, _, s.draws, h⟩
      · exact ⟨_, _, _, _, s.draws + 1, h⟩
      · exact ⟨_, _, _, _, s.draws + 1, h⟩
    | collide => exact ⟨_, _, _, _, s.draws, rfl⟩
    | error => exact ⟨_, _, _, _, s.draws, rfl⟩
  · exact .inl ⟨by simp [hb], by simp [hb], _, _, _, _, s.draws, rfl⟩
  · refine .inl ⟨by simp [hb], by simp [hb], ?_⟩
    cases env.rxAnswer with
    | ok d => exact ⟨_, _, _, _, s.draws, rfl⟩
    | lost => exact ⟨_, _, _, _, s.draws + 1, rfl⟩
    | error => exact ⟨_, _, _, _, s.draws + 1, rfl⟩
  · exact .inr ⟨hb, _, rfl⟩

/-! ## The host's program -/

/-- The host's program changes nothing but its own state. -/
theorem hostAfter_eq (soa : Bool) (s : State) :
    ∃ h r, hostAfter soa s = { s with host := h, returned := r } := by
  unfold hostAfter
  split
  · exact ⟨s.host, s.returned, rfl⟩
  · exact ⟨_, s.returned, rfl⟩
  · exact ⟨_, s.returned, rfl⟩
  · exact ⟨_, _, rfl⟩
  · split
    · exact ⟨_, s.returned, rfl⟩
    · exact ⟨_, _, rfl⟩
  · rename_i tx ph pos _
    split
    · exact ⟨_, s.returned, rfl⟩
    · rename_i r _
      cases h : tx.next soa ph r with
      | enter t' ph' => exact ⟨_, s.returned, rfl⟩
      | returns st => exact ⟨_, _, rfl⟩

/-- A host step is one register access and what the host makes of it. -/
theorem hostStep_eq_next {soa : Bool} :
    hostStep soa s = .next t ↔
      ∃ a s', s.host.access = some a ∧ access a s = .next s' ∧ t = hostAfter soa s' := by
  unfold hostStep
  cases ha : s.host.access with
  | none => simp
  | some a => simp [andThen_eq_next, @eq_comm _ t]

/-- A call changes nothing but the host's state. -/
theorem hostCall_eq {c : HostCall} (h : hostCall c s = .next t) :
    s.host = .idle ∧ ∃ h' r, t = { s with host := h', returned := r } := by
  unfold hostCall at h
  split at h
  · refine ⟨‹_›, ?_⟩
    cases c with
    | configure cpu bus => exact ⟨_, s.returned, (next_inj.1 h).symm⟩
    | prim p => exact ⟨_, s.returned, (next_inj.1 h).symm⟩
    | read a n r len =>
      simp only [callTxn] at h
      split at h
      · exact ⟨_, _, (next_inj.1 h).symm⟩
      · split at h
        · cases h
        · split at h
          · cases h
          · exact ⟨_, s.returned, (next_inj.1 h).symm⟩
    | write a n r src =>
      simp only [callTxn] at h
      split at h
      · exact ⟨_, _, (next_inj.1 h).symm⟩
      · split at h
        · cases h
        · split at h
          · cases h
          · exact ⟨_, s.returned, (next_inj.1 h).symm⟩
  · cases h

/-! ## Steps -/

/-- A step takes the first input. -/
theorem step_eq_next :
    step s = .next t ↔ ∃ i rest, s.inputs = i :: rest ∧ apply i (s.setInputs rest) = .next t := by
  unfold step
  cases h : s.inputs with
  | nil => simp
  | cons i rest => simp

/-- A step of a state that is given an input is what that input does to the state. -/
@[simp] theorem step_given (i : Input) (s : State) : step (s.given i) = apply i s := rfl

/-- Everything a step can do, seen from the engine: an access (by any host, the host's program among them), a completion, a
reset, or nothing to the engine; `s'` and `t'` leave out what belongs to the host and to the input list. -/
theorem step_engine (h : step s = .next t) :
    ∃ s' t' : State, (∃ hs r ins, s' = { s with host := hs, returned := r, inputs := ins }) ∧
      (∃ hs r ins, t = { t' with host := hs, returned := r, inputs := ins }) ∧
      ((∃ a, access a s' = .next t') ∨ (∃ env rest, s.inputs = .complete env :: rest ∧ complete env s' = .next t') ∨
        (∃ rest, s.inputs = .reset :: rest ∧ t' = s'.assertReset) ∨ t' = s') := by
  obtain ⟨i, rest, hi, ha⟩ := step_eq_next.1 h
  refine ⟨s.setInputs rest, ?_⟩
  cases i with
  | access a => exact ⟨t, ⟨s.host, s.returned, rest, rfl⟩, ⟨t.host, t.returned, t.inputs, rfl⟩, .inl ⟨a, ha⟩⟩
  | call c =>
    obtain ⟨-, h', r, rfl⟩ := hostCall_eq ha
    exact ⟨s.setInputs rest, ⟨s.host, s.returned, rest, rfl⟩, ⟨h', r, rest, rfl⟩, .inr (.inr (.inr rfl))⟩
  | host =>
    obtain ⟨a, s', -, has, rfl⟩ := hostStep_eq_next.1 ha
    obtain ⟨h', r, he⟩ := hostAfter_eq Config.stopOnAbort s'
    exact ⟨s', ⟨s.host, s.returned, rest, rfl⟩, ⟨h', r, s'.inputs, he⟩, .inl ⟨a, has⟩⟩
  | complete env =>
    exact ⟨t, ⟨s.host, s.returned, rest, rfl⟩, ⟨t.host, t.returned, t.inputs, rfl⟩, .inr (.inl ⟨env, rest, hi, ha⟩)⟩
  | reset =>
    refine ⟨(s.setInputs rest).assertReset, ⟨s.host, s.returned, rest, rfl⟩, ⟨t.host, t.returned, t.inputs, ?_⟩,
      .inr (.inr (.inl ⟨rest, hi, rfl⟩))⟩
    rw [← next_inj.1 ha]

end Sys2Proof.Machine
end

