-- ==== Sys2Proof/Laws/Host.lean ====
section
/-! SUPPORT. The host's side, said once: what the bits the host reads say, what its primitives access and issue, and how a run
unrolls. -/

namespace Sys2Proof.Machine

/-! ## Runs -/

theorem run_next {n : Nat} {s t : State} (h : step s = .next t) : core.run (n + 1) s = core.run n t := by
  simp only [Host.Core.run]; rw [show core.step s = .next t from h]

theorem run_fault {n : Nat} {s : State} {f : Fault} (h : step s = .fault f) : core.run (n + 1) s = .fault f := by
  simp only [Host.Core.run]; rw [show core.step s = .fault f from h]

theorem run_refused {n : Nat} {s : State} {r : Refusal} (h : step s = .refused r) : core.run (n + 1) s = .refused r := by
  simp only [Host.Core.run]; rw [show core.step s = .refused r from h]

/-- A run of `m + n` steps goes on where the run of `m` steps ended. -/
theorem run_add {m n : Nat} {s t : State} (h : core.run m s = .next t) : core.run (m + n) s = core.run n t := by
  induction m generalizing s with
  | zero => rw [Nat.zero_add, ← next_inj.1 h]
  | succ m ih =>
    rw [Nat.succ_add]
    cases hs : step s with
    | next u => rw [run_next hs] at h ⊢; exact ih h
    | fault f => rw [run_fault hs] at h; cases h
    | refused r => rw [run_refused hs] at h; cases h

/-- A step whose next input is known. -/
theorem step_cons {s : State} {i : Input} {rest : List Input} (h : s.inputs = i :: rest) :
    step s = apply i (s.setInputs rest) := by
  simp [step, h]

/-- What R199 says of a run it says of the rest of the run. -/
theorem envRxOk_step {s t : State} (h : EnvRxOk s) (hs : step s = .next t) : EnvRxOk t :=
  fun n u env rest k hn => h (n + 1) u env rest k ((run_next hs).trans hn)

/-- What the oracle answers in a run it answers in the rest of the run. -/
theorem answeredBy_step {s t : State} {env : Oracle} (h : s.answeredBy env) (hs : step s = .next t) : t.answeredBy env :=
  fun n u e rest hn => h (n + 1) u e rest ((run_next hs).trans hn)

/-! ## The bits the host reads -/

theorem ctrlByte_rdy (s : State) : s.ctrlByte.getLsbD 5 = s.rdy := by
  unfold State.ctrlByte
  cases s.ie <;> cases s.en <;> cases s.rdy <;> cases s.sto <;> decide

theorem ctrlByte_sto (s : State) : s.ctrlByte.getLsbD 4 = s.sto := by
  unfold State.ctrlByte
  cases s.ie <;> cases s.en <;> cases s.rdy <;> cases s.sto <;> decide

theorem pollEnds_stop (s : State) : Prim.stop.pollEnds s.ctrlByte = !s.sto := congrArg (!·) (ctrlByte_sto s)

theorem pollEnds_of_ne_stop {p : Prim} (h : p ≠ .stop) (s : State) : p.pollEnds s.ctrlByte = s.rdy := by
  cases p with
  | stop => exact absurd rfl h
  | _ => exact ctrlByte_rdy s

theorem startAccepted_iff (c : BusStatus) : startAccepted c.code = true ↔ c = .startOk ∨ c = .repeatedStartOk := by
  cases c <;> decide

theorem knownGood_iff (c : BusStatus) : knownGood c.code = true ↔ c = .mtSlaAck ∨ c = .mrSlaAck ∨ c = .mtDataAck := by
  cases c <;> decide

/-- The bit `start()` returns is the decoder's SOK (R121, R141). -/
theorem statusByte_sok (c : BusStatus) : (statusByte c.code).getLsbD 2 = startAccepted c.code := by
  cases c <;> decide

/-- `write_byte` returns Acked exactly for a known-good status (R123, R143). -/
theorem outcomeOf_statusByte (c : BusStatus) : (outcomeOf (statusByte c.code) == .acked) = knownGood c.code := by
  cases c <;> decide

@[simp] theorem dirBit_addrByte (a : SlaveAddr) (read : Bool) : dirBit (addrByte a read) = read := by
  cases read <;> revert a <;> decide

theorem ok_accepted (b : Bool) : (PrimResult.accepted b).ok = b := by simp [PrimResult.ok]

theorem ok_outcome (o : TxOutcome) : (PrimResult.outcome o).ok = (o == .acked) := by simp [PrimResult.ok]

/-! ## Primitives -/

theorem access_issue (p : Prim) : p.access .issue = some (.write offCtrl p.commandByte) := by cases p <;> rfl

theorem access_poll (p : Prim) : p.access .poll = some (.read offCtrl) := by cases p <;> rfl

/-- The command a primitive issues, under the name it has when the engine holds the bus or not (R62). -/
def Prim.command (held : Bool) : Prim → Instr
  | .start => if held then .rstart false else .start false
  | .stop => .stop false
  | .writeByte _ => .tx false
  | .readByte true => .rxAck false
  | .readByte false => .rxNack false

theorem decode_commandByte (held : Bool) (p : Prim) : decode held p.commandByte = .command (p.command held) := by
  cases p with
  | start => cases held <;> decide
  | stop => cases held <;> decide
  | writeByte b => show decode held (encode (.tx false)) = .command (.tx false); cases held <;> decide
  | readByte k => cases held <;> cases k <;> decide

/-- The command slot while a primitive's command is in flight. -/
def Prim.flight : Prim → Busy
  | .start => .start
  | .stop => .stop
  | .writeByte b => .tx b
  | .readByte k => .rx k

/-- The issue of a primitive's command: it goes in flight, or it is a receive where a receive has no meaning (R66). -/
theorem issue_prim (p : Prim) (s : State) (he : s.en = true) (hb : s.busy = .none)
    (ht : ∀ b, p = .writeByte b → s.data = some b ∧ s.link.mayTransmit = true) :
    memWrite offCtrl p.commandByte s = .next (s.issue false p.flight) ∨
      ((∃ k, p = .readByte k) ∧ s.link ≠ .mr ∧ memWrite offCtrl p.commandByte s = .refused .noMeaningInLink) := by
  have h0 : memWrite offCtrl p.commandByte s = ctrlWrite p.commandByte s := rfl
  rw [h0, ctrlWrite, decode_commandByte]
  show exec _ s = _ ∨ (_ ∧ _ ∧ exec _ s = _)
  cases p with
  | start => cases s.holdsBus <;> exact .inl (issueStart_eq_next.2 ⟨he, hb, rfl⟩)
  | stop => exact .inl (execStop_eq_next.2 ⟨he, hb, rfl⟩)
  | writeByte b =>
    obtain ⟨hd, hm⟩ := ht b rfl
    exact .inl (execTx_eq_next.2 ⟨he, hb, hm, b, hd, rfl⟩)
  | readByte k =>
    rcases Decidable.em (s.link = .mr) with hl | hl
    · left; cases k <;> exact issueRx_eq_next.2 ⟨he, hb, hl, rfl⟩
    · refine .inr ⟨⟨k, rfl⟩, hl, ?_⟩
      have hm : s.link.mayReceive = false := by rw [← Bool.not_eq_true, mayReceive_iff]; exact hl
      cases k <;> simp [Prim.command, exec, execRxNack, execRxAck, issueRx, accept_of _ he hb, hm]

/-! ## What the engine leaves to the host -/

theorem complete_host {env : Env} {s t : State} (h : complete env s = .next t) :
    t.inputs = s.inputs ∧ t.host = s.host ∧ t.returned = s.returned := by
  rcases complete_shape h with ⟨-, -, d, c, l, e, n, rfl⟩ | ⟨-, hld, rfl⟩ <;> exact ⟨rfl, rfl, rfl⟩

theorem access_host {a : Access} {s t : State} (h : access a s = .next t) :
    t.host = s.host ∧ t.returned = s.returned ∧ t.inputs = s.inputs := by
  cases a with
  | read off =>
    obtain ⟨f, v, n, he, -⟩ := memRead_eq off s
    rw [access, he] at h
    rw [← next_inj.1 h]
    exact ⟨rfl, rfl, rfl⟩
  | write off v =>
    rcases memWrite_cases h with ⟨i, -, -, h⟩ | rfl | ⟨-, rfl⟩ | ⟨-, -, rfl | rfl⟩
    · rcases exec_cases h with ⟨ie, en, rfl, ⟨-, rfl⟩ | ⟨-, -, rfl⟩ | ⟨-, -, -, rfl⟩⟩ | ⟨-, -, b, -, rfl⟩ <;>
        exact ⟨rfl, rfl, rfl⟩
    all_goals exact ⟨rfl, rfl, rfl⟩

/-- A step takes one input and leaves the rest. -/
theorem step_inputs {s t : State} (h : step s = .next t) : ∃ i, s.inputs = i :: t.inputs := by
  obtain ⟨i, rest, hi, ha⟩ := step_eq_next.1 h
  refine ⟨i, hi.trans (congrArg (i :: ·) (Eq.symm ?_))⟩
  cases i with
  | access a => exact (access_host ha).2.2
  | call c => obtain ⟨-, h', r, rfl⟩ := hostCall_eq ha; rfl
  | host =>
    obtain ⟨a, s', -, hs, rfl⟩ := hostStep_eq_next.1 ha
    obtain ⟨h', r, he⟩ := hostAfter_eq Config.stopOnAbort s'
    rw [he]; exact (access_host hs).2.2
  | complete env => exact (complete_host ha).1
  | reset => rw [← next_inj.1 ha]; rfl

/-- `EnvRxOk` from what is to come: every answer is one that gives a receive its byte. -/
theorem envRxOk_of_inputs {s : State} (h : ∀ env, .complete env ∈ s.inputs → ∃ d, env.rxAnswer = .ok d) : EnvRxOk s := by
  intro n
  induction n generalizing s with
  | zero =>
    intro t env rest k hr hi _
    rw [← next_inj.1 hr] at hi
    exact h env (by rw [hi]; exact List.mem_cons_self ..)
  | succ n ih =>
    intro t env rest k hr hi hk
    cases hs : step s with
    | next u =>
      obtain ⟨i, hin⟩ := step_inputs hs
      rw [run_next hs] at hr
      exact ih (fun e he => h e (by rw [hin]; exact List.mem_cons_of_mem _ he)) t env rest k hr hi hk
    | fault f => rw [run_fault hs] at hr; cases hr
    | refused f => rw [run_refused hs] at hr; cases hr

theorem attempts_append (es : List BusEvent) (e : BusEvent) :
    startAttempts (es ++ [e]) = startAttempts es + (match e with | .startAttempt _ => 1 | _ => 0) ∧
    stopEvents (es ++ [e]) = stopEvents es + (match e with | .stop _ => 1 | _ => 0) ∧
    transmits (es ++ [e]) = transmits es + (match e with | .tx _ _ => 1 | _ => 0) := by
  unfold startAttempts stopEvents transmits
  rw [List.countP_append, List.countP_append, List.countP_append]
  cases e <;> simp

end Sys2Proof.Machine
end

