-- ==== Sys2Proof/Laws/Inputs.lean ====
section
/-! SUPPORT. What is still to come does not matter to what happens now: an input does the same to a state with other inputs left. -/

namespace Sys2Proof.Machine

/-- An outcome with the inputs of its next state replaced. -/
def withInputs (l : List Input) (r : Result) : Result := andThen r fun t => .next (t.setInputs l)

theorem accept_setInputs (l : List Input) (s : State) (k : State → Result)
    (h : ∀ s : State, k (s.setInputs l) = withInputs l (k s)) :
    accept (s.setInputs l) k = withInputs l (accept s k) := by
  by_cases h1 : s.en = false
  · simp [accept, h1, withInputs, andThen]
  · by_cases h2 : s.busy = .none
    · simp [accept, h1, h2, h]
    · simp [accept, h1, h2, withInputs, andThen]

theorem exec_setInputs (l : List Input) (i : Instr) (s : State) : exec i (s.setInputs l) = withInputs l (exec i s) := by
  cases i with
  | nop ie en =>
    show execNop ie en _ = withInputs l (execNop ie en s)
    have : (s.setInputs l).quiescent = s.quiescent := rfl
    cases h1 : s.en <;> cases en <;> cases h : s.quiescent <;> simp [execNop, this, h1, h, withInputs, andThen] <;> rfl
  | start ie => exact accept_setInputs l s (fun s => .next (s.issue ie .start)) fun _ => rfl
  | rstart ie => exact accept_setInputs l s (fun s => .next (s.issue ie .start)) fun _ => rfl
  | stop ie => exact accept_setInputs l s (fun s => .next (s.issue ie .stop)) fun _ => rfl
  | tx ie =>
    show execTx ie _ = withInputs l (execTx ie s)
    unfold execTx; refine accept_setInputs l s _ fun s => ?_
    cases h : s.link.mayTransmit <;> cases h2 : s.data <;> simp [h, h2, withInputs, andThen] <;> rfl
  | rxAck ie =>
    show issueRx ie true _ = withInputs l (issueRx ie true s)
    unfold issueRx; refine accept_setInputs l s _ fun s => ?_
    cases h : s.link.mayReceive <;> simp [h, withInputs, andThen] <;> rfl
  | rxNack ie =>
    show issueRx ie false _ = withInputs l (issueRx ie false s)
    unfold issueRx; refine accept_setInputs l s _ fun s => ?_
    cases h : s.link.mayReceive <;> simp [h, withInputs, andThen] <;> rfl

theorem memRead_setInputs (l : List Input) (off : Offset) (s : State) : memRead off (s.setInputs l) = (memRead off s).setInputs l := by
  unfold memRead
  split <;> try rfl
  · unfold readStatus; simp only [State.setInputs_fresh, State.setInputs_code]; cases s.fresh <;> cases s.code <;> rfl
  · unfold readOr; simp only [State.setInputs_data]; cases s.data <;> rfl
  · unfold readOr; simp only [State.setInputs_div]; cases s.div <;> rfl
  · unfold readPresc; simp only [State.setInputs_ps]; cases s.ps <;> rfl

theorem access_setInputs (l : List Input) (a : Access) (s : State) : access a (s.setInputs l) = withInputs l (access a s) := by
  cases a with
  | read off => show Host.Outcome.next _ = _; rw [memRead_setInputs]; rfl
  | write off v =>
    show memWrite off v _ = withInputs l (memWrite off v s)
    unfold memWrite
    split <;> try rfl
    · unfold ctrlWrite
      rw [show (s.setInputs l).holdsBus = s.holdsBus from rfl]
      split
      · exact exec_setInputs l _ s
      · rfl
    · by_cases h : s.busy = .none <;> simp [writeData, h, withInputs, andThen] <;> rfl
    · have : (s.setInputs l).quiescent = s.quiescent := rfl
      cases h : s.quiescent <;> simp [writeDiv, this, h, withInputs, andThen] <;> rfl
    · have : (s.setInputs l).quiescent = s.quiescent := rfl
      cases h : s.quiescent <;> simp [writePresc, this, h, withInputs, andThen] <;> rfl

theorem hostAfter_setInputs (l : List Input) (soa : Bool) (s : State) : hostAfter soa (s.setInputs l) = (hostAfter soa s).setInputs l := by
  unfold hostAfter
  simp only [State.setInputs_host, State.setInputs_rdata]
  split <;> try rfl
  · split <;> rfl
  · split
    · rfl
    · rename_i t ph pos _ _ r _
      cases t.next soa ph r <;> rfl

theorem hostStep_setInputs (l : List Input) (soa : Bool) (s : State) : hostStep soa (s.setInputs l) = withInputs l (hostStep soa s) := by
  unfold hostStep
  simp only [State.setInputs_host]
  split
  · rfl
  · rw [access_setInputs]
    cases access _ s <;> first | rfl | (simp only [withInputs, andThen]; rw [hostAfter_setInputs])

theorem complete_setInputs (l : List Input) (env : Env) (s : State) : complete env (s.setInputs l) = withInputs l (complete env s) := by
  unfold complete
  simp only [State.setInputs_busy]
  split <;> try rfl
  · unfold completeStart startIsAccepted
    simp only [State.setInputs_link, State.setInputs_draws]
    cases env.startAnswer <;> try rfl
    dsimp only
    cases s.link.held with
    | none =>
      by_cases h : Config.anyStartFresh s.draws = true
      · simp [h, withInputs, andThen]; rfl
      · simp [h, withInputs, andThen]; rfl
    | some b => cases b <;> rfl
  · unfold completeTx; cases h : s.link.mayTransmit <;> simp [h, withInputs, andThen] <;> rfl
  · unfold completeRx; cases env.rxAnswer <;> rfl

theorem callTxn_setInputs (l : List Input) (a : Nat) (n : Byte) (len : Nat) (k : TxnKind) (r : Byte) (s : State) :
    callTxn a n len k r (s.setInputs l) = withInputs l (callTxn a n len k r s) := by
  unfold callTxn
  split <;> try rfl
  split <;> try rfl
  split <;> rfl

theorem hostCall_setInputs (l : List Input) (c : HostCall) (s : State) :
    hostCall c (s.setInputs l) = withInputs l (hostCall c s) := by
  by_cases h : s.host = .idle
  · cases c <;> simp only [hostCall, State.setInputs_host, h, if_true, callTxn_setInputs] <;> rfl
  · simp [hostCall, h, withInputs, andThen]

/-- What an input does to a state does not depend on the inputs left. -/
theorem apply_setInputs (l : List Input) (i : Input) (s : State) : apply i (s.setInputs l) = withInputs l (apply i s) := by
  cases i with
  | access a => exact access_setInputs l a s
  | call c => exact hostCall_setInputs l c s
  | host => exact hostStep_setInputs l _ s
  | complete env => exact complete_setInputs l env s
  | reset => rfl

end Sys2Proof.Machine
end

