-- ==== Sys2Proof/Laws/PerInstr.lean ====
section
/-! SUPPORT. One fact per command, about the command as a word: where the encoder puts its fields (`30_encoding.md` R61). -/

namespace Sys2Proof.Laws.EncodingShape

/-- The command byte of `i` carries `ie` in bit 7, `en` in bit 6, zeros in bits 5:3 and the opcode in bits 2:0 (R61). -/
def Statement (i : Instr) : Prop :=
  fieldIe (encode i) = i.ie ∧ fieldEn (encode i) = i.en ∧ fieldZero (encode i) = 0#3 ∧ fieldCmd (encode i) = i.cmdCode

theorem nop (ie en : Bool) : Statement (.nop ie en) := by
  cases ie <;> cases en <;> exact ⟨rfl, rfl, rfl, rfl⟩

theorem start (ie : Bool) : Statement (.start ie) := by cases ie <;> exact ⟨rfl, rfl, rfl, rfl⟩

theorem rstart (ie : Bool) : Statement (.rstart ie) := by cases ie <;> exact ⟨rfl, rfl, rfl, rfl⟩

theorem stop (ie : Bool) : Statement (.stop ie) := by cases ie <;> exact ⟨rfl, rfl, rfl, rfl⟩

theorem tx (ie : Bool) : Statement (.tx ie) := by cases ie <;> exact ⟨rfl, rfl, rfl, rfl⟩

theorem rxAck (ie : Bool) : Statement (.rxAck ie) := by cases ie <;> exact ⟨rfl, rfl, rfl, rfl⟩

theorem rxNack (ie : Bool) : Statement (.rxNack ie) := by cases ie <;> exact ⟨rfl, rfl, rfl, rfl⟩

end Sys2Proof.Laws.EncodingShape
end

