-- ==== Sys2Proof/Laws/Progress.lean ====
section
/-! SUPPORT. How a call of the host's program gets on: `State.remaining` bounds the steps it still has to make, polls of a command
in flight apart. `step_inCall` says once what a step does to a call in progress: it ends the call, or brings it nearer to its end,
or is a poll that found its command still in flight. -/

namespace Sys2Proof.Machine

/-! ## What is left of a call -/

/-- The bytes a transaction moves. -/
def TxnKind.size : TxnKind → Nat
  | .read n => n
  | .write src => src.length

/-- A bound on the primitives a transaction may still call, the present one among them (R150 to R155). -/
def Txn.primsLeft (t : Txn) : Phase → Nat
  | .startPending => t.budget * (t.kind.size + 10) + 2
  | .addressPending => t.budget * (t.kind.size + 10) + 1
  | .offsetPhase => t.kind.size + 5
  | .repeatedStart => t.kind.size + 4
  | .readAddressPending => t.kind.size + 3
  | .readData left => left + 2
  | .writeData _ rest => rest.length + 2
  | .stopping _ => 1

/-- The lines of a primitive's listing still to come (R141 to R145). -/
def PrimPos.linesLeft : PrimPos → Nat
  | .load => 4
  | .issue => 3
  | .poll => 2
  | .take => 1

/-- The same for the program of the host. -/
def HostControl.linesLeft : HostControl → Nat
  | .idle => 0
  | .configure (.div _) => 3
  | .configure .presc => 2
  | .configure .enable => 1
  | .prim _ pos => pos.linesLeft
  | .txn t ph pos => t.primsLeft ph * 5 + pos.linesLeft

/-- The completions still to come. -/
def Busy.pending : Busy → Nat
  | .none => 0
  | .start => 1
  | .tx _ => 1
  | .rx _ => 1
  | .stop => 1

theorem Busy.pending_le (b : Busy) : b.pending ≤ 1 := by cases b <;> simp [Busy.pending]

theorem Busy.pending_pos {b : Busy} (h : b ≠ .none) : b.pending = 1 := by cases b <;> first | rfl | exact absurd rfl h

/-- A bound on the steps left to a call, a completion counted as one. -/
def State.remaining (s : State) : Nat := s.host.linesLeft * 2 + s.busy.pending

/-- A transaction that goes on has fewer primitives left, whatever its primitive returned. -/
theorem primsLeft_next {soa : Bool} {t t' : Txn} {ph ph' : Phase} {r : PrimResult} (h : t.next soa ph r = .enter t' ph')
    (hb : ph = .startPending ∨ ph = .addressPending → 0 < t.budget) :
    t'.primsLeft ph' < t.primsLeft ph ∧ (ph' = .startPending ∨ ph' = .addressPending → 0 < t'.budget) := by
  have retry : ∀ st, 0 < t.budget → t.retry st = .enter t' ph' →
      t'.primsLeft ph' < t.budget * (t.kind.size + 10) + 1 ∧ (ph' = .startPending ∨ ph' = .addressPending → 0 < t'.budget) := by
    intro st hp h
    have hs : satDec t.budget = t.budget - 1 := by unfold satDec; split <;> omega
    have hm : t.budget * (t.kind.size + 10) = (t.budget - 1) * (t.kind.size + 10) + (t.kind.size + 10) := by
      rw [← Nat.succ_mul, Nat.succ_eq_add_one, Nat.sub_add_cancel hp]
    simp only [Txn.retry, hs] at h
    split at h
    · injection h with h1 h2; subst h1; subst h2
      exact ⟨by simp only [Txn.primsLeft]; omega, by simp⟩
    · injection h with h1 h2; subst h1; subst h2
      exact ⟨by simp only [Txn.primsLeft]; omega, fun _ => by show 0 < t.budget - 1; omega⟩
  have abort : ∀ st n, t.abort soa st = .enter t' ph' →
      t'.primsLeft ph' < n + 2 ∧ (ph' = .startPending ∨ ph' = .addressPending → 0 < t'.budget) := by
    intro st n h
    unfold Txn.abort at h
    split at h
    · injection h with h1 h2; subst h1; subst h2; exact ⟨by simp [Txn.primsLeft], by simp⟩
    · cases h
  cases ph with
  | startPending =>
    simp only [Txn.next] at h; split at h
    · injection h with h1 h2; subst h1; subst h2; exact ⟨by simp [Txn.primsLeft], fun _ => hb (.inl rfl)⟩
    · obtain ⟨h1, h2⟩ := retry _ (hb (.inl rfl)) h; exact ⟨by simp only [Txn.primsLeft] at *; omega, h2⟩
  | addressPending =>
    simp only [Txn.next] at h; split at h
    · injection h with h1 h2; subst h1; subst h2
      have : 1 * (t.kind.size + 10) ≤ t.budget * (t.kind.size + 10) := Nat.mul_le_mul_right _ (hb (.inr rfl))
      exact ⟨by simp only [Txn.primsLeft]; omega, by simp⟩
    · exact retry _ (hb (.inr rfl)) h
  | offsetPhase =>
    simp only [Txn.next] at h; split at h
    · unfold Txn.afterOffset at h
      split at h <;> injection h with h1 h2 <;> subst h1 <;> subst h2 <;> simp_all [Txn.primsLeft, TxnKind.size]
    · exact abort _ _ h
  | repeatedStart =>
    simp only [Txn.next] at h; split at h
    · injection h with h1 h2; subst h1; subst h2; simp [Txn.primsLeft]
    · exact abort _ _ h
  | readAddressPending =>
    simp only [Txn.next] at h; split at h
    · unfold Txn.afterReadAddress at h
      split at h <;> injection h with h1 h2 <;> subst h1 <;> subst h2 <;> simp_all [Txn.primsLeft, TxnKind.size]
    · exact abort _ _ h
  | readData left =>
    cases left <;> (simp only [Txn.next] at h; injection h with h1 h2; subst h1; subst h2; simp [Txn.primsLeft])
  | writeData b rest =>
    simp only [Txn.next] at h; split at h
    · split at h <;> injection h with h1 h2 <;> subst h1 <;> subst h2 <;> simp [Txn.primsLeft]
    · exact abort _ _ h
  | stopping st => simp [Txn.next] at h

/-! ## A call in progress -/

/-- The engine while a primitive polls: the primitive's command is in flight, or it has completed and said so. -/
def pollable (s : State) (p : Prim) : PrimPos → Prop
  | .poll => (s.busy ≠ .none ∧ (s.busy = .stop ↔ p = .stop)) ∨ (s.busy = .none ∧ (p ≠ .stop → s.rdy = true))
  | .load => True
  | .issue => True
  | .take => True

/-- The host's program is in the call `c`. -/
def inCall (c : HostCall) (s : State) : Prop :=
  match s.host, c with
  | .configure _, .configure _ _ => True
  | .prim p pos, .prim _ => pollable s p pos
  | .txn t ph pos, .read _ _ _ _ => (ph = .startPending ∨ ph = .addressPending → 0 < t.budget) ∧ pollable s (t.prim ph) pos
  | .txn t ph pos, .write _ _ _ _ => (ph = .startPending ∨ ph = .addressPending → 0 < t.budget) ∧ pollable s (t.prim ph) pos
  | _, _ => False

/-- The call `c` has returned. -/
def hasReturned (c : HostCall) (s : State) : Prop := s.host = .idle ∧ ∃ r, s.returned = some r ∧ c.returnedBy r

/-- What a call does when it is made: it begins, or has returned already (R149). -/
theorem hostCall_inCall {c : HostCall} {s t : State} (h : hostCall c s = .next t) : inCall c t ∨ hasReturned c t := by
  have txn : ∀ {a n len kind r}, callTxn a n len kind r s = .next t →
      (∃ x : Txn, x.budget = 20 ∧ t = s.setHost (.txn x .startPending .issue)) ∨ t = s.hostReturns (.txn .success []) := by
    intro a n len kind r h
    unfold callTxn at h
    split at h
    · exact .inr (next_inj.1 h).symm
    · split at h
      · cases h
      · split at h
        · cases h
        · exact .inl ⟨_, rfl, (next_inj.1 h).symm⟩
  unfold hostCall at h
  split at h
  · cases c with
    | configure cpu bus => rw [← next_inj.1 h]; exact .inl trivial
    | prim p => rw [← next_inj.1 h]; left; cases p <;> trivial
    | read a n r len =>
      rcases txn h with ⟨x, hx, rfl⟩ | rfl
      · exact .inl ⟨fun _ => by omega, trivial⟩
      · exact .inr ⟨rfl, _, rfl, _, _, rfl⟩
    | write a n r src =>
      rcases txn h with ⟨x, hx, rfl⟩ | rfl
      · exact .inl ⟨fun _ => by omega, trivial⟩
      · exact .inr ⟨rfl, _, rfl, _, _, rfl⟩
  · cases h

theorem command_ne_nop (held : Bool) (p : Prim) (ie en : Bool) : p.command held ≠ .nop ie en := by
  cases p with
  | start => cases held <;> nofun
  | stop => nofun
  | writeByte b => nofun
  | readByte k => cases k <;> nofun

/-- The command a primitive issues fills the slot, with a stop exactly if the primitive is `stop`. -/
theorem command_issues {held : Bool} {p : Prim} {s : State} {b : Busy} (h : Issues (p.command held) s b) :
    b ≠ .none ∧ (b = .stop ↔ p = .stop) := by
  cases p with
  | start => cases held <;> (have h : b = .start := h; subst h; simp)
  | stop => have h : b = .stop := h; subst h; simp
  | writeByte d => obtain ⟨-, d, -, rfl⟩ := h; simp
  | readByte k => cases k <;> (obtain ⟨-, rfl⟩ := h; simp)

/-- What one line of a primitive's listing does: the primitive returns, or stands at a later line, or has polled in vain. -/
theorem prim_line {p : Prim} {pos : PrimPos} {a : Access} {s s' : State} (hp : pollable s p pos) (ha : p.access pos = some a)
    (h : access a s = .next s') :
    (∃ r, p.next pos s'.rdata = .returns r) ∨
    ∃ pos', p.next pos s'.rdata = .at pos' ∧ pollable s' p pos' ∧
      (pos'.linesLeft < pos.linesLeft ∨ pos = .poll ∧ pos' = .poll ∧ s'.busy = s.busy ∧ s.busy ≠ .none) := by
  cases pos with
  | load => exact .inr ⟨.issue, rfl, trivial, .inl (by decide)⟩
  | take => exact .inl ⟨_, rfl⟩
  | issue =>
    refine .inr ⟨.poll, rfl, .inl ?_, .inl (by decide)⟩
    rw [access_issue] at ha; injection ha with ha; subst ha
    have h : exec (p.command s.holdsBus) s = .next s' := by
      have : access (.write offCtrl p.commandByte) s = ctrlWrite p.commandByte s := rfl
      rwa [this, ctrlWrite, decode_commandByte] at h
    rcases exec_cases h with ⟨ie, en, hc, -⟩ | ⟨-, -, b, hI, rfl⟩
    · exact absurd hc (command_ne_nop _ _ _ _)
    · exact command_issues hI
  | poll =>
    rw [access_poll] at ha; injection ha with ha; subst ha
    have hs : s' = s.returnByte s.ctrlByte := (next_inj.1 h).symm
    subst hs
    rcases Bool.eq_false_or_eq_true (p.pollEnds s.ctrlByte) with he | he
    · simp only [Prim.next, State.returnByte_rdata, he, if_true]
      by_cases hs : p = .stop
      · rw [if_pos hs]; exact .inl ⟨_, rfl⟩
      · rw [if_neg hs]; exact .inr ⟨.take, rfl, trivial, .inl (by decide)⟩
    · refine .inr ⟨.poll, by simp [Prim.next, he], hp, .inr ⟨rfl, rfl, rfl, fun hb => ?_⟩⟩
      rcases hp with ⟨hp, -⟩ | ⟨-, hr⟩
      · exact hp hb
      · by_cases hs : p = .stop
        · subst hs; rw [pollEnds_stop, State.sto, hb] at he; cases he
        · rw [pollEnds_of_ne_stop hs, hr hs] at he; cases he

/-- A completion brings a call nearer to its end. -/
theorem complete_inCall {c : HostCall} {env : Env} {s t : State} (hc : inCall c s) (h : complete env s = .next t) :
    inCall c t ∧ t.remaining < s.remaining := by
  obtain ⟨-, hh, -⟩ := complete_host h
  have hb : s.busy ≠ .none ∧ t.busy = .none ∧ (s.busy ≠ .stop → t.rdy = true) := by
    rcases complete_shape h with ⟨h1, -, d, c, l, e, n, rfl⟩ | ⟨h1, b, rfl⟩
    · exact ⟨h1, rfl, fun _ => rfl⟩
    · exact ⟨by simp [h1], rfl, fun h => absurd h1 h⟩
  have hp : ∀ p pos, pollable s p pos → pollable t p pos := by
    intro p pos h
    cases pos with
    | poll =>
      rcases h with ⟨-, h⟩ | ⟨h, -⟩
      · exact .inr ⟨hb.2.1, fun hp => hb.2.2 fun hs => hp (h.1 hs)⟩
      · exact absurd h hb.1
    | _ => trivial
  refine ⟨?_, by
    simp only [State.remaining, hh, hb.2.1, Busy.pending_pos hb.1]; exact Nat.lt_succ_self _⟩
  unfold inCall at *
  rw [hh]
  split at hc
  · trivial
  · exact hp _ _ hc
  · exact ⟨hc.1, hp _ _ hc.2⟩
  · exact ⟨hc.1, hp _ _ hc.2⟩
  · exact hc

theorem first_linesLeft (p : Prim) : p.first.linesLeft ≤ 4 := by cases p <;> simp [Prim.first, PrimPos.linesLeft]

/-- What a step of the host's program does to a call: it ends it, brings it nearer to its end, or has polled in vain. -/
theorem hostStep_inCall {c : HostCall} {soa : Bool} {s t : State} (hc : inCall c s) (h : hostStep soa s = .next t) :
    hasReturned c t ∨ inCall c t ∧ (t.remaining < s.remaining ∨ t.remaining = s.remaining ∧ s.busy ≠ .none) := by
  obtain ⟨a, s', ha, hacc, rfl⟩ := hostStep_eq_next.1 h
  have hh : s'.host = s.host := (access_host hacc).1
  -- one transaction, of either direction
  have txn : ∀ (x : Txn) (ph : Phase) (pos : PrimPos), s.host = .txn x ph pos →
      (ph = .startPending ∨ ph = .addressPending → 0 < x.budget) → pollable s (x.prim ph) pos →
      (∃ st d, hostAfter soa s' = s'.hostReturns (.txn st d)) ∨
      ∃ (x' : Txn) (ph' : Phase) (pos' : PrimPos), hostAfter soa s' = s'.setHost (.txn x' ph' pos') ∧
        (ph' = .startPending ∨ ph' = .addressPending → 0 < x'.budget) ∧ pollable s' (x'.prim ph') pos' ∧
        ((HostControl.txn x' ph' pos').linesLeft < (HostControl.txn x ph pos).linesLeft ∨
          (HostControl.txn x' ph' pos').linesLeft = (HostControl.txn x ph pos).linesLeft ∧ s'.busy = s.busy ∧ s.busy ≠ .none) := by
    intro x ph pos hs hb hp
    rw [hs] at ha hh
    rcases prim_line hp ha hacc with ⟨r, hr⟩ | ⟨pos', hr, hp', hl⟩
    · have key : hostAfter soa s' = s'.txnMoves x (x.next soa ph r) := by simp only [hostAfter, hh, hr]
      cases hn : x.next soa ph r with
      | returns st => exact .inl ⟨st, x.destination, by rw [key, hn]; rfl⟩
      | enter x' ph' =>
        obtain ⟨h1, h2⟩ := primsLeft_next hn hb
        refine .inr ⟨x', ph', (x'.prim ph').first, by rw [key, hn]; rfl, h2, by cases x'.prim ph' <;> trivial, .inl ?_⟩
        have := first_linesLeft (x'.prim ph')
        have : 1 ≤ pos.linesLeft := by cases pos <;> decide
        simp only [HostControl.linesLeft]; omega
    · refine .inr ⟨x, ph, pos', by simp only [hostAfter, hh, hr], hb, hp', ?_⟩
      rcases hl with hl | ⟨rfl, rfl, h1, h2⟩
      · exact .inl (by simp only [HostControl.linesLeft]; omega)
      · exact .inr ⟨rfl, h1, h2⟩
  -- the measure from the lines left
  have less : ∀ h' : HostControl, (h'.linesLeft < s.host.linesLeft ∨ h'.linesLeft = s.host.linesLeft ∧ s'.busy = s.busy ∧ s.busy ≠ .none) →
      (s'.setHost h').remaining < s.remaining ∨ (s'.setHost h').remaining = s.remaining ∧ s.busy ≠ .none := by
    intro h' hl
    have hb1 := s'.busy.pending_le
    simp only [State.remaining, State.setHost_host, State.setHost_busy]
    rcases hl with hl | ⟨h1, h2, h3⟩
    · left; omega
    · right; exact ⟨by rw [h1, h2], h3⟩
  unfold inCall at hc
  split at hc
  · rename_i p cpu bus hs
    cases p with
    | div d =>
      rw [hs] at hh
      have key : hostAfter soa s' = s'.setHost (.configure .presc) := by simp only [hostAfter, hh]
      rw [key]; exact .inr ⟨trivial, less _ (by rw [hs]; exact .inl (Nat.lt_succ_self _))⟩
    | presc =>
      rw [hs] at hh
      have key : hostAfter soa s' = s'.setHost (.configure .enable) := by simp only [hostAfter, hh]
      rw [key]; exact .inr ⟨trivial, less _ (by rw [hs]; exact .inl (Nat.lt_succ_self _))⟩
    | enable =>
      rw [hs] at hh
      have key : hostAfter soa s' = s'.hostReturns .configured := by simp only [hostAfter, hh]
      rw [key]; exact .inl ⟨rfl, _, rfl, rfl⟩
  · rename_i p pos q hs
    rw [hs] at ha hh
    rcases prim_line hc ha hacc with ⟨r, hr⟩ | ⟨pos', hr, hp', hl⟩
    · have key : hostAfter soa s' = s'.hostReturns (.prim r) := by simp only [hostAfter, hh, hr]
      rw [key]; exact .inl ⟨rfl, _, rfl, _, rfl⟩
    · have key : hostAfter soa s' = s'.setHost (.prim p pos') := by simp only [hostAfter, hh, hr]
      rw [key]
      refine .inr ⟨hp', less _ ?_⟩
      rw [hs]
      rcases hl with hl | ⟨rfl, rfl, h1, h2⟩
      · exact .inl hl
      · exact .inr ⟨rfl, h1, h2⟩
  · rename_i x ph pos _ _ _ _ hs
    rcases txn x ph pos hs hc.1 hc.2 with ⟨st, d, key⟩ | ⟨x', ph', pos', key, h1, h2, h3⟩ <;> rw [key]
    · exact .inl ⟨rfl, _, rfl, _, _, rfl⟩
    · exact .inr ⟨⟨h1, h2⟩, less _ (by rw [hs]; exact h3)⟩
  · rename_i x ph pos _ _ _ _ hs
    rcases txn x ph pos hs hc.1 hc.2 with ⟨st, d, key⟩ | ⟨x', ph', pos', key, h1, h2, h3⟩ <;> rw [key]
    · exact .inl ⟨rfl, _, rfl, _, _, rfl⟩
    · exact .inr ⟨⟨h1, h2⟩, less _ (by rw [hs]; exact h3)⟩
  · exact hc.elim

/-- What a step does to a call in progress when only the host's program and the engine move: the call has returned, or is nearer to
its end, or a poll has found a command still in flight. -/
theorem step_inCall {c : HostCall} {i : Input} {s t : State} (hc : inCall c s)
    (hi : i = .host ∨ (∃ env, i = .complete env) ∨ ∃ d, i = .call d) (h : step (s.given i) = .next t) :
    hasReturned c t ∨ inCall c t ∧ (t.remaining < s.remaining ∨ t.remaining = s.remaining ∧ s.busy ≠ .none ∧ i = .host) := by
  rw [step_given] at h
  rcases hi with rfl | ⟨env, rfl⟩ | ⟨d, rfl⟩
  · rcases hostStep_inCall hc h with h | ⟨h1, h | ⟨h, h2⟩⟩
    · exact .inl h
    · exact .inr ⟨h1, .inl h⟩
    · exact .inr ⟨h1, .inr ⟨h, h2, rfl⟩⟩
  · obtain ⟨h1, h2⟩ := complete_inCall hc h
    exact .inr ⟨h1, .inl h2⟩
  · obtain ⟨h1, -⟩ := hostCall_eq h
    unfold inCall at hc
    rw [h1] at hc
    exact hc.elim

theorem inCall_ne_idle {c : HostCall} {s : State} (h : inCall c s) : s.host ≠ .idle := by
  intro hi
  unfold inCall at h
  rw [hi] at h
  exact h.elim

end Sys2Proof.Machine
end

