-- ==== Sys2Proof/Laws/Transactions.lean ====
section
/-! SUPPORT. What holds all through a transaction of the host (R150 to R156): where the engine stands at each line of each
primitive, how many start attempts and stops have been made, and what holds when the transaction has returned. `onTrack` is the
invariant; a call brings it about (`onTrack_call`), and a completion step (`onTrack_complete`), a host step (`onTrack_host`) and a
run of both (`onTrack_run`) keep it.

The parameters throughout: `g`, every receive gets its byte (R199); `w`, the call is a write; `soa`, `STOP_ON_ABORT`; `S` and `P`,
the start attempts and stops in TRACE before the call, `T`, the bytes transmitted; `k` and `x`, the start attempts and bytes
since; `done`, the command of the current primitive has completed. -/

namespace Sys2Proof.Machine

/-- The LINK each phase begins in (R157). -/
def linkBefore (g : Bool) (l : Link) : Phase → Prop
  | .startPending => True
  | .addressPending => l = .started
  | .offsetPhase => l = .mt
  | .repeatedStart => True
  | .readAddressPending => l = .started
  | .readData _ => g = true → l = .mr
  | .writeData _ _ => l = .mt
  | .stopping _ => True

/-- The LINK after the command of each phase, when its status `c` lets the transaction go on. -/
def linkAfter (g : Bool) (l : Link) (c : BusStatus) : Phase → Prop
  | .startPending => startAccepted c.code = true → l = .started
  | .addressPending => knownGood c.code = true → l = .mt
  | .offsetPhase => knownGood c.code = true → l = .mt
  | .repeatedStart => startAccepted c.code = true → l = .started
  | .readAddressPending => knownGood c.code = true → l = .mr
  | .readData left => g = true → left ≠ 0 → l = .mr
  | .writeData _ _ => knownGood c.code = true → l = .mt
  | .stopping _ => l = .idle

/-- The start attempts made and the budget left add up (R147); no more address bytes than start attempts are sent to acquire the slave. -/
def attemptsAt (w : Bool) (t : Txn) (k x : Nat) (done : Bool) : Phase → Prop
  | .startPending => 0 < t.budget ∧ (k + t.budget = if done then 21 else 20) ∧ x + (if done then 1 else 0) ≤ k
  | .addressPending => 0 < t.budget ∧ k + t.budget = 21 ∧ x + (if done then 0 else 1) ≤ k
  | .offsetPhase => 0 < t.budget ∧ k + t.budget = 21
  | .repeatedStart => w = false ∧ 0 < t.budget ∧ k + t.budget = if done then 22 else 21
  | .readAddressPending => w = false ∧ 0 < t.budget ∧ k + t.budget = 22
  | .readData _ => w = false ∧ 0 < t.budget ∧ k + t.budget = 22
  | .writeData _ _ => 0 < t.budget ∧ k + t.budget = 21
  | .stopping st => (st = .startExhausted ∨ st = .addressExhausted → k = 20 ∧ x ≤ 20) ∧ k ≤ 21 ∧ (w = true → k ≤ 20)

/-- The stops made: one, once the stop of the last phase has completed. -/
def stopsAt (done : Bool) : Phase → Nat
  | .stopping _ => if done then 1 else 0
  | _ => 0

/-- The engine at each line of the current primitive. -/
def engineAt (g : Bool) (s : State) (t : Txn) (ph : Phase) (done : Bool) : PrimPos → Prop
  | .load => done = false ∧ s.busy = .none ∧ linkBefore g s.link ph ∧ ∃ b, t.prim ph = .writeByte b
  | .issue => done = false ∧ s.busy = .none ∧ linkBefore g s.link ph ∧ (∀ b, t.prim ph = .writeByte b → s.data = some b)
  | .poll =>
    if done then
      s.busy = .none ∧ ((∃ st, ph = .stopping st ∧ s.link = .idle) ∨
        s.fresh = true ∧ s.rdy = true ∧ ∃ c, s.code = some c ∧ linkAfter g s.link c ph)
    else s.busy = (t.prim ph).flight ∧ s.rdy = false ∧ linkBefore g s.link ph
  | .take =>
    done = true ∧ s.busy = .none ∧ (∀ st, ph ≠ .stopping st) ∧ s.fresh = true ∧ ∃ c, s.code = some c ∧ linkAfter g s.link c ph

/-- What holds while a transaction is in a phase. -/
def duringTxn (g w : Bool) (S P T : Nat) (s : State) (t : Txn) (ph : Phase) (pos : PrimPos) : Prop :=
  (w = true ↔ ∃ src, t.kind = .write src) ∧
  ∃ done k x, startAttempts s.trace = S + k ∧ stopEvents s.trace = P + stopsAt done ph ∧ transmits s.trace = T + x ∧
    attemptsAt w t k x done ph ∧
    engineAt g s t ph done pos

/-- What holds when a transaction has returned (R150, R154, R197). -/
def afterTxn (w soa : Bool) (S P T : Nat) (s : State) : Prop :=
  s.busy = .none ∧ ∃ st d k, s.returned = some (.txn st d) ∧ startAttempts s.trace = S + k ∧
    (st = .startExhausted ∨ st = .addressExhausted → k = 20 ∧ stopEvents s.trace = P + 1 ∧ transmits s.trace ≤ T + 20) ∧ k ≤ 21 ∧ (w = true → k ≤ 20) ∧
    (soa = true ∨ st = .success ∨ st = .startExhausted ∨ st = .addressExhausted → s.link = .idle)

/-- The invariant of a transaction. -/
def onTrack (g w soa : Bool) (S P T : Nat) (s : State) : Prop :=
  s.en = true ∧ match s.host with
    | .idle => afterTxn w soa S P T s
    | .configure _ => False
    | .prim _ _ => False
    | .txn t ph pos => duringTxn g w S P T s t ph pos

/-- Whether a call is a write. -/
def HostCall.isWrite : HostCall → Bool
  | .write _ _ _ _ => true
  | .configure _ _ => false
  | .prim _ => false
  | .read _ _ _ _ => false

/-- A transaction call in its domain puts the host on track, or returns at once if it is for no bytes (R149). -/
theorem onTrack_call (g soa : Bool) {s : State} {c : HostCall} (h : s.readyForCall) (hd : c.TransactionInDomain) :
    ∃ t, hostCall c s = .next t ∧ t.inputs = s.inputs ∧
      (¬c.ofZeroBytes ∧ onTrack g c.isWrite soa (startAttempts s.trace) (stopEvents s.trace) (transmits s.trace) t ∨
        c.ofZeroBytes ∧ t = s.hostReturns (.txn .success [])) := by
  obtain ⟨h1, h2, h3⟩ := h
  have begins : ∀ kind a r, (c.isWrite = true ↔ ∃ src, kind = .write src) →
      onTrack g c.isWrite soa (startAttempts s.trace) (stopEvents s.trace) (transmits s.trace) (beginTxn s kind a r) := by
    intro kind a r hk
    refine ⟨h2, hk, false, 0, 0, rfl, rfl, rfl, ⟨?_, rfl, Nat.le_refl _⟩, rfl, h3, trivial, by simp [Txn.prim]⟩
    show 0 < 20; decide
  cases c with
  | configure cpu b => exact hd.elim
  | prim p => exact hd.elim
  | read a n r len =>
    obtain ⟨ha, hn⟩ := hd
    simp only [hostCall, h1, if_true, callTxn]
    split
    · exact ⟨_, rfl, rfl, .inr ⟨‹_›, rfl⟩⟩
    · rw [if_neg (by omega), if_neg (by omega)]
      exact ⟨_, rfl, rfl, .inl ⟨‹_›, begins _ _ _ (by simp [HostCall.isWrite])⟩⟩
  | write a n r src =>
    obtain ⟨ha, hn⟩ := hd
    simp only [hostCall, h1, if_true, callTxn]
    split
    · exact ⟨_, rfl, rfl, .inr ⟨‹_›, rfl⟩⟩
    · rw [if_neg (by omega), if_neg (by omega)]
      exact ⟨_, rfl, rfl, .inl ⟨‹_›, begins _ _ _ (by simp [HostCall.isWrite])⟩⟩

/-- A transaction on track is a call in progress, until it has returned. -/
theorem onTrack_inCall {g w soa : Bool} {S P T : Nat} {s : State} (h : onTrack g w soa S P T s) (hi : s.host ≠ .idle) (a : Nat)
    (n r : Byte) (len : Nat) : inCall (.read a n r len) s := by
  obtain ⟨he, h⟩ := h
  cases hh : s.host with
  | idle => exact absurd hh hi
  | configure p => rw [hh] at h; exact h.elim
  | prim p q => rw [hh] at h; exact h.elim
  | txn t ph pos =>
    rw [hh] at h
    obtain ⟨hw, done, k, y, hk, hp, hy, hsp, hat⟩ := h
    unfold inCall
    rw [hh]
    refine ⟨by rintro (rfl | rfl) <;> exact hsp.1, ?_⟩
    cases pos with
    | poll =>
      cases done with
      | false =>
        simp only [engineAt, Bool.false_eq_true, if_false] at hat
        left; rw [hat.1]
        cases t.prim ph <;> simp [Prim.flight]
      | true =>
        simp only [engineAt, if_true] at hat
        refine .inr ⟨hat.1, fun hs => ?_⟩
        rcases hat.2 with ⟨st, rfl, -⟩ | ⟨-, hr, -⟩
        · exact absurd rfl hs
        · exact hr
    | _ => trivial

/-- A completion step keeps a transaction on track. -/
theorem onTrack_complete {g w soa : Bool} {S P T : Nat} {s t : State} {env : Env} (h : onTrack g w soa S P T s)
    (hg : g = true → ∀ k, s.busy = .rx k → ∃ d, env.rxAnswer = .ok d) (hc : complete env s = .next t) : onTrack g w soa S P T t := by
  obtain ⟨he, h⟩ := h
  cases hh : s.host with
  | idle => rw [hh] at h; obtain ⟨hb, -⟩ := h; simp [complete, hb] at hc
  | configure p => rw [hh] at h; exact h.elim
  | prim p q => rw [hh] at h; exact h.elim
  | txn x ph pos =>
  rw [hh] at h
  obtain ⟨hw, done, k, y, hk, hp, hy, hsp, hat⟩ := h
  have hbusy : pos = .poll ∧ done = false ∧ s.busy = (x.prim ph).flight ∧ linkBefore g s.link ph := by
    cases pos with
    | load => obtain ⟨-, hb, -⟩ := hat; simp [complete, hb] at hc
    | issue => obtain ⟨-, hb, -⟩ := hat; simp [complete, hb] at hc
    | take => obtain ⟨-, hb, -⟩ := hat; simp [complete, hb] at hc
    | poll =>
      cases done with
      | true => simp only [engineAt, if_true] at hat; obtain ⟨hb, -⟩ := hat; simp [complete, hb] at hc
      | false => exact ⟨rfl, rfl, hat.1, hat.2.2⟩
  obtain ⟨rfl, rfl, hb, hl⟩ := hbusy
  -- shape
  have fin : ∀ (d : Option Byte) (c : BusStatus) (l : Link) (e : BusEvent) (n : Nat) (k' y' : Nat),
      (match e with
        | .startAttempt _ => k' = k + 1 ∧ y' = y
        | .tx _ _ => k' = k ∧ y' = y + 1
        | .rx _ _ _ => k' = k ∧ y' = y
        | .stop _ => False) → attemptsAt w x k' y' true ph →
      (∀ st, ph ≠ .stopping st) → linkAfter g l c ph → onTrack g w soa S P T (State.publish { s with draws := n } d c l e) := by
    intro d c l e n k' y' hk' hs' hns hla
    refine ⟨he, ?_⟩
    show (match s.host with | .idle => _ | .configure _ => _ | .prim _ _ => _ | .txn t ph pos => _)
    rw [hh]
    have hst : stopsAt true ph = stopsAt false ph := by cases ph <;> simp [stopsAt]; exact hns _ rfl
    refine ⟨hw, true, k', y', ?_, ?_, ?_, hs', ?_⟩
    · show startAttempts (s.trace ++ [e]) = _
      rw [(attempts_append _ e).1, hk]; cases e <;> simp_all; omega
    · show stopEvents (s.trace ++ [e]) = _
      rw [(attempts_append _ e).2.1, hp, hst]; cases e <;> simp_all
    · show transmits (s.trace ++ [e]) = _
      rw [(attempts_append _ e).2.2, hy]; cases e <;> simp_all; omega
    · simp only [engineAt, if_true]
      exact ⟨rfl, .inr ⟨rfl, rfl, c, rfl, hla⟩⟩
  have hstart : s.busy = .start → (ph = .startPending ∨ ph = .repeatedStart) := by
    intro h; rw [hb] at h; cases ph <;> simp [Txn.prim, Prim.flight] at h <;> simp
  rcases complete_cases hc with ⟨hb', rfl⟩ | ⟨b, hb', hm, rfl⟩ | ⟨kk, hb', rfl⟩ | ⟨hb', rfl⟩
  · have hs1 : attemptsAt w x (k+1) y true ph := by
      rcases hstart hb' with rfl | rfl <;> simp [attemptsAt] at hsp ⊢
      · omega
      · exact ⟨hsp.1, hsp.2.1, by omega⟩
    have hns : ∀ st, ph ≠ .stopping st := by rcases hstart hb' with rfl | rfl <;> simp
    have good : ∀ c, linkAfter g .started c ph := by intro c; rcases hstart hb' with rfl | rfl <;> simp [linkAfter]
    have bad : ∀ l c, startAccepted (BusStatus.code c) = false → linkAfter g l c ph := by
      intro l c hc; rcases hstart hb' with rfl | rfl <;> simp [linkAfter, hc]
    cases env.startAnswer with
    | accept =>
      simp only [completeStart]
      rcases startIsAccepted_cases s with ⟨-, h⟩ | ⟨-, h⟩ | ⟨-, h | h⟩ <;> rw [h]
      · exact fin _ _ _ _ s.draws _ _ ⟨rfl, rfl⟩ hs1 hns (good _)
      · exact fin _ _ _ _ s.draws _ _ ⟨rfl, rfl⟩ hs1 hns (good _)
      · exact fin _ _ _ _ (s.draws+1) _ _ ⟨rfl, rfl⟩ hs1 hns (good _)
      · exact fin _ _ _ _ (s.draws+1) _ _ ⟨rfl, rfl⟩ hs1 hns (good _)
    | collide => exact fin _ _ _ _ s.draws _ _ ⟨rfl, rfl⟩ hs1 hns (bad _ _ rfl)
    | error => exact fin _ _ _ _ s.draws _ _ ⟨rfl, rfl⟩ hs1 hns (bad _ _ rfl)
  · rw [hb] at hb'
    refine fin _ _ _ _ s.draws k (y + 1) ⟨rfl, rfl⟩ ?_ ?_ ?_
    · cases ph <;> simp [Txn.prim, Prim.flight] at hb' <;> simpa [attemptsAt] using hsp
    · cases ph <;> simp [Txn.prim, Prim.flight] at hb' <;> simp
    · cases ph <;> simp [Txn.prim, Prim.flight] at hb' <;> simp only [linkBefore] at hl <;> simp only [linkAfter, hl] <;>
        (try subst hb') <;> cases env.txAnswer <;> simp [knownGood_iff, txReport, txAcknowledged]
  · have hrx := hb'
    rw [hb] at hb'
    have hph : ∃ left, ph = .readData left ∧ kk = (left != 0) := by
      cases ph <;> simp [Txn.prim, Prim.flight] at hb'; exact ⟨_, rfl, hb'.symm⟩
    obtain ⟨left, rfl, rfl⟩ := hph
    cases ha : env.rxAnswer with
    | ok d =>
      refine fin _ _ _ _ s.draws k y ⟨rfl, rfl⟩ hsp (by simp) ?_
      intro _ h; simp [h]
    | lost => exact fin _ _ _ _ (s.draws+1) k y ⟨rfl, rfl⟩ hsp (by simp) (fun h => by obtain ⟨d, h⟩ := hg h _ hrx; simp [ha] at h)
    | error => exact fin _ _ _ _ (s.draws+1) k y ⟨rfl, rfl⟩ hsp (by simp) (fun h => by obtain ⟨d, h⟩ := hg h _ hrx; simp [ha] at h)
  · rw [hb] at hb'
    have hph : ∃ st, ph = .stopping st := by
      cases ph <;> simp [Txn.prim, Prim.flight] at hb'; exact ⟨_, rfl⟩
    obtain ⟨st, rfl⟩ := hph
    refine ⟨he, ?_⟩
    show (match s.host with | .idle => _ | .configure _ => _ | .prim _ _ => _ | .txn t ph pos => _)
    rw [hh]
    refine ⟨hw, true, k, y, ?_, ?_, ?_, hsp, ?_⟩
    · show startAttempts (s.trace ++ [_]) = _
      rw [(attempts_append _ _).1, hk]; rfl
    · show stopEvents (s.trace ++ [_]) = _
      rw [(attempts_append _ _).2.1, hp]; simp [stopsAt]
    · show transmits (s.trace ++ [_]) = _
      rw [(attempts_append _ _).2.2, hy]; rfl
    · simp only [engineAt, if_true]
      exact ⟨rfl, .inl ⟨st, rfl, rfl⟩⟩

/-- A host step keeps a transaction on track, or is a receive refused after a receive failed (R103), or finds it returned. -/
theorem onTrack_host {g w soa : Bool} {S P T : Nat} {s : State} (h : onTrack g w soa S P T s) :
    (∃ t, hostStep soa s = .next t ∧ onTrack g w soa S P T t ∧ t.inputs = s.inputs ∧ s.host ≠ .idle) ∨
    (g = false ∧ ∃ r, hostStep soa s = .refused r) ∨
    (s.host = .idle ∧ hostStep soa s = .fault .stuckHost) := by
  obtain ⟨he, h⟩ := h
  cases hh : s.host with
  | idle => right; right; exact ⟨rfl, by simp [hostStep, hh, HostControl.access]⟩
  | configure p => rw [hh] at h; exact h.elim
  | prim p q => rw [hh] at h; exact h.elim
  | txn x ph pos =>
  rw [hh] at h
  obtain ⟨hw, done, k, y, hk, hp, hy, hsp, hat⟩ := h
  -- entering a phase
  have enter : ∀ (u : State) (x' : Txn) (ph' : Phase) (k' : Nat), u.en = true → u.busy = .none → x'.kind = x.kind →
      startAttempts u.trace = S + k' → stopEvents u.trace = P ∧ transmits u.trace = T + y → attemptsAt w x' k' y false ph' →
      linkBefore g u.link ph' → onTrack g w soa S P T (u.setHost (.txn x' ph' (x'.prim ph').first)) := by
    intro u x' ph' k' h1 h2 h3 h4 ⟨h5, hy⟩ h6 h7
    refine ⟨h1, by rw [h3]; exact hw, false, k', y, h4, ?_, hy, h6, ?_⟩
    · show stopEvents u.trace = _; rw [h5]; cases ph' <;> rfl
    · cases ph' <;> first | exact ⟨rfl, h2, h7, _, rfl⟩ | exact ⟨rfl, h2, h7, by simp [Txn.prim]⟩

  have retry : ∀ (u : State) (st : TxnStatus) (k' : Nat), u.en = true → u.busy = .none → 
      (st = .startExhausted ∨ st = .addressExhausted) →
      startAttempts u.trace = S + k' → stopEvents u.trace = P ∧ transmits u.trace = T + y → 0 < x.budget →
      k' + x.budget = 21 ∧ y ≤ k' → onTrack g w soa S P T (u.txnMoves x (x.retry st)) := by
    intro u st k' h1 h2 h3 h4 h5 h6 ⟨h7, h8⟩
    unfold Txn.retry
    have hs : satDec x.budget = x.budget - 1 := by unfold satDec; split <;> omega
    simp only [hs]
    split
    · refine enter u _ _ k' h1 h2 rfl h4 h5 ?_ trivial
      refine ⟨fun _ => by omega, by omega, fun _ => by omega⟩
    · refine enter u _ _ k' h1 h2 rfl h4 h5 ?_ trivial
      refine ⟨?_, ?_, ?_⟩ <;> simp <;> omega
  have ret : ∀ (u : State) (st : TxnStatus) (k' : Nat), u.en = true → u.busy = .none → 
      startAttempts u.trace = S + k' → 
      (st = .startExhausted ∨ st = .addressExhausted → k' = 20 ∧ stopEvents u.trace = P + 1 ∧ transmits u.trace ≤ T + 20) →
      k' ≤ 21 → (w = true → k' ≤ 20) →
      (soa = true ∨ st = .success ∨ st = .startExhausted ∨ st = .addressExhausted → u.link = .idle) →
      onTrack g w soa S P T (u.txnMoves x (.returns st)) := by
    intro u st k' h1 h2 h3 h4 h5 h6 h7
    exact ⟨h1, h2, st, x.destination, k', rfl, h3, h4, h5, h6, h7⟩
  have abort : ∀ (u : State) (st : TxnStatus) (k' : Nat), u.en = true → u.busy = .none → 
      st ≠ .success → st ≠ .startExhausted → st ≠ .addressExhausted →
      startAttempts u.trace = S + k' → stopEvents u.trace = P ∧ transmits u.trace = T + y → k' ≤ 21 → (w = true → k' ≤ 20) →
      onTrack g w soa S P T (u.txnMoves x (x.abort soa st)) := by
    intro u st k' h1 h2 h3 h4 h5 h6 h7 h8 h9
    unfold Txn.abort
    cases soa with
    | true => exact enter u _ _ k' h1 h2 rfl h6 h7 ⟨by simp [h4, h5], h8, h9⟩ trivial
    | false => exact ret u _ k' h1 h2 h6 (by simp [h4, h5]) h8 h9 (by simp [h3, h4, h5])
  cases pos with
  | load =>
    obtain ⟨rfl, hb, hl, b, hb'⟩ := hat
    left
    refine ⟨(s.loadData b).setHost (.txn x ph .issue), ?_, ?_, rfl, by simp⟩
    · simp [hostStep, hh, HostControl.access, hb', Prim.access, access, memWrite, regAt, offData, writeData, hb, andThen, hostAfter, Prim.next]
    · refine ⟨he, hw, false, k, y, hk, hp, hy, hsp, rfl, hb, hl, ?_⟩
      intro b' h; rw [hb'] at h; injection h with h; rw [← h]; rfl
  | issue =>
    obtain ⟨rfl, hb, hl, hd⟩ := hat
    have ht : ∀ b, x.prim ph = .writeByte b → s.data = some b ∧ s.link.mayTransmit = true := by
      intro b h; refine ⟨hd b h, mayTransmit_iff.2 ?_⟩
      cases ph <;> simp [Txn.prim] at h <;> simp only [linkBefore] at hl <;> simp [hl]
    have hacc : s.host.access = some (.write offCtrl (x.prim ph).commandByte) := by
      rw [hh]; exact access_issue _
    rcases issue_prim (x.prim ph) s he hb ht with h | ⟨⟨kk, h1⟩, h2, h⟩
    · left
      refine ⟨(s.issue false (x.prim ph).flight).setHost (.txn x ph .poll), ?_, ?_, rfl, by simp⟩
      · rw [hostStep, hacc]; simp [access, h, andThen, hostAfter, hh, Prim.next]
      · refine ⟨he, hw, false, k, y, hk, hp, hy, hsp, ?_⟩
        exact ⟨rfl, rfl, hl⟩
    · right; left
      refine ⟨?_, .noMeaningInLink, by rw [hostStep, hacc]; simp [access, h, andThen]⟩
      cases ph <;> simp [Txn.prim] at h1
      cases hg : g with
      | false => rfl
      | true => exact absurd (hl hg) h2
  | poll =>
    left
    have hacc : s.host.access = some (.read offCtrl) := by
      rw [hh]; exact access_poll _
    have hrun : hostStep soa s = .next (hostAfter soa (s.returnByte s.ctrlByte)) := by
      rw [hostStep, hacc]; rfl
    rw [hrun]
    refine ⟨_, rfl, ?_⟩
    rw [show hostAfter soa (s.returnByte s.ctrlByte) = (match (x.prim ph).next .poll s.ctrlByte with
      | .at pos' => (s.returnByte s.ctrlByte).setHost (.txn x ph pos')
      | .returns r => (s.returnByte s.ctrlByte).txnMoves x (x.next soa ph r)) by
        cases h : (x.prim ph).next .poll s.ctrlByte <;> simp [hostAfter, hh, h]]
    cases done with
    | false =>
      simp only [engineAt, Bool.false_eq_true, if_false] at hat
      obtain ⟨hb, hr, hl⟩ := hat
      have : (x.prim ph).pollEnds s.ctrlByte = false := by
        by_cases hs : x.prim ph = .stop
        · rw [hs] at hb ⊢; rw [pollEnds_stop, State.sto, hb]; rfl
        · rw [pollEnds_of_ne_stop hs, hr]
      simp only [Prim.next, this]
      refine ⟨⟨he, hw, false, k, y, hk, hp, hy, hsp, ?_⟩, rfl, by simp⟩
      exact ⟨hb, hr, hl⟩
    | true =>
      simp only [engineAt, if_true] at hat
      obtain ⟨hb, ⟨st, rfl, hl⟩ | ⟨hf, hr, c, hc, hl⟩⟩ := hat
      · have : (x.prim (.stopping st)).pollEnds s.ctrlByte = true := by
          rw [Txn.prim, pollEnds_stop, State.sto, hb]; rfl
        simp only [Prim.next, this]
        refine ⟨?_, rfl, by simp⟩
        obtain ⟨h1, h2, h3⟩ := hsp
        exact ret _ st k he hb hk (fun h => ⟨(h1 h).1, hp, by rw [State.returnByte_trace]; have := (h1 h).2; omega⟩) h2 h3 (fun _ => hl)
      · by_cases hst : ∃ st, ph = .stopping st
        · obtain ⟨st, rfl⟩ := hst
          have : (x.prim (.stopping st)).pollEnds s.ctrlByte = true := by
            rw [Txn.prim, pollEnds_stop, State.sto, hb]; rfl
          simp only [Prim.next, this]
          refine ⟨?_, rfl, by simp⟩
          obtain ⟨h1, h2, h3⟩ := hsp
          exact ret _ st k he hb hk (fun h => ⟨(h1 h).1, hp, by rw [State.returnByte_trace]; have := (h1 h).2; omega⟩) h2 h3 (fun _ => hl)
        · have h2 : x.prim ph ≠ .stop := by cases ph <;> simp [Txn.prim] at hst ⊢
          have h1 : (x.prim ph).pollEnds s.ctrlByte = true := by rw [pollEnds_of_ne_stop h2, hr]
          simp only [Prim.next, h1, if_true, h2, if_false]
          refine ⟨⟨he, hw, true, k, y, hk, hp, hy, hsp, ?_⟩, rfl, by simp⟩
          exact ⟨rfl, hb, fun st h => hst ⟨st, h⟩, hf, c, hc, hl⟩
  | take =>
    obtain ⟨rfl, hb, hst, hf, c, hc, hl⟩ := hat
    left
    replace hp : stopEvents s.trace = P := by
      rw [hp]; cases ph <;> first | rfl | exact absurd rfl (hst _)
    -- what the status byte says
    have status : ∀ (kd : (∃ b, x.prim ph = .writeByte b) ∨ x.prim ph = .start),
        hostStep soa s = .next (hostAfter soa (s.consumeStatus.returnByte (statusByte c.code))) := by
      intro kd
      have hacc : s.host.access = some (.read offStatus) := by
        rw [hh]; simp only [HostControl.access]; rcases kd with ⟨b, h⟩ | h <;> rw [h] <;> rfl
      rw [hostStep, hacc]; simp [access, memRead, regAt, offStatus, andThen, readStatus, hf, hc]
    have hop : ∀ u, u = s.consumeStatus.returnByte (statusByte c.code) → u.en = true ∧ u.busy = .none ∧ u.trace = s.trace ∧ u.link = s.link ∧ u.inputs = s.inputs := by
      rintro u rfl; exact ⟨he, hb, rfl, rfl, rfl⟩
    have kon : (∃ b, x.prim ph = .writeByte b) → hostAfter soa (s.consumeStatus.returnByte (statusByte c.code)) =
        (s.consumeStatus.returnByte (statusByte c.code)).txnMoves x (x.next soa ph (.outcome (outcomeOf (statusByte c.code)))) := by
      rintro ⟨b, h⟩; simp [hostAfter, hh, h, Prim.next, Prim.result]
    have kons : x.prim ph = .start → hostAfter soa (s.consumeStatus.returnByte (statusByte c.code)) =
        (s.consumeStatus.returnByte (statusByte c.code)).txnMoves x (x.next soa ph (.accepted (startAccepted c.code))) := by
      intro h; rw [← statusByte_sok]; simp [hostAfter, hh, h, Prim.next, Prim.result]
    have ins : ∀ (u : State) (n : TxnNext), (u.txnMoves x n).inputs = u.inputs := by intro u n; cases n <;> rfl
    obtain ⟨u, hu⟩ : ∃ u, u = s.consumeStatus.returnByte (statusByte c.code) := ⟨_, rfl⟩
    obtain ⟨hu1, hu2, hu3, hu4, hu5⟩ := hop u hu
    rw [← hu3] at hk hp hy
    replace hp := And.intro hp hy
    rw [← hu4] at hl
    rw [← hu] at kon kons status
    cases ph with
    | startPending =>
      rw [status (.inr rfl), kons rfl]
      refine ⟨_, rfl, ?_, by rw [ins, hu5], by simp⟩
      simp only [Txn.next, ok_accepted]
      simp only [attemptsAt, if_true] at hsp
      by_cases h : startAccepted c.code = true
      · rw [if_pos h]; exact enter u x .addressPending k hu1 hu2 rfl hk hp hsp (hl h)
      · rw [if_neg h]; exact retry u _ k hu1 hu2 (.inl rfl) hk hp hsp.1 ⟨hsp.2.1, by omega⟩
    | addressPending =>
      rw [status (.inl ⟨_, rfl⟩), kon ⟨_, rfl⟩]
      refine ⟨_, rfl, ?_, by rw [ins, hu5], by simp⟩
      simp only [Txn.next, ok_outcome, outcomeOf_statusByte]
      by_cases h : knownGood c.code = true
      · rw [if_pos h]; exact enter u x .offsetPhase k hu1 hu2 rfl hk hp ⟨hsp.1, hsp.2.1⟩ (hl h)
      · rw [if_neg h]; exact retry u _ k hu1 hu2 (.inr rfl) hk hp hsp.1 ⟨hsp.2.1, hsp.2.2⟩
    | offsetPhase =>
      rw [status (.inl ⟨_, rfl⟩), kon ⟨_, rfl⟩]
      refine ⟨_, rfl, ?_, by rw [ins, hu5], by simp⟩
      simp only [Txn.next, ok_outcome, outcomeOf_statusByte]
      obtain ⟨h1, h2⟩ := hsp
      by_cases h : knownGood c.code = true
      · rw [if_pos h]
        unfold Txn.afterOffset
        split
        · rename_i hk'
          refine enter u x .repeatedStart k hu1 hu2 rfl hk hp ⟨?_, h1, h2⟩ trivial
          cases hw' : w with
          | false => rfl
          | true => obtain ⟨src, hs⟩ := hw.1 hw'; rw [hk'] at hs; cases hs
        · exact enter u x _ k hu1 hu2 rfl hk hp ⟨by simp, by omega, fun _ => by omega⟩ trivial
        · exact enter u x _ k hu1 hu2 rfl hk hp ⟨h1, h2⟩ (hl h)
      · rw [if_neg h]; exact abort u _ k hu1 hu2 (by simp) (by simp) (by simp) hk hp (by omega) (fun _ => by omega)
    | repeatedStart =>
      rw [status (.inr rfl), kons rfl]
      refine ⟨_, rfl, ?_, by rw [ins, hu5], by simp⟩
      simp only [Txn.next, ok_accepted]
      simp only [attemptsAt, if_true] at hsp
      obtain ⟨h0, h1, h2⟩ := hsp
      by_cases h : startAccepted c.code = true
      · rw [if_pos h]; exact enter u x _ k hu1 hu2 rfl hk hp ⟨h0, h1, h2⟩ (hl h)
      · rw [if_neg h]; exact abort u _ k hu1 hu2 (by simp) (by simp) (by simp) hk hp (by omega) (fun h => by simp [h0] at h)
    | readAddressPending =>
      rw [status (.inl ⟨_, rfl⟩), kon ⟨_, rfl⟩]
      refine ⟨_, rfl, ?_, by rw [ins, hu5], by simp⟩
      simp only [Txn.next, ok_outcome, outcomeOf_statusByte]
      obtain ⟨h0, h1, h2⟩ := hsp
      by_cases h : knownGood c.code = true
      · rw [if_pos h]
        unfold Txn.afterReadAddress
        split
        · exact enter u x _ k hu1 hu2 rfl hk hp ⟨h0, h1, h2⟩ (fun _ => hl h)
        · exact enter u x _ k hu1 hu2 rfl hk hp ⟨by simp, by omega, fun h => by simp [h0] at h⟩ trivial
      · rw [if_neg h]; exact abort u _ k hu1 hu2 (by simp) (by simp) (by simp) hk hp (by omega) (fun h => by simp [h0] at h)
    | readData left =>
      obtain ⟨h0, h1, h2⟩ := hsp
      have hacc : s.host.access = some (.read offData) := by rw [hh]; rfl
      obtain ⟨v, hv⟩ : ∃ v n, memRead offData s = { s with rdata := v, draws := n } := by
        show ∃ v n, readOr s.data s = _
        unfold readOr; split <;> exact ⟨_, _, rfl⟩
      obtain ⟨n, hv⟩ := hv
      rw [show hostStep soa s = .next (hostAfter soa { s with rdata := v, draws := n }) by rw [hostStep, hacc]; simp [access, andThen, hv]]
      rw [hu3] at hk hp
      rw [hu4] at hl
      cases left with
      | zero =>
        refine ⟨State.setHost { s with rdata := v, draws := n } (.txn { x with destination := x.destination ++ [v] } (.stopping .success) .issue), ?_, ?_, rfl, by simp⟩
        · simp [hostAfter, hh, Txn.prim, Prim.next, Txn.next, State.txnMoves, Prim.result, PrimResult.bytes, Prim.first]
        · exact enter { s with rdata := v, draws := n } { x with destination := x.destination ++ [v] } _ k he hb rfl hk hp ⟨by simp, by omega, fun h => by simp [h0] at h⟩ trivial
      | succ left =>
        refine ⟨State.setHost { s with rdata := v, draws := n } (.txn { x with destination := x.destination ++ [v] } (.readData left) .issue), ?_, ?_, rfl, by simp⟩
        · simp [hostAfter, hh, Txn.prim, Prim.next, Txn.next, State.txnMoves, Prim.result, PrimResult.bytes, Prim.first]
        · exact enter { s with rdata := v, draws := n } { x with destination := x.destination ++ [v] } _ k he hb rfl hk hp ⟨h0, h1, h2⟩ (fun h => hl h (by simp))
    | writeData b rest =>
      rw [status (.inl ⟨_, rfl⟩), kon ⟨_, rfl⟩]
      refine ⟨_, rfl, ?_, by rw [ins, hu5], by simp⟩
      simp only [Txn.next, ok_outcome, outcomeOf_statusByte]
      obtain ⟨h1, h2⟩ := hsp
      by_cases h : knownGood c.code = true
      · rw [if_pos h]
        split
        · exact enter u x _ k hu1 hu2 rfl hk hp ⟨by simp, by omega, fun _ => by omega⟩ trivial
        · exact enter u x _ k hu1 hu2 rfl hk hp ⟨h1, h2⟩ (hl h)
      · rw [if_neg h]; exact abort u _ k hu1 hu2 (by simp) (by simp) (by simp) hk hp (by omega) (fun _ => by omega)
    | stopping st => exact absurd rfl (hst st)

theorem onTrack_setInputs {g w soa : Bool} {S P T : Nat} {s : State} (l : List Input) (h : onTrack g w soa S P T s) : onTrack g w soa S P T (s.setInputs l) := h

/-- No completion step of a transaction is without a meaning. -/
theorem onTrack_complete_not_refused {g w soa : Bool} {S P T : Nat} {s : State} {env : Env} {r : Refusal} (h : onTrack g w soa S P T s) : complete env s ≠ .refused r := by
  intro hc
  unfold complete at hc
  split at hc <;> try (cases hc)
  rename_i b hb
  unfold completeTx at hc
  split at hc
  · cases hc
  · rename_i hm
    apply hm
    obtain ⟨he, h⟩ := h
    cases hh : s.host with
    | idle => rw [hh] at h; obtain ⟨hb', -⟩ := h; simp [hb] at hb'
    | configure p => rw [hh] at h; exact h.elim
    | prim p q => rw [hh] at h; exact h.elim
    | txn x ph pos =>
      rw [hh] at h
      obtain ⟨hw, done, k, y, hk, hp, hy, hsp, hat⟩ := h
      cases pos with
      | load => obtain ⟨-, hb', -⟩ := hat; simp [hb] at hb'
      | issue => obtain ⟨-, hb', -⟩ := hat; simp [hb] at hb'
      | take => obtain ⟨-, hb', -⟩ := hat; simp [hb] at hb'
      | poll =>
        cases done with
        | true => simp only [engineAt, if_true] at hat; obtain ⟨hb', -⟩ := hat; simp [hb] at hb'
        | false =>
          obtain ⟨hb', -, hl⟩ := hat
          rw [hb] at hb'
          cases ph <;> simp [Txn.prim, Prim.flight] at hb' <;> simp only [linkBefore] at hl <;> rw [hl] <;> rfl

/-- A run of the host and the engine keeps a transaction on track, and is not refused if every receive gets its byte. -/
theorem onTrack_run {g w : Bool} {S P T : Nat} (n : Nat) : ∀ (s : State), onTrack g w Config.stopOnAbort S P T s → OneHost s.inputs →
    (g = true → EnvRxOk s) →
    (∀ t, core.run n s = .next t → onTrack g w Config.stopOnAbort S P T t) ∧ (g = true → ∀ r, core.run n s ≠ .refused r) := by
  induction n with
  | zero => intro s h _ _; exact ⟨fun t ht => by rw [← next_inj.1 ht]; exact h, fun _ r hr => by cases hr⟩
  | succ n ih =>
    intro s h ho hg
    have flt : ∀ f, step s = .fault f → (∀ t, core.run (n+1) s = .next t → onTrack g w Config.stopOnAbort S P T t) ∧ (g = true → ∀ r, core.run (n+1) s ≠ .refused r) := by
      intro f hf; rw [run_fault hf]; exact ⟨fun t ht => (by cases ht), fun _ r hr => by cases hr⟩
    cases hi : s.inputs with
    | nil => exact flt .stuckNoInput (by simp [step, hi])
    | cons i rest =>
      have hstep : step s = apply i (s.setInputs rest) := by simp [step, hi]
      have h' := onTrack_setInputs rest h
      have ho' : OneHost rest := fun j hj => ho j (by rw [hi]; exact List.mem_cons_of_mem _ hj)
      rcases ho i (by rw [hi]; exact List.mem_cons_self ..) with rfl | ⟨env, rfl⟩
      · rcases onTrack_host h' with ⟨t, ht, htr, hin, -⟩ | ⟨rfl, r, hr⟩ | ⟨-, hf⟩
        · have : t.inputs = rest := hin
          rw [run_next (hstep.trans ht)]
          exact ih t htr (by rw [this]; exact ho') (fun h => envRxOk_step (hg h) (hstep.trans ht))
        · rw [run_refused (hstep.trans hr)]
          exact ⟨fun t ht => (by cases ht), fun h => by cases h⟩
        · exact flt _ (hstep.trans hf)
      · cases hc : complete env (s.setInputs rest) with
        | next t =>
          have hin : t.inputs = rest := (complete_host hc).1
          have := onTrack_complete h' (fun h k hk => hg h 0 s env rest k rfl hi hk) hc
          rw [run_next (hstep.trans hc)]
          exact ih t this (by rw [hin]; exact ho') (fun h => envRxOk_step (hg h) (hstep.trans hc))
        | fault f => exact flt f (hstep.trans hc)
        | refused f => exact absurd hc (onTrack_complete_not_refused h')

end Sys2Proof.Machine
end

