-- ==== Sys2Proof/Tests/Fixtures.lean ====
section
/-! SUPPORT. Small states and readers for the tests, and the simulated slave of `95_test_vectors.md` section 2, an instance of
the environment oracle, "not part of the engine" (D35): it answers the completion step of the command in flight. -/

namespace Sys2Proof.Tests

open Sys2Proof.Machine

/-! ## States and readers -/

/-- An enabled engine at `l` with nothing in flight. -/
def ready (l : Link) : State := { State.reset with en := true, link := l }

/-- An enabled engine at `l` with a byte in DATA. -/
def loaded (l : Link) (b : Byte) : State := { ready l with data := some b }

/-- An enabled engine at `l` with `b` in flight. -/
def flying (l : Link) (b : Busy) : State := { ready l with busy := b }

/-- An enabled engine at `l` that has just reported `c`. -/
def reported (l : Link) (c : BusStatus) : State := { ready l with code := some c, rdy := true, fresh := true }

/-- The state after a next, if there is one. -/
def nextOf (r : Result) : Option State :=
  match r with
  | .next s => some s
  | .fault _ => none
  | .refused _ => none

/-- A field of the state after a next. -/
def after (f : State → α) (r : Result) : Option α := (nextOf r).map f

/-- The reason of a refusal. -/
def refusalOf (r : Result) : Option Refusal :=
  match r with
  | .next _ => none
  | .fault _ => none
  | .refused r => some r

/-- The step that completes the command in flight. -/
def completes (s : State) (e : Env) : Result := step (s.given (.complete e))

/-- The step in which a host writes `v` at `off`. -/
def writes (s : State) (off : Offset) (v : Byte) : Result := step (s.given (.access (.write off v)))

/-- The step in which a host reads at `off`. -/
def reads (s : State) (off : Offset) : Result := step (s.given (.access (.read off)))

/-! ## The environment -/

/-- Nothing went wrong on the bus; an acknowledge or not, and a byte for a receive. -/
def goodBus (ack : Bool) (d : Byte) : Env := { busFault := false, arbLost := false, ack := ack, data := d }

/-- Another master has the bus. -/
def collides : Env := { busFault := false, arbLost := true, ack := false, data := 0#8 }

/-- A bus fault. -/
def faults : Env := { busFault := true, arbLost := false, ack := false, data := 0#8 }

/-- The phases of the reference slave. -/
inductive SlavePhase where
  | off
  | awaitAddr
  | awaitOffset
  | writing
  | sending
  | deaf
deriving DecidableEq, Repr

/-- `RefSlave(A, M)`: address, register array (as many bytes as listed, zero beyond), pointer, phase. -/
structure RefSlave where
  address : SlaveAddr
  registers : List Byte
  pointer : Byte
  phase : SlavePhase
deriving DecidableEq, Repr

/-- The register the pointer names. -/
def RefSlave.register (r : RefSlave) : Byte := r.registers.getD r.pointer.toNat 0#8

/-- The answer to a transmitted byte, by phase. -/
def RefSlave.onTx (r : RefSlave) (b : Byte) : Bool × RefSlave :=
  match r.phase with
  | .awaitAddr =>
    if b.extractLsb' 1 7 = r.address then
      (true, { r with phase := if b.getLsbD 0 then .sending else .awaitOffset })
    else (false, { r with phase := .deaf })
  | .awaitOffset => (true, { r with pointer := b, phase := .writing })
  | .writing => (true, { r with registers := r.registers.set r.pointer.toNat b, pointer := r.pointer + 1#8 })
  | .off => (false, r)
  | .sending => (false, r)
  | .deaf => (false, r)

/-- The answer to the completion step of the command in flight, and the slave after it. -/
def RefSlave.answer (r : RefSlave) (b : Busy) : Env × RefSlave :=
  match b with
  | .none => (goodBus true 0#8, r)
  | .start => (goodBus true 0#8, { r with phase := .awaitAddr })
  | .tx b => (goodBus (r.onTx b).1 0#8, (r.onTx b).2)
  | .rx k =>
    (goodBus true r.register, { r with pointer := r.pointer + 1#8, phase := if k then r.phase else .deaf })
  | .stop => (goodBus true 0#8, { r with phase := .off })

end Sys2Proof.Tests
end

