-- ==== Sys2Proof/Tests/Slice0.lean ====
section
/-! SUPPORT. The tests: well-formedness, words written out from the encoding, one step each with its expected result taken from
the vectors of `95_test_vectors.md` (named in the comments), and a witness for the hypotheses of each obligation. -/

namespace Sys2Proof.Tests

open Sys2Proof Sys2Proof.Machine

/-! ## Well-formedness (R62) -/

theorem test_start_is_ill_formed_when_bus_is_held : Instr.wellFormed true (.start false) = false := by decide
theorem test_rstart_is_ill_formed_when_bus_is_not_held : Instr.wellFormed false (.rstart true) = false := by decide
theorem test_others_are_well_formed : ∀ held, Instr.wellFormed held (.nop false true) = true ∧
    Instr.wellFormed held (.stop false) = true ∧ Instr.wellFormed held (.tx true) = true ∧
    Instr.wellFormed held (.rxAck false) = true ∧ Instr.wellFormed held (.rxNack false) = true := by decide

/-! ## Decoding: bytes `i e 000 ccc` written out from R61 and R62 -/

theorem test_decode_nop : decode false 0b01000000#8 = .command (.nop false true) := by decide
theorem test_decode_nop_all_off : decodeTableWord 8 0b00000000 = some (.nop false false) := by decide
theorem test_decode_start : decodeTableWord 8 0b01000001 = some (.start false) := by decide
theorem test_decode_rstart : decode true 0b11000001#8 = .command (.rstart true) := by decide
theorem test_decode_stop : decodeTableWord 8 0b01000010 = some (.stop false) := by decide
theorem test_decode_tx : decodeTableWord 8 0b11000011 = some (.tx true) := by decide
theorem test_decode_rxAck : decodeTableWord 8 0b01000100 = some (.rxAck false) := by decide
theorem test_decode_rxNack : decodeTableWord 8 0b11000101 = some (.rxNack true) := by decide
theorem test_decode_zero_field : decode false 0b01001001#8 = .reserved .zeroFieldSet := by decide
theorem test_decode_reserved_opcode : decode false 0b01000110#8 = .reserved .reservedCommand := by decide
/-- V-S15. -/
theorem test_decode_start_without_enable : decode false 0x01#8 = .reserved .busCommandWithoutEnable := by decide

/-- The word the host places is run by the next step. -/
theorem test_fetch_word : step (State.reset.withFetchWord 8 0x40) = exec (.nop false true) State.reset := by rfl

/-! ## One step each -/

/-- V-C3: RD CTRL gives 0xC0, no interrupt. -/
theorem test_nop_enables : after (fun t => (t.ctrlByte, t.irq)) (writes State.reset 0#3 0xC0#8) = some (0xC0#8, false) := by decide
/-- V-C7. -/
theorem test_nop_disable_refused :
    refusalOf (writes (reported .started .startOk) 0#3 0x00#8) = some .disableWhileNotQuiescent := by decide
/-- V-S1. -/
theorem test_start_fresh : after (fun t => (t.code, t.link, t.trace)) (completes (flying .idle .start) (goodBus true 0#8)) =
    some (some .startOk, .started, [.startAttempt .fresh]) := by decide
/-- V-S8. -/
theorem test_start_collides : after (fun t => (t.code, t.link, t.trace)) (completes (flying .mt .start) collides) =
    some (some .arbLost, .idle, [.startAttempt .collision]) := by decide
/-- V-S4. -/
theorem test_rstart : after (fun t => (t.code, t.link, t.trace)) (completes (flying .mr .start) (goodBus true 0#8)) =
    some (some .repeatedStartOk, .started, [.startAttempt .repeated]) := by decide
/-- V-S14. -/
theorem test_rstart_in_flight : refusalOf (writes (flying .mt .start) 0#3 0x41#8) = some .commandInFlight := by decide
/-- V-P4. -/
theorem test_stop_releases : after (fun t => (t.link, t.trace, t.rdy, t.fresh)) (completes (flying .halted .stop) faults) =
    some (.idle, [.stop true], false, false) := by decide
/-- V-P5. -/
theorem test_stop_from_idle : after (fun t => (t.link, t.trace)) (completes (flying .idle .stop) (goodBus true 0#8)) =
    some (.idle, [.stop false]) := by decide
/-- V-T3. -/
theorem test_tx_read_address : after (fun t => (t.code, t.link, t.trace)) (completes (flying .started (.tx 0xD1#8)) (goodBus true 0#8)) =
    some (some .mrSlaAck, .mr, [.tx 0xD1#8 .ack]) := by decide
/-- V-T9: bit 0 of a data byte means nothing. -/
theorem test_tx_data : after (fun t => (t.code, t.link)) (completes (flying .mt (.tx 0xFF#8)) (goodBus true 0#8)) =
    some (some .mtDataAck, .mt) := by decide
/-- V-X1. -/
theorem test_rxAck : after (fun t => (t.data, t.code, t.link, t.trace)) (completes (flying .mr (.rx true)) (goodBus false 0x59#8)) =
    some (some 0x59#8, some .mrDataAck, .mr, [.rx 0x59#8 true .ok]) := by decide
/-- V-X9. -/
theorem test_rxAck_refused : refusalOf (writes (ready .mt) 0#3 0x44#8) = some .noMeaningInLink := by decide
/-- V-X4. -/
theorem test_rxNack : after (fun t => (t.data, t.code, t.link)) (completes (flying .mr (.rx false)) (goodBus false 0xFF#8)) =
    some (some 0xFF#8, some .mrDataNack, .halted) := by decide
/-- V-X14. -/
theorem test_rxNack_in_flight : refusalOf (writes (flying .mr (.rx true)) 0#3 0x45#8) = some .commandInFlight := by decide

/-- V-M10. -/
theorem test_presc_ignores_high_bits : after (fun t => t.ps) (writes State.reset 4#3 0xFF#8) = some (some 3#2) := by decide
/-- V-M17. -/
theorem test_presc_refused : refusalOf (writes (ready .halted) 4#3 0#8) = some .configureWhileNotQuiescent := by decide
/-- V-M15: RD CTRL gives 0x60. -/
theorem test_ctrl_reads : after (fun t => t.rdata) (reads (reported .started .startOk) 0#3) = some 0x60#8 := by decide
/-- The decoder table of section 3.6. -/
theorem test_status_bytes : [BusStatus.busError, .startOk, .repeatedStartOk, .mtSlaAck, .mtSlaNack, .mtDataAck, .mtDataNack,
    .arbLost, .mrSlaAck, .mrSlaNack, .mrDataAck, .mrDataNack].map (fun c => statusByte c.code) =
    [0x01#8, 0x0E#8, 0x16#8, 0x18#8, 0x21#8, 0x28#8, 0x31#8, 0x3A#8, 0x40#8, 0x49#8, 0x52#8, 0x5A#8] := by decide
/-- V-H1, V-H2. -/
theorem test_address_bytes : addrByte 0x68#7 false = 0xD0#8 ∧ addrByte 0x7F#7 true = 0xFF#8 := by decide
/-- V-H4 to V-H6. -/
theorem test_sat_dec : satDec 20 = 19 ∧ satDec 1 = 0 ∧ satDec 0 = 0 := by decide
/-- Section 2: the reference slave acknowledges its own address only. -/
theorem test_ref_slave_address : ((RefSlave.mk 0x68#7 [] 0#8 .awaitAddr).answer (.tx 0xD0#8)).1.ack = true ∧
    ((RefSlave.mk 0x68#7 [] 0#8 .awaitAddr).answer (.tx 0xA0#8)).1.ack = false := by decide

/-! ## Witnesses: a state and operands that meet the hypotheses of each obligation -/

theorem witness_DecodeAndEncodeAgree : decode true 0xC1#8 = .command (.rstart true) ∧ (Instr.rstart true).wellFormed true = true := by
  decide

theorem witness_ReservedCtrlWritesAreRefused :
    -- every clause of the reservation at its ends, and the writes next to them
    (0x08#8).extractLsb' 3 3 ≠ 0#3 ∧ (0x78#8).extractLsb' 3 3 ≠ 0#3 ∧ (0x46#8).extractLsb' 0 3 = 6#3 ∧
    (0x47#8).extractLsb' 0 3 = 7#3 ∧ ((0x01#8).extractLsb' 0 3).toNat = 1 ∧ (0x01#8).getLsbD 6 = false ∧
    ((0x05#8).extractLsb' 0 3).toNat = 5 ∧ (0x05#8).getLsbD 6 = false ∧
    decode (ready .idle).holdsBus 0x00#8 = .command (.nop false false) ∧
    decode (ready .idle).holdsBus 0x45#8 = .command (.rxNack false) := by decide

theorem witness_StepRunsDecodedCommand :
    decode { ready .mt with host := .prim .start .issue }.holdsBus 0x41#8 = .command (.rstart false) ∧
    { ready .mt with host := .prim .start .issue }.host.access = some (.write offCtrl 0x41#8) := by decide

theorem witness_NopWritesEnableAndInterruptEnable :
    (ready .mt).en = true ∧ State.reset.en = false ∧ ((ready .idle).busy = .none ∧ (ready .idle).link = .idle) ∧
    (flying .idle .stop).busy ≠ .none ∧ (ready .halted).link ≠ .idle := by decide

theorem witness_StartGoesInFlight : (ready .unknown).en = true ∧ (ready .unknown).busy = .none := by decide

theorem witness_StopGoesInFlight : (ready .idle).en = true ∧ (ready .idle).busy = .none := by decide

theorem witness_TransmitCapturesData : ∀ l ∈ [Link.started, .mt, .idle, .mr, .halted, .unknown],
    (loaded l 0xFF#8).en = true ∧ (loaded l 0xFF#8).busy = .none ∧ (loaded l 0xFF#8).data = some 0xFF#8 ∧
    (loaded l 0xFF#8).link = l := by decide

theorem witness_ReceivesGoInFlight : (ready .mr).en = true ∧ (ready .mr).busy = .none ∧ (ready .mr).link = .mr ∧
    (ready .mt).link ≠ .mr := by decide

theorem witness_BusCommandAcceptance : (∀ ie en, Instr.tx true ≠ .nop ie en) ∧ State.reset.en = false ∧
    (flying .mt .stop).busy ≠ .none ∧ ¬((ready .mr).link = .started ∨ (ready .mr).link = .mt) ∧
    (ready .started).data = none ∧ (loaded .started 0#8).data ≠ none := by decide

/-- An enabled engine with every readable register holding a value. -/
def configured : State := { loaded .mt 0#8 with div := some 0x20#8, ps := some 3#2 }

theorem witness_CommandWriteFrame :
    (∃ t, exec (.nop true false) (ready .idle) = .next t ∧ (ready .idle).en = true) ∧
    (∃ t, exec (.nop true true) configured = .next t ∧ true = configured.en) ∧
    (∃ t, exec (.tx true) configured = .next t ∧ ∀ ie en, Instr.tx true ≠ .nop ie en) ∧
    configured.data ≠ none ∧ configured.div ≠ none ∧ configured.ps ≠ none :=
  ⟨⟨_, rfl, rfl⟩, ⟨_, rfl, rfl⟩, ⟨_, rfl, nofun⟩, nofun, nofun, nofun⟩

theorem witness_AcceptedStartIsFreshOrRepeated : (flying .idle .start).busy = .start ∧ (goodBus false 0#8).startAnswer = .accept ∧
    (flying .idle .start).link = .idle ∧ (flying .started .start).link = .started ∧ (flying .mt .start).link = .mt ∧
    (flying .mr .start).link = .mr ∧ (flying .halted .start).link = .halted := by decide

theorem witness_FailedStartReports : (flying .unknown .start).busy = .start ∧ collides.startAnswer = .collide ∧
    faults.startAnswer = .error := by decide

theorem witness_StartFromUnknownReportsEither : (flying .unknown .start).busy = .start ∧
    (goodBus true 0#8).startAnswer = .accept ∧ (flying .unknown .start).link = .unknown := by decide

theorem witness_AddressByteReports : (flying .started (.tx 0xFE#8)).busy = .tx 0xFE#8 ∧
    (flying .started (.tx 0xFE#8)).link = .started ∧ (0xFE#8).getLsbD 0 = false ∧ (0x01#8).getLsbD 0 = true ∧
    (flying .started (.tx 0x01#8)).busy = .tx 0x01#8 ∧ (goodBus true 0#8).txAnswer = .ack ∧
    (goodBus false 0#8).txAnswer = .nack := by decide

theorem witness_DataByteReports : (flying .mt (.tx 0x01#8)).busy = .tx 0x01#8 ∧ (flying .mt (.tx 0x01#8)).link = .mt ∧
    (goodBus true 0#8).txAnswer = .ack ∧ (goodBus false 0#8).txAnswer = .nack := by decide

theorem witness_FailedTransmitReports : (flying .mt (.tx 0x01#8)).busy = .tx 0x01#8 ∧ (flying .mt (.tx 0x01#8)).link = .mt ∧
    (flying .started (.tx 0x01#8)).link = .started ∧ collides.txAnswer = .lost ∧ faults.txAnswer = .error := by decide

theorem witness_ReceivedByteLandsInData : (goodBus false 0xFF#8).rxAnswer = .ok 0xFF#8 ∧ (flying .mr (.rx true)).busy = .rx true ∧
    (flying .mr (.rx false)).busy = .rx false := by decide

theorem witness_FailedReceiveReports : (flying .mr (.rx true)).busy = .rx true ∧ collides.rxAnswer = .lost ∧
    faults.rxAnswer = .error := by decide

theorem witness_StopCompletes : (flying .unknown .stop).busy = .stop ∧ (flying .unknown .stop).link ≠ .idle ∧
    (flying .idle .stop).link = .idle := by decide

theorem witness_StopReportsNoStatus : ∃ t, exec (.stop true) (reported .halted .mtDataNack) = .next t := ⟨_, rfl⟩

theorem witness_CompletionPublishesAtOnce : (∃ t, completes (flying .mr (.rx true)) (goodBus true 1#8) = .next t) ∧
    (∃ t, completes (flying .mt .stop) faults = .next t) := ⟨⟨_, rfl⟩, ⟨_, rfl⟩⟩

theorem witness_EveryCommandCanComplete : (flying .mr (.rx true)).busy ≠ .none ∧ Busy.legal (flying .mr (.rx true)) ∧
    Busy.legal { loaded .started 0xD0#8 with busy := .tx 0xD0#8 } ∧ (ready .mr).busy = .none :=
  ⟨by decide, rfl, ⟨rfl, rfl⟩, rfl⟩

theorem witness_CausesReportByPrecedence : faults.busFault = true ∧ (collides.busFault = false ∧ collides.arbLost = true) ∧
    ((goodBus true 0#8).busFault = false ∧ (goodBus true 0#8).arbLost = false ∧ (goodBus true 0#8).ack = true) ∧
    (goodBus false 0#8).ack = false := by decide

theorem witness_RegisterReads : (reported .idle .arbLost).fresh = true ∧ (reported .idle .arbLost).code = some .arbLost ∧
    (ready .idle).fresh = false ∧ (loaded .idle 0xA5#8).data = some 0xA5#8 ∧ State.reset.data = none ∧
    ({ State.reset with div := some 0x20#8 } : State).div = some 0x20#8 ∧ State.reset.div = none ∧
    ({ State.reset with ps := some 3#2 } : State).ps = some 3#2 ∧ State.reset.ps = none ∧
    5 ≤ (5#3).toNat ∧ 5 ≤ (7#3).toNat ∧ ¬5 ≤ (4#3).toNat := by decide

theorem witness_RegisterWrites : State.reset.busy = .none ∧ State.reset.link = .idle ∧ (flying .mt .start).busy ≠ .none ∧
    (ready .halted).link ≠ .idle ∧ 5 ≤ (5#3).toNat ∧ 5 ≤ (7#3).toNat := by decide

theorem witness_WrittenRegistersReadBack : State.reset.busy = .none ∧ State.reset.link = .idle := by decide

theorem witness_StatusIsReadOnce : (reported .mt .mtDataAck).fresh = true ∧
    (reported .mt .mtDataAck).code = some .mtDataAck := by decide

theorem witness_StatusDecoderBits : (reported .unknown .busError).fresh = true ∧
    (reported .unknown .busError).code = some .busError ∧ ∃ t, reads (reported .unknown .busError) 1#3 = .next t :=
  ⟨rfl, rfl, ⟨_, rfl⟩⟩

theorem witness_UnassignedCodesAreUnexpected : 12 ≤ (0b01100#5).toNat ∧ 12 ≤ (0b11111#5).toNat := by decide

theorem witness_EngineInvariantKept : (flying .idle .start).EngineInv ∧
    ∃ t, completes (flying .idle .start) (goodBus true 0#8) = .next t :=
  ⟨⟨⟨nofun, nofun, nofun⟩, trivial, rfl⟩, ⟨_, rfl⟩⟩

theorem witness_ReadyIsSetByCompletionOnly :
    (∃ t, completes (flying .idle .start) collides = .next t ∧ (flying .idle .start).rdy = false ∧ t.rdy = true) ∧
    (∃ t, writes (reported .started .startOk) 0#3 0x42#8 = .next t ∧ (reported .started .startOk).rdy = true ∧ t.rdy = false) ∧
    (∃ t, writes (reported .idle .arbLost) 0#3 0x00#8 = .next t ∧ (reported .idle .arbLost).rdy = true ∧ t.rdy = false) ∧
    (∃ t, step ((reported .mr .mrDataAck).given .reset) = .next t ∧ (reported .mr .mrDataAck).rdy = true ∧ t.rdy = false) :=
  ⟨⟨_, rfl, rfl, rfl⟩, ⟨_, rfl, rfl, rfl⟩, ⟨_, rfl, rfl, rfl⟩, ⟨_, rfl, rfl, rfl⟩⟩

theorem witness_CommandSlotAdvancesOneWay :
    (∃ t, completes (flying .mt .stop) faults = .next t ∧ (flying .mt .stop).busy ≠ .none ∧ t.busy = .none) ∧
    (∃ t, reads (flying .mt .stop) 0#3 = .next t ∧ t.busy = .stop) ∧
    ∀ rest, ((flying .mt .stop).given (.complete faults)).inputs ≠ .reset :: rest :=
  ⟨⟨_, rfl, nofun, rfl⟩, ⟨_, rfl, rfl⟩, nofun⟩

theorem witness_ConfigurationChangesOnlyWhenQuiescent :
    (∃ t, writes State.reset 3#3 1#8 = .next t ∧ t.div ≠ State.reset.div) ∧
    (∃ t, writes State.reset 4#3 1#8 = .next t ∧ t.ps ≠ State.reset.ps) ∧
    (∃ t, writes (ready .idle) 0#3 0x80#8 = .next t ∧ (ready .idle).en = true ∧ t.en = false) ∧
    ∀ rest, (State.reset.given (.access (.write 3#3 1#8))).inputs ≠ .reset :: rest :=
  ⟨⟨_, rfl, nofun⟩, ⟨_, rfl, nofun⟩, ⟨_, rfl, rfl, rfl⟩, nofun⟩

theorem witness_InterruptFollowsReady :
    (∃ t, completes { flying .idle .start with ie := true } faults = .next t ∧ (flying .idle .start).busy ≠ .stop) ∧
    (∃ t, completes { flying .idle .stop with ie := true } faults = .next t) ∧
    (∃ t, exec (.tx true) (loaded .mt 0#8) = .next t) :=
  ⟨⟨_, rfl, nofun⟩, ⟨_, rfl⟩, ⟨_, rfl⟩⟩

theorem witness_PrimitiveListings : (0x50#8).getLsbD 4 = true ∧ (0x40#8).getLsbD 4 = false ∧ (0x18#8).extractLsb' 0 2 = 0b00#2 ∧
    (0x21#8).extractLsb' 0 2 = 0b01#2 ∧ (0x3A#8).getLsbD 1 = true ∧ (0x60#8).getLsbD 5 = true ∧ (0x40#8).getLsbD 5 = false ∧
    Prim.start ≠ .stop := by decide

theorem witness_ConfigureProgramsAndEnables :
    ({ State.reset with inputs := [.call (.configure 8000000 (some 200000)), .host, .host, .host] } : State).inputs =
      .call (.configure 8000000 (some 200000)) :: .host :: .host :: .host :: [] ∧
    State.reset.host = .idle ∧ State.reset.busy = .none ∧ State.reset.link = .idle := by decide

theorem witness_ConfigureIsIdempotent :
    ({ State.reset with inputs := [.call (.configure 8000000 none), .host, .host, .host, .call (.configure 8000000 none),
      .host, .host, .host] } : State).inputs =
      [.call (.configure 8000000 none), .host, .host, .host, .call (.configure 8000000 none), .host, .host, .host] ++ [] ∧
    State.reset.host = .idle ∧ State.reset.busy = .none ∧ State.reset.link = .idle := by decide

/-- A transaction that writes two bytes to the slave 0x68. -/
def someTxn : Txn := ⟨.write [0xAB#8, 0xCD#8], 0x68#7, 0x10#8, [], 20⟩

theorem witness_StalledTransmitWaits :
    let s : State := { flying .mt (.tx 0x10#8) with host := .txn someTxn .offsetPhase .poll, inputs := [.host, .host] }
    s.busy = .tx 0x10#8 ∧ s.rdy = false ∧ s.host = .txn someTxn .offsetPhase .poll ∧
    someTxn.prim .offsetPhase = .writeByte 0x10#8 ∧ s.inputs = List.replicate 2 .host ++ [] := by decide

theorem witness_ZeroBytesTouchNothing : State.reset.host = .idle := by decide

theorem witness_TransactionArgumentDomains : State.reset.host = .idle ∧ 1#8 ≠ 0#8 ∧ 127 < 128 ∧ 127 ≤ 127 ∧
    254 < (255#8).toNat ∧ (255#8).toNat ≤ 255 ∧ ([] : List Byte).length < (1#8).toNat ∧
    (1#8).toNat ≤ [0xAB#8].length := by decide

theorem witness_AcquisitionSpendsOneBudget : TxOutcome.unexpected ≠ .acked ∧ TxOutcome.rejected ≠ .acked ∧
    1 < { someTxn with budget := 2 }.budget ∧ { someTxn with budget := 1 }.budget ≤ 1 := by decide

theorem witness_LaterRejectionsAbort : TxOutcome.unexpected ≠ .acked ∧ TxOutcome.rejected ≠ .acked := by decide

theorem witness_ReadAcknowledgesAllButTheLast : { someTxn with kind := .read (0 + 1) }.kind = .read (0 + 1) := by decide

theorem witness_WriteSendsSourceInOrder : someTxn.kind = .write (0xAB#8 :: [0xCD#8]) := by decide

theorem witness_BudgetInvariantKept :
    { ready .idle with host := .txn { someTxn with budget := 1 } .startPending .issue }.host.budgetOk ∧
    ∃ t, step ({ ready .idle with host := .txn { someTxn with budget := 1 } .startPending .issue }.given .host) = .next t :=
  ⟨⟨by decide, Nat.zero_lt_one⟩, ⟨_, rfl⟩⟩

/-- A call that a transaction can be made of, and a machine that is ready for it with `ins` to come. -/
def someCall : HostCall := .write 0x68 2#8 0x10#8 [0xAB#8, 0xCD#8]

theorem ready_for_some_call (ins : List Input) : State.readyForCall { ready .idle with inputs := ins } ∧
    someCall.TransactionInDomain := ⟨⟨rfl, rfl, rfl⟩, by decide, by decide⟩

/-- Whether an input is the host's or the environment's. -/
def mine (i : Input) : Bool :=
  match i with
  | .host => true
  | .complete _ => true
  | .access _ => false
  | .call _ => false
  | .reset => false

theorem one_host_of_all {ins : List Input} (h : ins.all mine = true) : OneHost ins := by
  intro i hi
  have := List.all_eq_true.1 h i hi
  cases i with
  | host => exact .inl rfl
  | complete env => exact .inr ⟨env, rfl⟩
  | _ => cases this

/-- A read of one byte that goes well, with its call to come. -/
def called : State :=
  State.given { ready .idle with inputs := readSchedule 0 0x68#7 0x0E#8 [0x59#8] } (.call (.read 0x68 1#8 0x0E#8 1))

theorem env_rx_ok_of_called : EnvRxOk called := by
  apply envRxOk_of_inputs
  intro env h
  simp [called, State.given, readSchedule, Prim.schedule] at h
  obtain rfl | rfl | rfl := h <;> exact ⟨_, rfl⟩

/-- Every start collides, and the stop completes (R150). -/
def allCollide : List Input :=
  (List.replicate 20 [Input.host, .complete collides, .host, .host]).flatten ++ [.host, .complete collides, .host]

/-- The one run of a test: the budget spent on collisions, to reach the return of an exhaustion. -/
theorem exhausted_run : ∃ t : State,
    core.run 84 (State.given { ready .idle with inputs := allCollide } (.call someCall)) = .next t ∧ t.host = .idle ∧
      t.returned = some (.txn .startExhausted []) := ⟨_, rfl, rfl, rfl⟩

/-- Every clause: runs within a write that reach both phases of the acquisition, and the run in which the budget is spent. -/
theorem witness_AcquisitionMakesAtMostTwentyStarts :
    let ins := [Input.host, .complete (goodBus true 0#8), .host, .host]
    (State.readyForCall { ready .idle with inputs := ins } ∧ someCall.TransactionInDomain ∧ OneHost ins ∧
      (∃ t x, core.run 2 (State.given { ready .idle with inputs := ins } (.call someCall)) = .next t ∧
        t.host = .txn x .startPending .poll) ∧
      (∃ t x, core.run 5 (State.given { ready .idle with inputs := ins } (.call someCall)) = .next t ∧
        t.host = .txn x .addressPending .load) ∧
      ∃ a k r src, someCall = .write a k r src) ∧
    OneHost allCollide ∧
    ∃ t : State, core.run 84 (State.given { ready .idle with inputs := allCollide } (.call someCall)) = .next t ∧ t.host = .idle ∧
      t.returned = some (.txn .startExhausted []) :=
  ⟨⟨(ready_for_some_call _).1, (ready_for_some_call []).2, one_host_of_all rfl, ⟨_, _, rfl, rfl⟩, ⟨_, _, rfl, rfl⟩,
    ⟨_, _, _, _, rfl⟩⟩, one_host_of_all rfl, exhausted_run⟩

/-- The hypotheses about a call, met by the read. -/
theorem called_hypotheses :
    let s : State := { ready .idle with inputs := readSchedule 0 0x68#7 0x0E#8 [0x59#8] }
    s.readyForCall ∧ HostCall.TransactionInDomain (.read 0x68 1#8 0x0E#8 1) ∧ OneHost s.inputs ∧
    s.given (.call (.read 0x68 1#8 0x0E#8 1)) = called ∧ EnvRxOk called :=
  ⟨⟨rfl, rfl, rfl⟩, ⟨by decide, by decide⟩, one_host_of_all rfl, rfl, env_rx_ok_of_called⟩

theorem witness_TransactionsAreNeverRefused :
    let s : State := { ready .idle with inputs := readSchedule 0 0x68#7 0x0E#8 [0x59#8] }
    s.readyForCall ∧ HostCall.TransactionInDomain (.read 0x68 1#8 0x0E#8 1) ∧ OneHost s.inputs ∧
    s.given (.call (.read 0x68 1#8 0x0E#8 1)) = called ∧ EnvRxOk called := called_hypotheses

theorem witness_ReturnLeavesBusReleased :
    (State.readyForCall { ready .idle with inputs := allCollide } ∧ someCall.TransactionInDomain ∧ OneHost allCollide ∧
      ¬someCall.ofZeroBytes ∧ 0 < 84 ∧
      ∃ t : State, core.run 84 (State.given { ready .idle with inputs := allCollide } (.call someCall)) = .next t ∧
        t.host = .idle ∧ t.returned = some (.txn .startExhausted [])) ∧
    (State.readyForCall (ready .halted) ∧ HostCall.TransactionInDomain (.read 127 0#8 0#8 0) ∧ OneHost (ready .halted).inputs ∧
      HostCall.ofZeroBytes (.read 127 0#8 0#8 0) ∧
      ∃ t, core.run 1 ((ready .halted).given (.call (.read 127 0#8 0#8 0))) = .next t ∧ t.host = .idle) :=
  ⟨⟨(ready_for_some_call _).1, (ready_for_some_call []).2, one_host_of_all rfl, (by decide : ¬2#8 = 0#8), by decide, exhausted_run⟩,
    ⟨rfl, rfl, rfl⟩, ⟨by decide, by decide⟩, one_host_of_all rfl, rfl, _, rfl, rfl⟩

theorem witness_RejectedOffsetLeavesBusAsItIs :
    let s : State := { flying .mt (.tx 0x10#8) with
      host := .txn someTxn .offsetPhase .poll, inputs := [.complete (goodBus false 0#8), .host, .host] }
    s.host = .txn someTxn .offsetPhase .poll ∧ s.busy = .tx someTxn.deviceRegister ∧ s.link = .mt ∧
    s.inputs = [.complete (goodBus false 0#8), .host, .host] ++ [] ∧ (goodBus false 0#8).txAnswer ≠ .ack ∧
    (goodBus false 0#8).txAnswer = .nack ∧ collides.txAnswer = .lost ∧ faults.txAnswer = .error := by decide

theorem witness_ReadDeliversTheBytes :
    let schedule := Input.call (.read 127 1#8 0x0E#8 1) :: readSchedule 1 (BitVec.ofNat 7 127) 0x0E#8 [0x59#8]
    let s : State := { ready .halted with inputs := schedule ++ [] }
    s.readyForCall ∧ s.link ≠ .unknown ∧ 127 ≤ 127 ∧ [0x59#8].length = (1#8).toNat ∧ 0 < (1#8).toNat ∧ (1#8).toNat ≤ 1 ∧
    s.inputs = schedule ++ [] :=
  ⟨⟨rfl, rfl, rfl⟩, nofun, by decide, rfl, by decide, by decide, rfl⟩

theorem witness_WriteDeliversTheBytes :
    let schedule := Input.call (.write 0 2#8 0x10#8 [0xAB#8, 0xCD#8]) ::
      writeSchedule 0 (BitVec.ofNat 7 0) 0x10#8 [0xAB#8, 0xCD#8]
    let s : State := { ready .idle with inputs := schedule ++ [] }
    s.readyForCall ∧ s.link ≠ .unknown ∧ 0 ≤ 127 ∧ 0 < (2#8).toNat ∧ (2#8).toNat ≤ [0xAB#8, 0xCD#8].length ∧
    [0xAB#8, 0xCD#8].take (2#8).toNat = [0xAB#8, 0xCD#8] ∧ s.inputs = schedule ++ [] :=
  ⟨⟨rfl, rfl, rfl⟩, nofun, by decide, by decide, by decide, rfl, rfl⟩

theorem witness_TransactionsCanAlwaysReturn :
    let s : State := { ready .idle with inputs := readSchedule 0 0x68#7 0x0E#8 [0x59#8] }
    (s.readyForCall ∧ HostCall.TransactionInDomain (.read 0x68 1#8 0x0E#8 1) ∧ OneHost s.inputs ∧
      s.given (.call (.read 0x68 1#8 0x0E#8 1)) = called ∧ EnvRxOk called) ∧
    0 < 2 ∧ (∃ u, core.run 2 called = .next u) ∧ Oracle.rxOk fun _ _ => goodBus true 0#8 :=
  ⟨called_hypotheses, by decide, ⟨_, rfl⟩, fun _ _ => ⟨0#8, rfl⟩⟩

/-- A call of `stop()` that is answered, and after its return calls for no bytes without end. -/
def liveFeed : Nat → Input
  | 0 => .call (.prim .stop)
  | 1 => .host
  | 2 => .complete (goodBus true 0#8)
  | 3 => .host
  | _ + 4 => .call (.read 0 0#8 0#8 0)

/-- Its run from an enabled engine. -/
def liveRun : Nat → State
  | 0 => ready .halted
  | n + 1 => (nextOf (step ((liveRun n).given (liveFeed n)))).getD State.reset

theorem liveRun_settles (n : Nat) : liveRun (n + 5) = liveRun 5 := by
  induction n with
  | zero => rfl
  | succ n ih =>
    show (nextOf (step ((liveRun (n + 5)).given (.call (.read 0 0#8 0#8 0))))).getD State.reset = _
    rw [ih]; rfl

theorem witness_CallsReturnIfEnvironmentIsLive :
    EndlessRun liveFeed liveRun ∧ OneHostFeed liveFeed ∧ EnvLive liveFeed liveRun ∧ liveFeed 0 = .call (.prim .stop) := by
  refine ⟨fun n => ?_, fun n => ?_, fun n hb => ?_, rfl⟩
  · match n with
    | 0 => rfl
    | 1 => rfl
    | 2 => rfl
    | 3 => rfl
    | 4 => rfl
    | n + 5 =>
      rw [liveRun_settles n, show n + 5 + 1 = (n + 1) + 5 from rfl, liveRun_settles (n + 1)]
      rfl
  · match n with
    | 0 => exact .inr (.inr ⟨_, rfl⟩)
    | 1 => exact .inl rfl
    | 2 => exact .inr (.inl ⟨_, rfl⟩)
    | 3 => exact .inl rfl
    | n + 4 => exact .inr (.inr ⟨_, rfl⟩)
  · match n with
    | 0 => exact absurd rfl hb
    | 1 => exact absurd rfl hb
    | 2 => exact ⟨2, Nat.le_refl _, .inl ⟨_, rfl⟩⟩
    | 3 => exact absurd rfl hb
    | 4 => exact absurd rfl hb
    | n + 5 => rw [liveRun_settles] at hb; exact absurd rfl hb

theorem witness_UnansweredCommandIsPolledForEver :
    let s : State := { flying .mt (.tx 0x10#8) with host := .txn someTxn .offsetPhase .poll }
    let u : State := { flying .idle .stop with host := .prim .stop .poll }
    (s.host = .txn someTxn .offsetPhase .poll ∧ someTxn.prim .offsetPhase = .writeByte 0x10#8 ∧ Prim.writeByte 0x10#8 ≠ .stop ∧
      s.rdy = false) ∧ u.host = .prim .stop .poll ∧ u.busy = .stop := by decide

end Sys2Proof.Tests
end

section
/-! A transaction that has returned (R197, R154, R150): `onTrack` at an idle host says what holds then, and a call for no bytes
leaves nothing for the host or the engine to do (R149). -/

namespace Sys2Proof.Machine

/-- With no call and no command in flight neither the host's program nor the engine has a step (R8): a run goes nowhere. -/
theorem run_eq_self_of_idle {n : Nat} {s t : State} (hh : s.host = .idle) (hb : s.busy = .none) (ho : OneHost s.inputs)
    (h : core.run n s = .next t) : t = s := by
  cases n with
  | zero => exact (next_inj.1 h).symm
  | succ n =>
    obtain ⟨f, hf⟩ : ∃ f, step s = .fault f := by
      cases hi : s.inputs with
      | nil => exact ⟨.stuckNoInput, by simp [step, hi]⟩
      | cons i rest =>
        rw [step_cons hi]
        rcases ho i (by simp [hi]) with rfl | ⟨env, rfl⟩
        · exact ⟨.stuckHost, by simp [apply, hostStep, hh, HostControl.access]⟩
        · exact ⟨.stuckEngine, by simp [apply, complete, hb]⟩
    rw [run_fault hf] at h
    cases h

/-- The host in no call and the slot empty is all of a well-ended run (R9, R17). -/
theorem endedWell_of_idle {s : State} (hh : s.host = .idle) (hb : s.busy = .none) : s.endedWell :=
  ⟨hh, hb, by simp [State.sto, hb]⟩

/-- What `onTrack` says of a host that is in no call: its transaction has returned. -/
theorem onTrack_afterTxn {g w soa : Bool} {S P T : Nat} {s : State} (h : onTrack g w soa S P T s) (hh : s.host = .idle) :
    afterTxn w soa S P T s := by
  obtain ⟨-, h⟩ := h
  rwa [hh] at h

/-- Settles O53: a call for no bytes has returned in its own step, and any other call is on track until it has. -/
theorem returnLeavesBusReleased : Obligations.ReturnLeavesBusReleased := by
  intro s t c n hready hdom hone hn hrun hidle
  obtain ⟨n, rfl⟩ := Nat.exists_eq_succ_of_ne_zero hn.ne'
  obtain ⟨u, hcall, hinputs, hu⟩ := onTrack_call false Config.stopOnAbort hready hdom
  have hstep : step (s.given (.call c)) = .next u := hcall
  rw [run_next hstep] at hrun
  have hone' : OneHost u.inputs := hinputs ▸ hone
  rcases hu with ⟨hpos, htrack⟩ | ⟨hzero, rfl⟩
  · have htrack' := (onTrack_run n u htrack hone' nofun).1 t hrun
    obtain ⟨hbusy, st, d, -, hret, -, -, -, -, hlink⟩ := onTrack_afterTxn htrack' hidle
    exact ⟨endedWell_of_idle hidle hbusy, st, d, hret, fun hzero => absurd hzero hpos, fun _ => hlink⟩
  · obtain ⟨-, -, hbusy⟩ := hready
    obtain rfl := run_eq_self_of_idle (s := s.hostReturns _) rfl hbusy hone' hrun
    exact ⟨endedWell_of_idle rfl hbusy, .success, [], rfl, fun _ => ⟨rfl, rfl⟩, fun hpos => absurd hzero hpos⟩

end Sys2Proof.Machine
end

section
/-! A live environment (R198): a step brings a call nearer to its end unless it polls in vain (`step_inCall`), and a command in
flight can be polled in vain only until its completion comes. So the call returns, by induction on `State.remaining` and, within
one value of it, on the distance to the completion. -/

namespace Sys2Proof.Machine

/-- The call `c` returns at or after point `m` of an infinite run, and the host is in a call from `m` until then. -/
def returnsFrom (c : HostCall) (run : Nat → State) (m : Nat) : Prop :=
  ∃ n, m ≤ n ∧ hasReturned c (run n) ∧ ∀ j, m ≤ j → j < n → (run j).host ≠ .idle

theorem returnsFrom_of_hasReturned {c : HostCall} {run : Nat → State} {m : Nat} (h : hasReturned c (run m)) :
    returnsFrom c run m :=
  ⟨m, Nat.le_refl m, h, fun j hmj hjm => by omega⟩

theorem returnsFrom_of_succ {c : HostCall} {run : Nat → State} {m : Nat} (hc : inCall c (run m))
    (h : returnsFrom c run (m + 1)) : returnsFrom c run m := by
  obtain ⟨n, hmn, hret, hbusy⟩ := h
  refine ⟨n, by omega, hret, fun j hmj hjn => ?_⟩
  rcases Nat.eq_or_lt_of_le hmj with rfl | hlt
  · exact inCall_ne_idle hc
  · exact hbusy j hlt hjn

/-- A command in flight in a live environment is completed later: one host makes no reset. -/
theorem completion_of_envLive {feed : Nat → Input} {run : Nat → State} (hone : OneHostFeed feed) (hlive : EnvLive feed run)
    {m : Nat} (hbusy : (run m).busy ≠ .none) : ∃ d env, feed (m + d) = .complete env := by
  obtain ⟨m', hle, ⟨env, henv⟩ | hreset⟩ := hlive m hbusy
  · exact ⟨m' - m, env, by rwa [Nat.add_sub_cancel' hle]⟩
  · rcases hone m' with h | ⟨env, h⟩ | ⟨d, h⟩ <;> rw [hreset] at h <;> cases h

section
variable {feed : Nat → Input} {run : Nat → State} {c : HostCall}
variable (hrun : EndlessRun feed run) (hone : OneHostFeed feed)
include hrun hone

/-- One step of a call in an infinite run: the call returns if it does so once it is nearer to its end, and if it does so after a
poll in vain. -/
theorem returnsFrom_of_step {m : Nat} (hc : inCall c (run m))
    (nearer : ∀ m', inCall c (run m') → (run m').remaining < (run m).remaining → returnsFrom c run m')
    (polled : inCall c (run (m + 1)) → (run (m + 1)).remaining = (run m).remaining → (run m).busy ≠ .none →
      feed m = .host → returnsFrom c run (m + 1)) :
    returnsFrom c run m := by
  rcases step_inCall hc (hone m) (hrun m) with hret | ⟨hc', hless | ⟨hsame, hbusy, hhost⟩⟩
  · exact returnsFrom_of_succ hc (returnsFrom_of_hasReturned hret)
  · exact returnsFrom_of_succ hc (nearer (m + 1) hc' hless)
  · exact returnsFrom_of_succ hc (polled hc' hsame hbusy hhost)

/-- A completion that comes `d` steps later ends the polling in vain. -/
theorem returnsFrom_of_completion {env : Env} (d : Nat) {m : Nat} (hfeed : feed (m + d) = .complete env) (hc : inCall c (run m))
    (nearer : ∀ m', inCall c (run m') → (run m').remaining < (run m).remaining → returnsFrom c run m') :
    returnsFrom c run m := by
  induction d generalizing m with
  | zero =>
    refine returnsFrom_of_step hrun hone hc nearer fun _ _ _ hhost => ?_
    rw [Nat.add_zero, hhost] at hfeed
    cases hfeed
  | succ d ih =>
    refine returnsFrom_of_step hrun hone hc nearer fun hc' hsame _ _ => ih ?_ hc' ?_
    · rwa [Nat.add_right_comm]
    · rwa [hsame]

/-- Every call in progress returns, if the environment is live. -/
theorem returnsFrom_of_inCall (hlive : EnvLive feed run) {m : Nat} (hc : inCall c (run m)) : returnsFrom c run m := by
  induction hR : (run m).remaining using Nat.strong_induction_on generalizing m with
  | _ R ih =>
    subst hR
    have nearer : ∀ m', inCall c (run m') → (run m').remaining < (run m).remaining → returnsFrom c run m' :=
      fun m' hc' hless => ih _ hless hc' rfl
    by_cases hbusy : (run m).busy = .none
    · exact returnsFrom_of_step hrun hone hc nearer fun _ _ hne _ => absurd hbusy hne
    · obtain ⟨d, env, hfeed⟩ := completion_of_envLive hone hlive hbusy
      exact returnsFrom_of_completion hrun hone d hfeed hc nearer

end

/-- Settles O58: the call has returned in its own step (R149), or is in progress and returns because the environment is live. -/
theorem callsReturnIfEnvironmentIsLive : Obligations.CallsReturnIfEnvironmentIsLive := by
  intro feed run c k hrun hone hlive hfeed
  have hcall : hostCall c (run k) = .next (run (k + 1)) := by
    have hstep := hrun k
    rwa [hfeed, step_given] at hstep
  have hreturns : returnsFrom c run (k + 1) := by
    rcases hostCall_inCall hcall with hc | hret
    · exact returnsFrom_of_inCall hrun hone hlive hc
    · exact returnsFrom_of_hasReturned hret
  obtain ⟨n, hkn, ⟨hidle, hret⟩, hbusy⟩ := hreturns
  exact ⟨n, hkn, hidle, fun m hkm hmn => hbusy m hkm hmn, hret⟩

end Sys2Proof.Machine
end

section
/-! What one move of the engine can do, said once for every claim about all steps: a register access by its kinds (`Accessed`),
and a completion step by its event, which stands for the status and the `LINK` it publishes (R207). -/

namespace Sys2Proof.Machine

variable {s t : State}

/-- Everything a register access can do to the engine, by kind: a read or a write that is ignored (R44, R45), the three effects
of NOP (R130 to R132), the issue of a bus command (R67), and the writes of DATA, DIV and PRESC (R45, R133, R134). -/
inductive Accessed (s : State) : State → Prop where
  | read (f : Bool) (v : Byte) (n : Nat) (hfresh : f = true → s.fresh = true) :
      Accessed s { s with fresh := f, rdata := v, draws := n }
  | setIe (ie : Bool) : Accessed s (s.setIe ie)
  | enable (ie : Bool) : Accessed s (s.enable ie)
  | disable (ie : Bool) (hen : s.en = true) (hbusy : s.busy = .none) (hlink : s.link = .idle) : Accessed s (s.disable ie)
  | issue (i : Instr) (b : Busy) (hen : s.en = true) (hbusy : s.busy = .none) (hissues : Issues i s b) :
      Accessed s (s.issue i.ie b)
  | loadData (v : Byte) (hbusy : s.busy = .none) : Accessed s (s.loadData v)
  | loadDiv (v : Byte) : Accessed s (s.loadDiv v)
  | loadPs (p : PsField) : Accessed s (s.loadPs p)

theorem accessed_of_exec {i : Instr} (h : exec i s = .next t) : Accessed s t := by
  rcases exec_cases h with ⟨ie, en, -, ⟨-, rfl⟩ | ⟨-, -, rfl⟩ | ⟨hen, -, hq, rfl⟩⟩ | ⟨hen, hbusy, b, hissues, rfl⟩
  · exact .setIe ie
  · exact .enable ie
  · obtain ⟨hbusy, hlink⟩ := quiescent_iff.1 hq
    exact .disable ie hen hbusy hlink
  · exact .issue i b hen hbusy hissues

theorem accessed_of_access {a : Access} (h : access a s = .next t) : Accessed s t := by
  cases a with
  | read off =>
    obtain ⟨f, v, n, hread, hfresh⟩ := memRead_eq off s
    rw [← next_inj.1 h, hread]
    exact .read f v n hfresh
  | write off v =>
    rcases memWrite_cases h with ⟨i, -, -, hexec⟩ | rfl | ⟨hbusy, rfl⟩ | ⟨-, -, rfl | rfl⟩
    · exact accessed_of_exec hexec
    · exact .read t.fresh t.rdata t.draws id
    · exact .loadData v hbusy
    · exact .loadDiv v
    · exact .loadPs (prescField v)

theorem Issues.ne_none {i : Instr} {b : Busy} (h : Issues i s b) : b ≠ .none := by
  cases i with
  | nop ie en => exact h.elim
  | start ie => obtain rfl : b = .start := h; nofun
  | rstart ie => obtain rfl : b = .start := h; nofun
  | stop ie => obtain rfl : b = .stop := h; nofun
  | tx ie => obtain ⟨-, d, -, rfl⟩ := h; nofun
  | rxAck ie => obtain ⟨-, rfl⟩ := h; nofun
  | rxNack ie => obtain ⟨-, rfl⟩ := h; nofun

/-- The status and the `LINK` a transmitted byte reports are those its event stands for (R207, columns TX). -/
theorem afterTransmit_eq_txReport {l : Link} (h : l.mayTransmit = true) (b : Byte) (a : TxAnswer) :
    afterTransmit l b a = some (some (txReport l b a).1, (txReport l b a).2) := by
  rcases mayTransmit_iff.1 h with rfl | rfl
  · cases hdir : b.getLsbD 0 <;> cases a <;> simp only [afterTransmit, txReport, txAcknowledged, dirBit, hdir] <;> rfl
  · cases a <;> rfl

/-- A legal completion of START, TX or a receive publishes the status and the `LINK` its event stands for (R207), after at most
one draw; that of STOP goes to `Idle` with the event `Stop(h)` of the `LINK` it came from (R111 to R113). -/
theorem complete_event {env : Env} (hlegal : Busy.legal s) (h : complete env s = .next t) :
    (s.busy ≠ .none ∧ ∃ d c l e n, afterEvent s.link e = some (some c, l) ∧
      t = State.publish { s with draws := n } d c l e) ∨
    (s.busy = .stop ∧ t = s.stopped (s.link != .idle)) := by
  rcases complete_cases h with ⟨hb, rfl⟩ | ⟨b, hb, hmay, rfl⟩ | ⟨k, hb, rfl⟩ | ⟨hb, rfl⟩
  · refine .inl ⟨by simp [hb], ?_⟩
    cases env.startAnswer with
    | accept =>
      rcases startIsAccepted_cases s with ⟨hl, heq⟩ | ⟨hheld, heq⟩ | ⟨hl, heq | heq⟩
      · exact ⟨_, _, _, _, s.draws, by simp [afterEvent, afterStart, hl], heq⟩
      · have hl : s.link ≠ .idle := by rcases holdsBus_iff.1 hheld with hl | hl | hl | hl <;> simp [hl]
        exact ⟨_, _, _, _, s.draws, by simp [afterEvent, afterStart, hl], heq⟩
      · exact ⟨_, _, _, _, s.draws + 1, by simp [afterEvent, afterStart, hl], heq⟩
      · exact ⟨_, _, _, _, s.draws + 1, by simp [afterEvent, afterStart, hl], heq⟩
    | collide => exact ⟨_, _, _, _, s.draws, rfl, rfl⟩
    | error => exact ⟨_, _, _, _, s.draws, rfl, rfl⟩
  · exact .inl ⟨by simp [hb], none, _, _, .tx b env.txAnswer, s.draws, afterTransmit_eq_txReport hmay b _, rfl⟩
  · refine .inl ⟨by simp [hb], ?_⟩
    have hl : s.link = .mr := by simpa [Busy.legal, hb] using hlegal
    cases env.rxAnswer with
    | ok d => exact ⟨_, _, _, _, s.draws, by cases k <;> simp [afterEvent, afterReceive, hl], rfl⟩
    | lost => exact ⟨_, _, _, _, s.draws + 1, by simp [afterEvent, afterReceive, hl], rfl⟩
    | error => exact ⟨_, _, _, _, s.draws + 1, by simp [afterEvent, afterReceive, hl], rfl⟩
  · exact .inr ⟨hb, rfl⟩

end Sys2Proof.Machine
end

section
/-! The invariant of the engine: each kind of move keeps it. A completion extends the history by one event, and the protocol's
reading of a history is a fold, so the new event is read where the old history ended. -/

namespace Sys2Proof.Machine

variable {s t : State}

/-! ## The history -/

/-- A history is read event by event: one more event is read at the `LINK` the history has led to. -/
theorem replayFrom_concat {e : BusEvent} {es : List BusEvent} {l l' : Link} {c c' : Option BusStatus}
    {r : Option BusStatus × Link} (hes : replayFrom l c es = some (l', c')) (he : afterEvent l' e = some r) :
    replayFrom l c (es ++ [e]) = some (r.2, r.1.or c') := by
  induction es generalizing l c with
  | nil =>
    obtain ⟨rfl, rfl⟩ : l = l' ∧ c = c' := by simpa [replayFrom] using hes
    simp [replayFrom, he]
  | cons e₀ es ih =>
    cases h₀ : afterEvent l e₀ with
    | none => simp [replayFrom, h₀] at hes
    | some r₀ =>
      simp only [List.cons_append, replayFrom, h₀] at hes ⊢
      exact ih hes

theorem historyAgrees_publish {d : Option Byte} {c : BusStatus} {l : Link} {e : BusEvent} (h : s.historyAgrees)
    (he : afterEvent s.link e = some (some c, l)) : (s.publish d c l e).historyAgrees :=
  replayFrom_concat h he

/-- A stop reports no status, so `STATUS.CODE` stays what the history said. -/
theorem historyAgrees_stopped (h : s.historyAgrees) : (s.stopped (s.link != .idle)).historyAgrees :=
  replayFrom_concat (r := (none, .idle)) h (by simp [afterEvent, afterStop])

/-! ## The command in flight -/

theorem legal_of_busy_none (h : s.busy = .none) : Busy.legal s := by
  simp [Busy.legal, h]

theorem legal_issue {i : Instr} {b : Busy} (ie : Bool) (h : Issues i s b) : Busy.legal (s.issue ie b) := by
  cases i with
  | nop ie en => exact h.elim
  | start ie => obtain rfl : b = .start := h; trivial
  | rstart ie => obtain rfl : b = .start := h; trivial
  | stop ie => obtain rfl : b = .stop := h; trivial
  | tx ie => obtain ⟨hmay, d, hdata, rfl⟩ := h; exact ⟨hmay, hdata⟩
  | rxAck ie => obtain ⟨hl, rfl⟩ := h; exact hl
  | rxNack ie => obtain ⟨hl, rfl⟩ := h; exact hl

/-! ## The flags -/

/-- While a command is in flight the engine is enabled and not ready (R16, R132). -/
theorem flags_in_flight (h : s.flagsAgree) (hbusy : s.busy ≠ .none) : s.en = true ∧ s.rdy = false := by
  obtain ⟨-, hrdy, hen⟩ := h
  refine ⟨?_, ?_⟩
  · exact Bool.of_not_eq_false fun hoff => hbusy (hen hoff).1
  · exact Bool.of_not_eq_true fun hon => hbusy (hrdy hon).1

/-! ## Every move of the engine -/

/-- The invariant speaks of the engine alone. -/
theorem engineInv_of_sameEngine (h : s.EngineInv) (v : Byte) (n : Nat) (hs : HostControl) (r : Option HostReturn)
    (ins : List Input) :
    State.EngineInv { s with rdata := v, draws := n, host := hs, returned := r, inputs := ins } :=
  ⟨h.flags, h.flight, h.history⟩

theorem engineInv_reset : State.reset.EngineInv :=
  ⟨⟨nofun, nofun, fun _ => ⟨rfl, rfl, rfl⟩⟩, trivial, rfl⟩

theorem engineInv_assertReset (s : State) : s.assertReset.EngineInv :=
  engineInv_of_sameEngine engineInv_reset _ _ _ _ _

theorem engineInv_accessed (hinv : s.EngineInv) (h : Accessed s t) : t.EngineInv := by
  obtain ⟨⟨hfresh, hrdy, hen⟩, hlegal, hhistory⟩ := hinv
  cases h with
  | read f v n hf => exact ⟨⟨fun hon => hfresh (hf hon), hrdy, hen⟩, hlegal, hhistory⟩
  | setIe ie => exact ⟨⟨hfresh, hrdy, hen⟩, hlegal, hhistory⟩
  | enable ie => exact ⟨⟨hfresh, hrdy, nofun⟩, hlegal, hhistory⟩
  | disable ie _ hbusy hlink => exact ⟨⟨nofun, nofun, fun _ => ⟨hbusy, hlink, rfl⟩⟩, hlegal, hhistory⟩
  | issue i b hon _ hissues =>
    refine ⟨⟨nofun, nofun, fun hoff => ?_⟩, legal_issue i.ie hissues, hhistory⟩
    rw [State.issue_en, hon] at hoff
    cases hoff
  | loadData v hbusy => exact ⟨⟨hfresh, hrdy, hen⟩, legal_of_busy_none hbusy, hhistory⟩
  | loadDiv v => exact ⟨⟨hfresh, hrdy, hen⟩, hlegal, hhistory⟩
  | loadPs p => exact ⟨⟨hfresh, hrdy, hen⟩, hlegal, hhistory⟩

theorem engineInv_publish {d : Option Byte} {c : BusStatus} {l : Link} {e : BusEvent} (hinv : s.EngineInv)
    (hbusy : s.busy ≠ .none) (he : afterEvent s.link e = some (some c, l)) : (s.publish d c l e).EngineInv := by
  obtain ⟨hen, -⟩ := flags_in_flight hinv.flags hbusy
  exact ⟨⟨fun _ => rfl, fun _ => ⟨rfl, nofun⟩, by simp [hen]⟩, trivial, historyAgrees_publish hinv.history he⟩

theorem engineInv_stopped (hinv : s.EngineInv) (hbusy : s.busy = .stop) :
    (s.stopped (s.link != .idle)).EngineInv := by
  obtain ⟨hfresh, -, -⟩ := hinv.flags
  obtain ⟨hen, hrdy⟩ := flags_in_flight hinv.flags (by simp [hbusy])
  exact ⟨⟨hfresh, by simp [hrdy], by simp [hen]⟩, trivial, historyAgrees_stopped hinv.history⟩

theorem engineInv_complete {env : Env} (hinv : s.EngineInv) (h : complete env s = .next t) : t.EngineInv := by
  rcases complete_event hinv.flight h with ⟨hbusy, d, c, l, e, n, he, rfl⟩ | ⟨hbusy, rfl⟩
  · exact engineInv_publish (engineInv_of_sameEngine hinv s.rdata n s.host s.returned s.inputs) hbusy he
  · exact engineInv_stopped hinv hbusy

/-- Settles O32. -/
theorem engineInvariantAtReset : Obligations.EngineInvariantAtReset := engineInv_reset

/-- Settles O33: a step is an access, a completion, a reset or nothing to the engine, and each keeps the invariant. -/
theorem engineInvariantKept : Obligations.EngineInvariantKept := by
  intro s t hinv h
  obtain ⟨s', t', ⟨hs, r, ins, rfl⟩, ⟨hs', r', ins', rfl⟩, hmove⟩ := step_engine h
  have hinv' := engineInv_of_sameEngine hinv s.rdata s.draws hs r ins
  refine engineInv_of_sameEngine (s := t') ?_ t'.rdata t'.draws hs' r' ins'
  rcases hmove with ⟨a, hacc⟩ | ⟨env, -, -, hcomplete⟩ | ⟨-, -, rfl⟩ | rfl
  · exact engineInv_accessed hinv' (accessed_of_access hacc)
  · exact engineInv_complete hinv' hcomplete
  · exact engineInv_assertReset _
  · exact hinv'

end Sys2Proof.Machine
end

section
/-! The command slot, `RDY` and the history over a step, from the same moves: only an issue fills the slot, only a completion
empties it, sets `RDY` and adds an event; and a legal command in flight always has its completion. -/

namespace Sys2Proof.Machine

variable {s t : State}

/-- An access never sets `RDY`; it clears it by the issue of a command or by disabling (R16). -/
theorem accessed_rdy (h : Accessed s t) :
    t.rdy = s.rdy ∨ t.rdy = false ∧ ((s.busy = .none ∧ t.busy ≠ .none) ∨ (s.en = true ∧ t.en = false)) := by
  cases h with
  | disable ie hen _ _ => exact .inr ⟨rfl, .inr ⟨hen, rfl⟩⟩
  | issue i b _ hbusy hissues => exact .inr ⟨rfl, .inl ⟨hbusy, hissues.ne_none⟩⟩
  | _ => exact .inl rfl

/-- An access leaves the history and a command in flight as they are. -/
theorem accessed_slot (h : Accessed s t) : t.trace = s.trace ∧ (s.busy ≠ .none → t.busy = s.busy) := by
  cases h with
  | issue i b _ hbusy _ => exact ⟨rfl, fun hne => absurd hbusy hne⟩
  | _ => exact ⟨rfl, fun _ => rfl⟩

theorem complete_slot {env : Env} (h : complete env s = .next t) :
    s.busy ≠ .none ∧ t.busy = .none ∧ ∃ e, t.trace = s.trace ++ [e] := by
  rcases complete_shape h with ⟨hne, -, d, c, l, e, n, rfl⟩ | ⟨hstop, hld, rfl⟩
  · exact ⟨hne, rfl, e, rfl⟩
  · exact ⟨by simp [hstop], rfl, .stop hld, rfl⟩

/-- A flag that keeps its value neither rises nor falls, so what either would need holds vacuously. -/
theorem rises_or_falls_of_eq {old new : Bool} {rises falls : Prop} (h : new = old) :
    (old = false → new = true → rises) ∧ (old = true → new = false → falls) := by
  subst h
  cases new <;> simp

/-- Settles O34: a completion other than that of STOP sets `RDY`; an access and a reset can only clear it. -/
theorem readyIsSetByCompletionOnly : Obligations.ReadyIsSetByCompletionOnly := by
  intro s t h
  obtain ⟨s', t', ⟨hs, r, ins, rfl⟩, ⟨hs', r', ins', rfl⟩, hmove⟩ := step_engine h
  rcases hmove with ⟨a, hacc⟩ | ⟨env, rest, hin, hcomplete⟩ | ⟨rest, hin, rfl⟩ | rfl
  · rcases accessed_rdy (accessed_of_access hacc) with heq | ⟨hclear, hwhy⟩
    · exact rises_or_falls_of_eq heq
    · exact ⟨fun _ h1 => absurd h1 (by simp [hclear]), fun _ _ => hwhy.imp id .inl⟩
  · rcases complete_shape hcomplete with ⟨hne, hnstop, d, c, l, e, n, rfl⟩ | ⟨-, hld, rfl⟩
    · exact ⟨fun _ _ => ⟨env, rest, hin, hne, hnstop, rfl⟩, nofun⟩
    · exact rises_or_falls_of_eq rfl
  · exact ⟨nofun, fun _ _ => .inr (.inr ⟨rest, hin⟩)⟩
  · exact rises_or_falls_of_eq rfl

/-- Settles O35: an access keeps a command in flight and the history, a completion ends the one and extends the other. -/
theorem commandSlotAdvancesOneWay : Obligations.CommandSlotAdvancesOneWay := by
  intro s t h hnoreset
  obtain ⟨s', t', ⟨hs, r, ins, rfl⟩, ⟨hs', r', ins', rfl⟩, hmove⟩ := step_engine h
  rcases hmove with ⟨a, hacc⟩ | ⟨env, rest, -, hcomplete⟩ | ⟨rest, hin, -⟩ | rfl
  · obtain ⟨htrace, hbusy⟩ := accessed_slot (accessed_of_access hacc)
    exact ⟨fun hne => .inl (hbusy hne), .inl htrace, fun hne hempty => absurd ((hbusy hne).symm.trans hempty) hne⟩
  · obtain ⟨hne, hempty, e, htrace⟩ := complete_slot hcomplete
    exact ⟨fun _ => .inr hempty, .inr ⟨e, htrace, hne, hempty⟩, fun _ _ => ⟨e, htrace⟩⟩
  · exact absurd hin (hnoreset rest)
  · exact ⟨fun _ => .inl rfl, .inl rfl, fun hne hempty => absurd hempty hne⟩

/-- Settles O23: the completion step of each command in flight is given for every answer, TX in a `LINK` that may transmit. -/
theorem everyCommandCanComplete : Obligations.EveryCommandCanComplete := by
  intro s env
  simp only [step_given, apply]
  refine ⟨fun hbusy hlegal => ?_, fun hempty => by simp [complete, hempty]⟩
  cases hflight : s.busy with
  | none => exact absurd hflight hbusy
  | start => exact ⟨completeStart env.startAnswer s, by simp [complete, hflight]⟩
  | tx b =>
    obtain ⟨hmay, -⟩ : s.link.mayTransmit = true ∧ s.data = some b := by simpa [Busy.legal, hflight] using hlegal
    exact ⟨_, by simp only [complete, hflight]; exact if_pos hmay⟩
  | rx k => exact ⟨completeRx k env.rxAnswer s, by simp [complete, hflight]⟩
  | stop => exact ⟨completeStop s, by simp [complete, hflight]⟩

end Sys2Proof.Machine
end

section
/-! The read of STATUS: it consumes a fresh status, and reads as `any` once consumed (R21). -/

namespace Sys2Proof.Machine

variable {s : State}

theorem readStatus_of_fresh {c : BusStatus} (hfresh : s.fresh = true) (hcode : s.code = some c) :
    readStatus s = s.consumeStatus.returnByte (statusByte c.code) := by
  simp [readStatus, hfresh, hcode]

theorem readStatus_of_not_fresh (hfresh : s.fresh = false) : readStatus s = s.returnAny := by
  simp [readStatus, hfresh]

/-- Bits 7:3 of STATUS are the code (R18, R126). -/
theorem statusByte_code (c : BusStatus) : (statusByte c.code).extractLsb' 3 5 = c.code := by
  cases c <;> decide

/-- Settles O29: the first read consumes the status, so the second draws its byte. -/
theorem statusIsReadOnce : Obligations.StatusIsReadOnce := by
  intro s c hfresh hcode
  have hread : ∀ u : State, step (u.given (.access (.read 1#3))) = .next (readStatus u) := fun _ => rfl
  refine ⟨s.consumeStatus.returnByte (statusByte c.code), ?_, statusByte_code c, rfl, Config.anyByte s.draws, ?_⟩
  · rw [hread, readStatus_of_fresh hfresh hcode]
  · rw [hread, readStatus_of_not_fresh rfl]
    rfl

end Sys2Proof.Machine
end

section
/-! The completion step publishes once: by `complete_shape` it is one `State.publish` or, for STOP, one `State.stopped`, and those
two say what changes and what does not (R48, R114). -/

namespace Sys2Proof.Machine

/-- Settles O22: the slot and the history are those of `complete_slot`, the rest is read off the published state. -/
theorem completionPublishesAtOnce : Obligations.CompletionPublishesAtOnce := by
  intro s t env h
  obtain ⟨hbusy, hempty, hevent⟩ := complete_slot h
  refine ⟨hbusy, hempty, hevent, ?_⟩
  rcases complete_shape h with ⟨-, hnstop, d, c, l, e, n, rfl⟩ | ⟨hstop, hld, rfl⟩
  · exact ⟨fun _ => ⟨nofun, rfl, rfl⟩, fun hstop => absurd hstop hnstop, rfl, rfl, rfl, rfl, rfl, rfl, rfl, rfl⟩
  · exact ⟨fun hnstop => absurd hstop hnstop, fun _ => ⟨rfl, rfl, rfl, rfl⟩, rfl, rfl, rfl, rfl, rfl, rfl, rfl, rfl⟩

end Sys2Proof.Machine
end

section
/-! Reads and writes of the registers DATA, DIV and PRESC and of the reserved offsets (R43 to R45, R133, R134): which register an
offset reaches, what a read of it gives when it holds a value and when it is unspecified, and what a write leaves there. -/

namespace Sys2Proof.Machine

variable {s : State}

/-! ## Reads -/

theorem regAt_reserved {off : Offset} (h : 5 ≤ off.toNat) : regAt off = .reserved := by
  revert off; decide

theorem memRead_data (s : State) : memRead offData s = readOr s.data s := rfl

theorem memRead_div (s : State) : memRead offDiv s = readOr s.div s := rfl

theorem memRead_presc (s : State) : memRead offPresc s = readPresc s := rfl

theorem memRead_reserved {off : Offset} (h : 5 ≤ off.toNat) (s : State) : memRead off s = s.returnAny := by
  rw [memRead, regAt_reserved h]

theorem readOr_some {v : Option Byte} {b : Byte} (h : v = some b) (s : State) : readOr v s = s.returnByte b := by
  rw [h, readOr]

theorem readOr_none {v : Option Byte} (h : v = none) (s : State) : readOr v s = s.returnAny := by
  rw [h, readOr]

theorem readPresc_some {p : PsField} (h : s.ps = some p) : readPresc s = s.returnByte (prescByte p) := by
  rw [readPresc, h]

theorem readPresc_none (h : s.ps = none) :
    readPresc s = (s.returnByte (prescByte (prescField (Config.anyByte s.draws)))).drawn := by
  rw [readPresc, h]

/-- A read that draws `any` gives some byte and changes nothing but the count of draws. -/
theorem step_read_any {off : Offset} (h : memRead off s = s.returnAny) :
    ∃ v, step (s.given (.access (.read off))) = .next { s with rdata := v, draws := s.draws + 1 } :=
  ⟨Config.anyByte s.draws, congrArg Host.Outcome.next h⟩

/-- A read that gives the byte `b` changes nothing else. -/
theorem step_read_byte {off : Offset} {b : Byte} (h : memRead off s = s.returnByte b) :
    step (s.given (.access (.read off))) = .next { s with rdata := b } :=
  congrArg Host.Outcome.next h

/-- Settles O26: each register is read by its own rule, held or unspecified. -/
theorem registerReads : Obligations.RegisterReads := by
  intro s
  have hstatus : memRead offStatus s = readStatus s := rfl
  refine ⟨rfl, fun c hfresh hcode => ?_, fun hstale => ?_, fun b hb => ?_, fun hnone => ?_, fun b hb => ?_, fun hnone => ?_,
    fun p hp => ?_, fun hnone => ?_, fun off hoff => ?_⟩
  · exact congrArg Host.Outcome.next (hstatus.trans (readStatus_of_fresh hfresh hcode))
  · exact step_read_any (hstatus.trans (readStatus_of_not_fresh hstale))
  · exact step_read_byte ((memRead_data s).trans (readOr_some hb s))
  · exact step_read_any ((memRead_data s).trans (readOr_none hnone s))
  · exact step_read_byte ((memRead_div s).trans (readOr_some hb s))
  · exact step_read_any ((memRead_div s).trans (readOr_none hnone s))
  · exact step_read_byte ((memRead_presc s).trans (readPresc_some hp))
  · exact ⟨prescField (Config.anyByte s.draws), congrArg Host.Outcome.next ((memRead_presc s).trans (readPresc_none hnone))⟩
  · exact step_read_any (memRead_reserved hoff s)

/-! ## Writes -/

theorem writeData_of_busy_none (h : s.busy = .none) (v : Byte) : writeData v s = .next (s.loadData v) :=
  if_pos h

theorem writeDiv_of_quiescent (h : s.quiescent = true) (v : Byte) : writeDiv v s = .next (s.loadDiv v) :=
  if_pos h

theorem writePresc_of_quiescent (h : s.quiescent = true) (v : Byte) :
    writePresc v s = .next (s.loadPs (prescField v)) :=
  if_pos h

theorem prescByte_toNat (p : PsField) : (prescByte p).toNat = p.toNat :=
  (BitVec.toNat_append 0#6 p).trans (by simp)

/-- PRESC reads back the two low bits of what was written (R134). -/
theorem prescByte_prescField (v : Byte) : prescByte (prescField v) = v &&& 0x03#8 := by
  apply BitVec.eq_of_toNat_eq
  have hlow : v.toNat &&& 3 = v.toNat % 4 := Nat.and_two_pow_sub_one_eq_mod v.toNat 2
  simp [prescByte_toNat, prescField, hlow]

/-- A write that leaves `t`, and a read of `t` that gives `b`: the read back of the register at `off`. -/
theorem readBack {off : Offset} {v b : Byte} {t : State} (hwrite : memWrite off v s = .next t)
    (hread : memRead off t = t.returnByte b) :
    ∃ t u, step (s.given (.access (.write off v))) = .next t ∧ step (t.given (.access (.read off))) = .next u ∧
      u.rdata = b :=
  ⟨t, t.returnByte b, hwrite, congrArg Host.Outcome.next hread, rfl⟩

/-- Settles O28: a quiescent engine takes each write, and the register then holds what the read gives. -/
theorem writtenRegistersReadBack : Obligations.WrittenRegistersReadBack := by
  intro s v hbusy hlink
  have hq : s.quiescent = true := quiescent_iff.2 ⟨hbusy, hlink⟩
  refine ⟨?_, ?_, ?_⟩
  · exact readBack (writeData_of_busy_none hbusy v) ((memRead_data _).trans (readOr_some rfl _))
  · exact readBack (writeDiv_of_quiescent hq v) ((memRead_div _).trans (readOr_some rfl _))
  · rw [← prescByte_prescField]
    exact readBack (writePresc_of_quiescent hq v) ((memRead_presc _).trans (readPresc_some rfl))

end Sys2Proof.Machine
end

section
/-! A write of CTRL runs its command at the write itself (R50, R67), whoever makes the write. -/

namespace Sys2Proof.Machine

variable {s : State}

theorem ctrlWrite_of_command {v : Byte} {i : Instr} (h : decode s.holdsBus v = .command i) : ctrlWrite v s = exec i s := by
  rw [ctrlWrite, h]

theorem access_writeCtrl (v : Byte) (s : State) : access (.write offCtrl v) s = ctrlWrite v s := rfl

/-- A host step makes the access its program stands at. -/
theorem hostStep_of_access {a : Access} (soa : Bool) (h : s.host.access = some a) :
    hostStep soa s = andThen (access a s) fun t => .next (hostAfter soa t) := by
  rw [hostStep, h]

/-- A byte placed as an 8-bit word is a write of that byte to CTRL. -/
theorem withFetchWord_byte (s : State) (v : Byte) :
    s.withFetchWord 8 v.toNat = s.given (.access (.write offCtrl v)) := by
  have hlow : BitVec.ofNat 8 (v.toNat % 2 ^ 8) = v := by
    rw [Nat.mod_eq_of_lt v.isLt, BitVec.ofNat_toNat, BitVec.setWidth_eq]
  rw [State.withFetchWord, hlow]

/-- Settles O4: the raw access, the placed word and the host's program all make the one write of CTRL. -/
theorem stepRunsDecodedCommand : Obligations.StepRunsDecodedCommand := by
  intro s v i hdecode
  have hwrite : access (.write offCtrl v) s = exec i s :=
    (access_writeCtrl v s).trans (ctrlWrite_of_command hdecode)
  refine ⟨hwrite, ?_, fun hhost => ?_⟩
  · rw [withFetchWord_byte]
    exact hwrite
  · rw [← hwrite]
    exact hostStep_of_access Config.stopOnAbort hhost

end Sys2Proof.Machine
end

section
/-! The wires (R54, R55; log 18): what a device that samples SDA while SCL is high sees of a transfer. -/

namespace Sys2Proof.Machine

/-- Sampling SDA while SCL is high reads back the bits that were clocked out (R55). -/
theorem sampled_flatMap_bitLines (bits : List Bool) :
    ((bits.flatMap bitLines).filter fun l => l.scl).map (fun l => l.sda) = bits := by
  induction bits with
  | nil => rfl
  | cons b bits ih => simp [bitLines, ih]

theorem lines_tx (b : Byte) (k : Bool) : (BusEvent.tx b (if k then .ack else .nack)).lines = some (byteLines b k) := by
  cases k <;> rfl

/-- Settles O25: a byte sent and a byte received have the same nine pulses, and sampling reads them back. -/
theorem eventsOnTheWires : Obligations.EventsOnTheWires := by
  intro b k
  exact ⟨rfl, rfl, rfl, byteLines b k, lines_tx b k, rfl, sampled_flatMap_bitLines _⟩

end Sys2Proof.Machine
end

section
/-! The decoder against the encoder (R61, R62, R65, R67). A byte is its four fields, so it is the encoding of a command exactly if
the fields are the command's, and the decoder's tests on the fields single out that command among those of the right name. -/

namespace Sys2Proof

open Sys2Proof.Machine

variable {held : Bool} {v : Byte} {i : Instr}

/-! ## A byte and its fields -/

theorem encode_fields (i : Instr) : Laws.EncodingShape.Statement i := by
  cases i with
  | nop ie en => exact Laws.EncodingShape.nop ie en
  | start ie => exact Laws.EncodingShape.start ie
  | rstart ie => exact Laws.EncodingShape.rstart ie
  | stop ie => exact Laws.EncodingShape.stop ie
  | tx ie => exact Laws.EncodingShape.tx ie
  | rxAck ie => exact Laws.EncodingShape.rxAck ie
  | rxNack ie => exact Laws.EncodingShape.rxNack ie

theorem ofBool_getLsbD (v : Byte) (n : Nat) : BitVec.ofBool (v.getLsbD n) = v.extractLsb' n 1 := by
  apply BitVec.eq_of_getLsbD_eq
  intro k hk
  obtain rfl : k = 0 := by omega
  simp

/-- A byte with zeros in bits 5:3 is put together again from its other fields (R61). -/
theorem ctrlByte_fields (hzero : fieldZero v = 0#3) : ctrlByte (fieldIe v) (fieldEn v) (fieldCmd v) = v := by
  have htop : v.extractLsb' 7 1 ++ v.extractLsb' 6 1 = v.extractLsb' 6 2 :=
    BitVec.extractLsb'_append_extractLsb'_eq_extractLsb' rfl
  have hmid : v.extractLsb' 6 2 ++ v.extractLsb' 3 3 = v.extractLsb' 3 5 :=
    BitVec.extractLsb'_append_extractLsb'_eq_extractLsb' rfl
  have hall : v.extractLsb' 3 5 ++ v.extractLsb' 0 3 = v.extractLsb' 0 8 :=
    BitVec.extractLsb'_append_extractLsb'_eq_extractLsb' rfl
  calc ctrlByte (fieldIe v) (fieldEn v) (fieldCmd v)
    _ = v.extractLsb' 7 1 ++ v.extractLsb' 6 1 ++ v.extractLsb' 3 3 ++ v.extractLsb' 0 3 := by
      rw [ctrlByte, ← hzero, fieldIe, fieldEn, ofBool_getLsbD, ofBool_getLsbD, fieldZero, fieldCmd]
    _ = v.extractLsb' 0 8 := by rw [htop, hmid, hall]
    _ = v := BitVec.extractLsb'_eq_self

theorem eq_encode_iff :
    v = encode i ↔ fieldZero v = 0#3 ∧ fieldIe v = i.ie ∧ fieldEn v = i.en ∧ fieldCmd v = i.cmdCode := by
  constructor
  · rintro rfl
    obtain ⟨hie, hen, hzero, hcmd⟩ := encode_fields i
    exact ⟨hzero, hie, hen, hcmd⟩
  · rintro ⟨hzero, hie, hen, hcmd⟩
    rw [encode, ← hie, ← hen, ← hcmd, ctrlByte_fields hzero]

/-! ## The opcodes -/

theorem cmdCode_eq_zero_iff : i.cmdCode = 0#3 ↔ i = .nop i.ie i.en := by
  cases i <;> simp [Instr.cmdCode, Instr.ie, Instr.en]

theorem en_of_cmdCode_ne_zero (h : i.cmdCode ≠ 0#3) : i.en = true := by
  cases i with
  | nop ie en => exact absurd rfl h
  | _ => rfl

/-- An opcode and `ie` name a bus command, START or RSTART by whether the bus is held (R62). -/
theorem busCommand_eq_some_iff {ie : Bool} {cmd : CmdCode} (hcmd : cmd ≠ 0#3) :
    busCommand held ie cmd = some i ↔ i.wellFormed held = true ∧ ie = i.ie ∧ cmd = i.cmdCode := by
  constructor
  · -- each branch has tested the opcode of the command it names
    unfold busCommand
    split_ifs <;> rintro ⟨⟩ <;> simp_all [Instr.wellFormed, Instr.ie, Instr.cmdCode]
  · rintro ⟨hname, rfl, rfl⟩
    cases i with
    | nop ie en => exact absurd rfl hcmd
    | start ie =>
      obtain rfl : held = false := by simpa [Instr.wellFormed] using hname
      rfl
    | rstart ie =>
      obtain rfl : held = true := hname
      rfl
    | _ => rfl

theorem busCommand_eq_none_iff {ie : Bool} {cmd : CmdCode} (hcmd : cmd ≠ 0#3) :
    busCommand held ie cmd = none ↔ cmd = 6#3 ∨ cmd = 7#3 := by
  revert held ie cmd; decide

/-! ## The decoder -/

theorem decode_of_zeroField (h : fieldZero v ≠ 0#3) : decode held v = .reserved .zeroFieldSet := if_pos h

theorem decode_of_nop (hzero : fieldZero v = 0#3) (hcmd : fieldCmd v = 0#3) :
    decode held v = .command (.nop (fieldIe v) (fieldEn v)) := by
  simp [decode, hzero, hcmd]

/-- With zeros in bits 5:3 and an opcode other than NOP's, the byte is a bus command with `en = 1`, or reserved (R65). -/
theorem decode_of_busOpcode (hzero : fieldZero v = 0#3) (hcmd : fieldCmd v ≠ 0#3) :
    decode held v = .command i ↔ busCommand held (fieldIe v) (fieldCmd v) = some i ∧ fieldEn v = true := by
  cases hbus : busCommand held (fieldIe v) (fieldCmd v) <;> cases hen : fieldEn v <;> simp [decode, hzero, hcmd, hbus, hen]

/-- Settles O1: each branch of the decoder, by bits 5:3 and the opcode, against the fields of the encoding. -/
theorem decodeAndEncodeAgree : Obligations.DecodeAndEncodeAgree := by
  intro held v i
  rw [eq_encode_iff]
  by_cases hzero : fieldZero v = 0#3
  · by_cases hcmd : fieldCmd v = 0#3
    · rw [decode_of_nop hzero hcmd]
      constructor
      · rintro ⟨⟩
        exact ⟨rfl, hzero, rfl, rfl, hcmd⟩
      · rintro ⟨-, -, hie, hen, hcode⟩
        rw [hie, hen, ← cmdCode_eq_zero_iff.1 (hcode.symm.trans hcmd)]
    · rw [decode_of_busOpcode hzero hcmd, busCommand_eq_some_iff hcmd]
      constructor
      · rintro ⟨⟨hname, hie, hcode⟩, hen⟩
        exact ⟨hname, hzero, hie, hen.trans (en_of_cmdCode_ne_zero (hcode ▸ hcmd)).symm, hcode⟩
      · rintro ⟨hname, -, hie, hen, hcode⟩
        exact ⟨⟨hname, hie, hcode⟩, hen.trans (en_of_cmdCode_ne_zero (hcode ▸ hcmd))⟩
  · simp [decode_of_zeroField hzero, hzero]

theorem decode_encode (hname : i.wellFormed held = true) : decode held (encode i) = .command i :=
  (decodeAndEncodeAgree held (encode i) i).2 ⟨hname, rfl⟩

/-- Settles O2: each byte written out is the encoding of its command. -/
theorem writtenCommandBytesDecode : Obligations.WrittenCommandBytesDecode := by
  intro held
  exact ⟨decode_encode (i := .nop false true) rfl, decode_encode (i := .nop true false) rfl,
    decode_encode (i := .start false) rfl, decode_encode (i := .rstart true) rfl, decode_encode (i := .stop false) rfl,
    decode_encode (i := .tx true) rfl, decode_encode (i := .rxAck false) rfl, decode_encode (i := .rxNack true) rfl⟩

/-! ## Reserved writes -/

/-- What makes a write of CTRL reserved, in the words of R65. -/
def reservedByte (v : Byte) : Prop :=
  fieldZero v ≠ 0#3 ∨ fieldCmd v = 6#3 ∨ fieldCmd v = 7#3 ∨
    (1 ≤ (fieldCmd v).toNat ∧ (fieldCmd v).toNat ≤ 5 ∧ fieldEn v = false)

/-- The opcodes 1 to 5 are those that are neither NOP's nor reserved (R62). -/
theorem busOpcode_iff (cmd : CmdCode) :
    1 ≤ cmd.toNat ∧ cmd.toNat ≤ 5 ↔ cmd ≠ 0#3 ∧ ¬(cmd = 6#3 ∨ cmd = 7#3) := by
  revert cmd; decide

theorem reservedByte_of_busOpcode (hzero : fieldZero v = 0#3) (hcmd : fieldCmd v ≠ 0#3) :
    reservedByte v ↔ busCommand held (fieldIe v) (fieldCmd v) = none ∨ fieldEn v = false := by
  rw [busCommand_eq_none_iff hcmd, reservedByte, ← and_assoc, busOpcode_iff]
  tauto

/-- The decoder finds a command in every byte that is not reserved, and in no other (R65, R67). -/
theorem reservedByte_iff (held : Bool) (v : Byte) : reservedByte v ↔ ∀ i, decode held v ≠ .command i := by
  by_cases hzero : fieldZero v = 0#3
  · by_cases hcmd : fieldCmd v = 0#3
    · simp [reservedByte, decode_of_nop hzero hcmd, hzero, hcmd]
    · simp only [ne_eq, decode_of_busOpcode hzero hcmd, reservedByte_of_busOpcode (held := held) hzero hcmd]
      cases busCommand held (fieldIe v) (fieldCmd v) <;> simp
  · simp [reservedByte, decode_of_zeroField hzero, hzero]

theorem ctrlWrite_of_reserved {s : State} {why : Reject} (h : decode s.holdsBus v = .reserved why) :
    ctrlWrite v s = .refused (.reservedEncoding why) := by
  rw [ctrlWrite, h]

/-- Settles O3: what the decoder finds in the byte decides, and the write refuses or runs it. -/
theorem reservedCtrlWritesAreRefused : Obligations.ReservedCtrlWritesAreRefused := by
  intro s v
  have hwrite : step (s.given (.access (.write 0#3 v))) = ctrlWrite v s := access_writeCtrl v s
  change (reservedByte v → _) ∧ (¬reservedByte v → _)
  rw [hwrite]
  cases hdecode : decode s.holdsBus v with
  | command i =>
    have hnot : ¬reservedByte v := fun hres => (reservedByte_iff s.holdsBus v).1 hres i hdecode
    exact ⟨fun hres => absurd hres hnot, fun _ => ⟨i, rfl, ctrlWrite_of_command hdecode⟩⟩
  | reserved why =>
    have hres : reservedByte v := (reservedByte_iff s.holdsBus v).2 fun i hi => nomatch hdecode.symm.trans hi
    exact ⟨fun _ => ⟨why, ctrlWrite_of_reserved hdecode⟩, fun hnot => absurd hres hnot⟩

end Sys2Proof
end

section
/-! The acceptance of a bus command at its CTRL write (R66, R67): `accept` tests `EN` and the slot for all of them, the rest of the
table is each command's own. -/

namespace Sys2Proof.Machine

variable {s : State}

theorem accept_of_disabled (k : State → Result) (hen : s.en = false) : accept s k = .refused .notEnabled :=
  if_pos hen

theorem accept_of_inFlight (k : State → Result) (hen : s.en = true) (hbusy : s.busy ≠ .none) :
    accept s k = .refused .commandInFlight := by
  simp [accept, hen, hbusy]

/-- R66's table for one command `r`: what it does once `EN` and the slot are tested decides between U5, U8 and acceptance. -/
theorem accept_table {r : Result} {k : State → Result} {meaning byteIfTransmit : Prop} (hr : r = accept s k)
    (hmeaningless : ¬meaning → k s = .refused .noMeaningInLink)
    (hunloaded : meaning → ¬byteIfTransmit → k s = .refused .transmitUnspecifiedData)
    (haccepted : meaning → byteIfTransmit → ∃ t, k s = .next t) :
    (s.en = false → r = .refused .notEnabled) ∧
    (s.en = true → s.busy ≠ .none → r = .refused .commandInFlight) ∧
    (s.en = true → s.busy = .none → ¬meaning → r = .refused .noMeaningInLink) ∧
    (s.en = true → s.busy = .none → meaning → ¬byteIfTransmit → r = .refused .transmitUnspecifiedData) ∧
    (s.en = true → s.busy = .none → meaning → byteIfTransmit → ∃ t, r = .next t) := by
  subst hr
  refine ⟨accept_of_disabled k, accept_of_inFlight k, fun hen hbusy => ?_, fun hen hbusy => ?_, fun hen hbusy => ?_⟩
  all_goals rw [accept_of k hen hbusy]
  · exact hmeaningless
  · exact hunloaded
  · exact haccepted

/-- Settles O10: R66's table, row by row; START and STOP have a meaning in every `LINK`, and only TX needs a byte in DATA. -/
theorem busCommandAcceptance : Obligations.BusCommandAcceptance := by
  intro s i hbus meaning byteIfTransmit
  cases i with
  | nop ie en => exact absurd rfl (hbus ie en)
  | start ie | rstart ie | stop ie =>
    have hbyte : byteIfTransmit := nofun
    refine accept_table (k := fun s => .next (s.issue ie _)) rfl (fun hlink => ?_) (fun _ hno => ?_) fun _ _ => ?_
    · exact absurd trivial hlink
    · exact absurd hbyte hno
    · exact ⟨_, rfl⟩
  | rxAck ie | rxNack ie =>
    have hbyte : byteIfTransmit := nofun
    refine accept_table
      (k := fun s => if s.link.mayReceive then .next (s.issue ie (.rx _)) else .refused .noMeaningInLink) rfl
      (fun hlink => ?_) (fun _ hno => ?_) fun hlink _ => ?_
    · exact if_neg (mt mayReceive_iff.1 hlink)
    · exact absurd hbyte hno
    · exact ⟨_, if_pos (mayReceive_iff.2 hlink)⟩
  | tx ie =>
    refine accept_table (r := execTx ie s) (by rw [execTx]) (fun hlink => ?_) (fun hlink hno => ?_) fun hlink hbyte => ?_
    · exact if_neg (mt mayTransmit_iff.1 hlink)
    · have hdata : s.data = none := not_not.1 fun hne => hno fun _ _ => hne
      simp [mayTransmit_iff.2 hlink, hdata]
    · obtain ⟨b, hdata⟩ := Option.ne_none_iff_exists'.1 (hbyte ie rfl)
      simp [mayTransmit_iff.2 hlink, hdata]

end Sys2Proof.Machine
end

section
/-! The frame of a command at its CTRL write (R67, R130): by `exec_cases` it is one of NOP's three updates or one issue, and each
of these writes `IE`, `EN`, the slot, `RDY` and `FRESH` at most. -/

namespace Sys2Proof.Machine

variable {s t : State}

theorem exec_eq_update {i : Instr} (h : exec i s = .next t) :
    ∃ en busy rdy fresh, t = { s with ie := i.ie, en := en, busy := busy, rdy := rdy, fresh := fresh } := by
  rcases exec_cases h with ⟨ie, en, rfl, ⟨-, rfl⟩ | ⟨-, -, rfl⟩ | ⟨-, -, -, rfl⟩⟩ | ⟨-, -, b, -, rfl⟩
  · exact ⟨s.en, s.busy, s.rdy, s.fresh, rfl⟩
  · exact ⟨true, s.busy, s.rdy, s.fresh, rfl⟩
  · exact ⟨false, s.busy, false, false, rfl⟩
  · exact ⟨s.en, b, false, false, rfl⟩

/-- What NOP does to `EN` and the flags (R130 to R132); the slot stays. -/
theorem exec_nop_flags {ie en : Bool} (h : exec (.nop ie en) s = .next t) :
    t.en = en ∧ t.busy = s.busy ∧ (en = s.en ∨ en = true → t.rdy = s.rdy ∧ t.fresh = s.fresh) ∧
    (s.en = true ∧ en = false → t.rdy = false ∧ t.fresh = false) := by
  rcases execNop_eq_next.1 h with ⟨rfl, rfl⟩ | ⟨hoff, rfl, rfl⟩ | ⟨hon, rfl, -, rfl⟩
  · exact ⟨rfl, rfl, fun _ => ⟨rfl, rfl⟩, fun ⟨hon, hoff⟩ => by simp [hon] at hoff⟩
  · exact ⟨rfl, rfl, fun _ => ⟨rfl, rfl⟩, fun ⟨hon, _⟩ => by simp [hoff] at hon⟩
  · exact ⟨rfl, rfl, fun hkeep => by simp [hon] at hkeep, fun _ => ⟨rfl, rfl⟩⟩

/-- A bus command goes in flight from an enabled engine with nothing in flight, and `EN` stays (R66, R67). -/
theorem exec_bus_flags {i : Instr} (hbus : ∀ ie en, i ≠ .nop ie en) (h : exec i s = .next t) :
    t.en = s.en ∧ s.busy = .none ∧ t.busy ≠ .none ∧ t.rdy = false ∧ t.fresh = false := by
  rcases exec_cases h with ⟨ie, en, hnop, -⟩ | ⟨-, hbusy, b, hissues, rfl⟩
  · exact absurd hnop (hbus ie en)
  · exact ⟨rfl, hbusy, hissues.ne_none, rfl, rfl⟩

theorem readOr_rdata_congr {v : Option Byte} (h : v ≠ none) (s t : State) : (readOr v t).rdata = (readOr v s).rdata := by
  obtain ⟨b, hb⟩ := Option.ne_none_iff_exists'.1 h
  rw [readOr_some hb, readOr_some hb, State.returnByte_rdata, State.returnByte_rdata]

theorem readPresc_rdata_congr (hps : t.ps = s.ps) (h : s.ps ≠ none) : (readPresc t).rdata = (readPresc s).rdata := by
  obtain ⟨p, hp⟩ := Option.ne_none_iff_exists'.1 h
  rw [readPresc_some hp, readPresc_some (hps.trans hp), State.returnByte_rdata, State.returnByte_rdata]

/-- Settles O11: the fields and reads that stay follow from the shape of the update, the flags from the kind of command. -/
theorem commandWriteFrame : Obligations.CommandWriteFrame := by
  intro s t i h
  have hnop : ∀ ie en, i = .nop ie en → _ := fun ie en hi => exec_nop_flags (hi ▸ h)
  have hbus := fun hi => exec_bus_flags hi h
  obtain ⟨en, busy, rdy, fresh, rfl⟩ := exec_eq_update h
  exact ⟨rfl, rfl, rfl, rfl, rfl, rfl, rfl, rfl, rfl, rfl, rfl, rfl, fun hdata => readOr_rdata_congr hdata s _,
    fun hdiv => readOr_rdata_congr hdiv s _, readPresc_rdata_congr rfl, hnop, hbus⟩

end Sys2Proof.Machine
end

section
/-! The calls `read` and `write` (R146, R149): which arguments are refused, and where the other calls begin. -/

namespace Sys2Proof.Machine

variable {s : State} {slaveAddr : Nat} {byteCount : Byte} {bufferLength : Nat}

theorem callTxn_of_addressOutOfRange (kind : TxnKind) (reg : Byte) (hcount : byteCount ≠ 0#8) (haddr : 127 < slaveAddr) :
    callTxn slaveAddr byteCount bufferLength kind reg s = .refused .slaveAddressOutOfRange := by
  simp [callTxn, hcount, haddr]

theorem callTxn_of_bufferTooShort (kind : TxnKind) (reg : Byte) (hcount : byteCount ≠ 0#8) (haddr : slaveAddr ≤ 127)
    (hlen : bufferLength < byteCount.toNat) :
    callTxn slaveAddr byteCount bufferLength kind reg s = .refused .bufferTooShort := by
  simp [callTxn, hcount, haddr.not_gt, hlen]

theorem callTxn_of_inDomain (kind : TxnKind) (reg : Byte) (hcount : byteCount ≠ 0#8) (haddr : slaveAddr ≤ 127)
    (hlen : byteCount.toNat ≤ bufferLength) :
    callTxn slaveAddr byteCount bufferLength kind reg s = .next (beginTxn s kind (BitVec.ofNat 7 slaveAddr) reg) := by
  simp [callTxn, hcount, haddr.not_gt, hlen.not_gt]

theorem step_call_read (reg : Byte) (hidle : s.host = .idle) :
    step (s.given (.call (.read slaveAddr byteCount reg bufferLength))) =
      callTxn slaveAddr byteCount bufferLength (.read byteCount.toNat) reg s :=
  if_pos hidle

theorem step_call_write (reg : Byte) (source : List Byte) (hidle : s.host = .idle) :
    step (s.given (.call (.write slaveAddr byteCount reg source))) =
      callTxn slaveAddr byteCount source.length (.write (source.take byteCount.toNat)) reg s :=
  if_pos hidle

/-- Settles O44: both calls test their arguments by `callTxn`, in the order address, buffer. -/
theorem transactionArgumentDomains : Obligations.TransactionArgumentDomains := by
  intro s a n reg len src hidle hcount
  rw [step_call_read reg hidle, step_call_write reg src hidle]
  exact ⟨fun haddr => ⟨callTxn_of_addressOutOfRange _ reg hcount haddr, callTxn_of_addressOutOfRange _ reg hcount haddr⟩,
    callTxn_of_bufferTooShort _ reg hcount, callTxn_of_bufferTooShort _ reg hcount,
    callTxn_of_inDomain _ reg hcount, callTxn_of_inDomain _ reg hcount⟩

end Sys2Proof.Machine
end

section
/-! START (R80 to R86): its issue in every `LINK`, and its completion by the environment's answer. `startIsAccepted_cases` is read
here at the `LINK` the command was issued from. -/

namespace Sys2Proof.Machine

variable {s : State} {env : Env}

theorem startIsAccepted_of_idle (hlink : s.link = .idle) :
    startIsAccepted s = s.publish none .startOk .started (.startAttempt .fresh) := by
  rcases startIsAccepted_cases s with ⟨-, h⟩ | ⟨hheld, -⟩ | ⟨hunknown, -⟩
  · exact h
  · simp [holdsBus_iff, hlink] at hheld
  · simp [hlink] at hunknown

theorem startIsAccepted_of_holdsBus (hheld : s.holdsBus = true) :
    startIsAccepted s = s.publish none .repeatedStartOk .started (.startAttempt .repeated) := by
  rcases startIsAccepted_cases s with ⟨hidle, -⟩ | ⟨-, h⟩ | ⟨hunknown, -⟩
  · simp [holdsBus_iff, hidle] at hheld
  · exact h
  · simp [holdsBus_iff, hunknown] at hheld

theorem startIsAccepted_of_unknown (hlink : s.link = .unknown) :
    startIsAccepted s = s.drawn.publish none .startOk .started (.startAttempt .fresh) ∨
    startIsAccepted s = s.drawn.publish none .repeatedStartOk .started (.startAttempt .repeated) := by
  rcases startIsAccepted_cases s with ⟨hidle, -⟩ | ⟨hheld, -⟩ | ⟨-, h⟩
  · simp [hlink] at hidle
  · simp [holdsBus_iff, hlink] at hheld
  · exact h

/-- The completion step of a START in flight is decided by the answer of `env.start` (R81). -/
theorem step_complete_start (hbusy : s.busy = .start) :
    step (s.given (.complete env)) = .next (completeStart env.startAnswer s) := by
  simp only [step_given, apply, complete, hbusy]

theorem step_complete_start_accepted (hbusy : s.busy = .start) (hanswer : env.startAnswer = .accept) :
    step (s.given (.complete env)) = .next (startIsAccepted s) := by
  rw [step_complete_start hbusy, hanswer, completeStart]

/-- Settles O14: either draw of R86 is the publication of its own code and event. -/
theorem startFromUnknownReportsEither : Obligations.StartFromUnknownReportsEither := by
  intro s env hbusy hanswer hlink
  rw [step_complete_start_accepted hbusy hanswer]
  exact (startIsAccepted_of_unknown hlink).imp (congrArg _) (congrArg _)

/-- Settles O6: the issue of START asks nothing of `LINK`, and RSTART is the same command. -/
theorem startGoesInFlight : Obligations.StartGoesInFlight := by
  intro s ie hen hbusy
  have hissue : issueStart ie s = .next (s.issue ie .start) := issueStart_eq_next.2 ⟨hen, hbusy, rfl⟩
  exact ⟨hissue, hissue⟩

/-- Settles O12: `LINK` says whether the engine holds the bus, and that says which start it was. -/
theorem acceptedStartIsFreshOrRepeated : Obligations.AcceptedStartIsFreshOrRepeated := by
  intro s env hbusy hanswer
  rw [step_complete_start_accepted hbusy hanswer]
  exact ⟨fun hidle => congrArg _ (startIsAccepted_of_idle hidle),
    fun hheld => congrArg _ (startIsAccepted_of_holdsBus (holdsBus_iff.2 hheld))⟩

/-- Settles O13: the completion of a failed start does not look at `LINK`. -/
theorem failedStartReports : Obligations.FailedStartReports := by
  intro s env hbusy
  rw [step_complete_start hbusy]
  refine ⟨fun hcollide => ?_, fun herror => ?_⟩
  · rw [hcollide]; rfl
  · rw [herror]; rfl

end Sys2Proof.Machine
end

section
/-! TX (R90 to R97): its issue in `Started` and `MT`, and its completion by what `txReport` says of the byte in flight. -/

namespace Sys2Proof.Machine

variable {s : State} {env : Env} {b : Byte}

/-! ## Issue -/

theorem execTx_of_noMeaning {ie : Bool} (hen : s.en = true) (hbusy : s.busy = .none) (hlink : s.link.mayTransmit = false) :
    execTx ie s = .refused .noMeaningInLink := by
  simp [execTx, accept_of _ hen hbusy, hlink]

/-- Settles O8: `LINK` alone decides, since a byte stands in DATA. -/
theorem transmitCapturesData : Obligations.TransmitCapturesData := by
  intro s ie b hen hbusy hdata
  refine ⟨fun hlink => ?_, fun hlink => execTx_of_noMeaning hen hbusy ?_⟩
  · exact execTx_eq_next.2 ⟨hen, hbusy, mayTransmit_iff.2 hlink, b, hdata, rfl⟩
  · rcases hlink with hlink | hlink | hlink | hlink <;> rw [hlink] <;> rfl

/-! ## What the byte in flight reports -/

theorem txAcknowledged_of_write (hdir : dirBit b = false) (ack : Bool) :
    txAcknowledged .started b ack = if ack then (.mtSlaAck, .mt) else (.mtSlaNack, .halted) := by
  simp [txAcknowledged, hdir]

theorem txAcknowledged_of_read (hdir : dirBit b = true) (ack : Bool) :
    txAcknowledged .started b ack = if ack then (.mrSlaAck, .mr) else (.mrSlaNack, .halted) := by
  simp [txAcknowledged, hdir]

theorem txAcknowledged_of_data (b : Byte) (ack : Bool) :
    txAcknowledged .mt b ack = if ack then (.mtDataAck, .mt) else (.mtDataNack, .halted) := by
  simp [txAcknowledged]

/-! ## Completion -/

theorem complete_tx (hbusy : s.busy = .tx b) (hmay : s.link.mayTransmit = true) (env : Env) :
    complete env s = .next
      (s.publish none (txReport s.link b env.txAnswer).1 (txReport s.link b env.txAnswer).2 (.tx b env.txAnswer)) := by
  simp [complete, hbusy, completeTx, hmay]

/-- The completion step of a TX in flight publishes the report of its answer (R91). -/
theorem step_complete_tx {a : TxAnswer} {c : BusStatus} {l : Link} (hbusy : s.busy = .tx b)
    (hlink : s.link = .started ∨ s.link = .mt) (hreport : txReport s.link b a = (c, l)) (hanswer : env.txAnswer = a) :
    step (s.given (.complete env)) = .next (s.publish none c l (.tx b a)) := by
  rw [step_given, apply, complete_tx hbusy (mayTransmit_iff.2 hlink), hanswer, hreport]

/-- Settles O15: the address byte's direction picks the pair of reports, its acknowledge the report. -/
theorem addressByteReports : Obligations.AddressByteReports := by
  intro s env b hbusy hlink
  have report := fun a c l => step_complete_tx (env := env) (a := a) (c := c) (l := l) hbusy (.inl hlink)
  rw [hlink] at report
  refine ⟨fun hdir => report .ack _ _ ?_, fun hdir => report .nack _ _ ?_, fun hdir => report .ack _ _ ?_,
    fun hdir => report .nack _ _ ?_⟩
  · exact txAcknowledged_of_write hdir true
  · exact txAcknowledged_of_write hdir false
  · exact txAcknowledged_of_read hdir true
  · exact txAcknowledged_of_read hdir false

/-- Settles O16: a data byte has no direction bit. -/
theorem dataByteReports : Obligations.DataByteReports := by
  intro s env b hbusy hlink
  have report := fun a c l => step_complete_tx (env := env) (a := a) (c := c) (l := l) hbusy (.inr hlink)
  rw [hlink] at report
  exact ⟨report .ack _ _ (txAcknowledged_of_data b true), report .nack _ _ (txAcknowledged_of_data b false)⟩

/-- Settles O17: the report of a failed transmit looks at neither the byte nor `LINK`. -/
theorem failedTransmitReports : Obligations.FailedTransmitReports := by
  intro s env b hbusy hlink
  exact ⟨step_complete_tx hbusy hlink rfl, step_complete_tx hbusy hlink rfl⟩

end Sys2Proof.Machine
end

section
/-! Inputs one after another: `runInputs` does to a state what a list of inputs says, whatever comes after them, and a run takes
the inputs at the front of what is to come in that way (`run_eq_runInputs`). -/

namespace Sys2Proof.Machine

/-- What a list of inputs does to a state, stopping at the first fault or refusal. -/
def runInputs : List Input → State → Result
  | [], s => .next s
  | i :: ins, s => andThen (apply i s) (runInputs ins)

theorem runInputs_cons {i : Input} {s t : State} (ins : List Input) (h : apply i s = .next t) :
    runInputs (i :: ins) s = runInputs ins t := by
  rw [runInputs, h, andThen]

theorem runInputs_append {ins : List Input} {s t : State} (more : List Input) (h : runInputs ins s = .next t) :
    runInputs (ins ++ more) s = runInputs more t := by
  induction ins generalizing s with
  | nil => rw [List.nil_append, next_inj.1 h]
  | cons i ins ih =>
    obtain ⟨u, hu, hrest⟩ := andThen_eq_next.1 h
    rw [List.cons_append, runInputs_cons _ hu, ih hrest]

/-- A run takes the first inputs one by one and leaves the rest. -/
theorem run_setInputs {ins : List Input} {s t : State} (rest : List Input) (h : runInputs ins s = .next t) :
    core.run ins.length (s.setInputs (ins ++ rest)) = .next (t.setInputs rest) := by
  induction ins generalizing s with
  | nil =>
    obtain rfl := next_inj.1 h
    rfl
  | cons i ins ih =>
    obtain ⟨u, hu, hrest⟩ := andThen_eq_next.1 h
    have hstep : step (s.setInputs (i :: ins ++ rest)) = .next (u.setInputs (ins ++ rest)) := by
      change apply i (s.setInputs (ins ++ rest)) = _
      rw [apply_setInputs, hu]
      rfl
    exact (run_next hstep).trans (ih hrest)

theorem run_eq_runInputs {ins rest : List Input} {s t : State} (hinputs : s.inputs = ins ++ rest)
    (h : runInputs ins s = .next t) : core.run ins.length s = .next (t.setInputs rest) := by
  have hs : s.setInputs (ins ++ rest) = s := by rw [← hinputs]; rfl
  rw [← run_setInputs rest h, hs]

end Sys2Proof.Machine
end

section
/-! Polling in vain (R95, R198): while the command polled for has not completed, a host step reads CTRL and stays at its poll. -/

namespace Sys2Proof.Machine

variable {s : State} {p : Prim}

/-- The host's program stands at the poll of `p`, called on its own or by a transaction. -/
def HostControl.pollsFor (h : HostControl) (p : Prim) : Prop :=
  h = .prim p .poll ∨ ∃ t ph, h = .txn t ph .poll ∧ t.prim ph = p

/-- The command of `p` has not completed, as a poll sees it (R141 to R145). -/
def State.unanswered (s : State) (p : Prim) : Prop :=
  p ≠ .stop ∧ s.rdy = false ∨ p = .stop ∧ s.busy = .stop

theorem pollEnds_of_unanswered (h : s.unanswered p) : p.pollEnds s.ctrlByte = false := by
  rcases h with ⟨hne, hrdy⟩ | ⟨rfl, hbusy⟩
  · rw [pollEnds_of_ne_stop hne, hrdy]
  · rw [pollEnds_stop, sto_iff.2 hbusy]
    rfl

theorem next_poll_in_vain {v : Byte} (h : p.pollEnds v = false) : p.next .poll v = .at .poll := by
  simp [Prim.next, h]

/-- One poll in vain changes the byte read and nothing else. -/
theorem apply_host_in_vain (hpolls : s.host.pollsFor p) (hwait : s.unanswered p) :
    apply .host s = .next (s.returnByte s.ctrlByte) := by
  have hnext := next_poll_in_vain (pollEnds_of_unanswered hwait)
  have haccess : s.host.access = some (.read offCtrl) := by
    rcases hpolls with h | ⟨t, ph, h, rfl⟩ <;> rw [h] <;> exact access_poll _
  have hstays : ∀ soa, hostAfter soa (s.returnByte s.ctrlByte) = (s.returnByte s.ctrlByte).setHost s.host := by
    intro soa
    rcases hpolls with h | ⟨t, ph, h, rfl⟩ <;> simp only [hostAfter, State.returnByte_host, State.returnByte_rdata, h, hnext]
  exact hostStep_eq_next.2 ⟨_, _, haccess, rfl, (hstays _).symm⟩

/-- So does any number of them. -/
theorem runInputs_in_vain (n : Nat) (hpolls : s.host.pollsFor p) (hwait : s.unanswered p) :
    ∃ v, runInputs (List.replicate n .host) s = .next (s.returnByte v) := by
  induction n generalizing s with
  | zero => exact ⟨s.rdata, rfl⟩
  | succ n ih =>
    obtain ⟨v, hv⟩ := ih (s := s.returnByte s.ctrlByte) hpolls hwait
    exact ⟨v, (runInputs_cons _ (apply_host_in_vain hpolls hwait)).trans hv⟩

/-- Settles O42: `n` polls in vain, in a run that takes them one by one. -/
theorem stalledTransmitWaits : Obligations.StalledTransmitWaits := by
  intro n s b t ph rest hbusy hrdy hhost hprim hinputs
  obtain ⟨v, hv⟩ := runInputs_in_vain (s := s) (p := .writeByte b) n (.inr ⟨t, ph, hhost, hprim⟩) (.inl ⟨nofun, hrdy⟩)
  have hrun := run_eq_runInputs hinputs hv
  rw [List.length_replicate] at hrun
  exact ⟨v, hrun⟩

/-- The infinite run of a host that polls in vain: every poll reads the same byte. -/
def pollingRun (s : State) : Nat → State
  | 0 => s
  | _ + 1 => s.returnByte s.ctrlByte

theorem endlessRun_pollingRun (hpolls : s.host.pollsFor p) (hwait : s.unanswered p) :
    EndlessRun (fun _ => .host) (pollingRun s) := by
  intro n
  rw [step_given]
  cases n with
  | zero => exact apply_host_in_vain hpolls hwait
  | succ n => exact apply_host_in_vain (s := s.returnByte s.ctrlByte) hpolls hwait

/-- Settles O59: the polling run starts where the host stands, and nothing but the byte read changes in it. -/
theorem unansweredCommandIsPolledForEver : Obligations.UnansweredCommandIsPolledForEver := by
  intro s p hpolls hwait
  refine ⟨pollingRun s, rfl, endlessRun_pollingRun hpolls hwait, fun n => ?_⟩
  cases n <;> exact ⟨rfl, rfl, rfl, rfl⟩

end Sys2Proof.Machine
end

section
/-! A transaction on a bus where nothing goes wrong (R150 to R155, R160): a phase runs its primitive line by line, from the first
to the return of its result (`leadsTo_phase`), whatever its primitive is. -/

namespace Sys2Proof.Machine

/-! ## Stretches of a run -/

/-- From every state with `P` the inputs `ins` lead to a state with `Q`. -/
def LeadsTo (P : State → Prop) (ins : List Input) (Q : State → Prop) : Prop :=
  ∀ s, P s → ∃ t, runInputs ins s = .next t ∧ Q t

theorem LeadsTo.append {P Q R : State → Prop} {ins more : List Input} (h : LeadsTo P ins Q) (hmore : LeadsTo Q more R) :
    LeadsTo P (ins ++ more) R := by
  intro s hs
  obtain ⟨t, ht, hQ⟩ := h s hs
  obtain ⟨u, hu, hR⟩ := hmore t hQ
  exact ⟨u, (runInputs_append more ht).trans hu, hR⟩

theorem leadsTo_of_apply {P Q : State → Prop} {i : Input} (h : ∀ s, P s → ∃ t, apply i s = .next t ∧ Q t) :
    LeadsTo P [i] Q := by
  intro s hs
  obtain ⟨t, ht, hQ⟩ := h s hs
  exact ⟨t, runInputs_cons [] ht, hQ⟩

/-! ## A good bus, primitive by primitive -/

/-- The values of `LINK` from which a good bus gives a primitive one event: a byte is sent or received where that has a meaning
(R24), a start where the bus is known to be held or not (R86). -/
def Prim.meaningIn (l : Link) : Prim → Prop
  | .start => l ≠ .unknown
  | .writeByte _ => l.mayTransmit = true
  | .readByte _ => l = .mr
  | .stop => True

/-- The event of a primitive's command from `l`; a receive gets the byte `d`. -/
def Prim.goodEvent (l : Link) (d : Byte) : Prim → BusEvent
  | .start => .startAttempt (if l = .idle then .fresh else .repeated)
  | .writeByte b => .tx b .ack
  | .readByte k => .rx d k .ok
  | .stop => .stop (l != .idle)

/-- The `LINK` it leaves. -/
def Prim.goodLink (l : Link) : Prim → Link
  | .start => .started
  | .writeByte b => (txReport l b .ack).2
  | .readByte k => if k then .mr else .halted
  | .stop => .idle

/-- What the primitive returns. -/
def Prim.goodResult (d : Byte) : Prim → PrimResult
  | .start => .accepted true
  | .writeByte _ => .outcome .acked
  | .readByte _ => .byte d
  | .stop => .done

theorem sends_startAnswer (d : Byte) : (Env.sends d).startAnswer = .accept := rfl

theorem sends_rxAnswer (d : Byte) : (Env.sends d).rxAnswer = .ok d := rfl

theorem holdsBus_of_known {s : State} (hidle : s.link ≠ .idle) (hknown : s.link ≠ .unknown) : s.holdsBus = true := by
  rw [holdsBus_iff]
  cases hlink : s.link <;> simp_all

/-- An acknowledged byte is a known-good status, so `write_byte` returns Acked (R92 to R94, R123). -/
theorem outcomeOf_txReport_ack {l : Link} {b : Byte} (hmay : l.mayTransmit = true) :
    outcomeOf (statusByte (txReport l b .ack).1.code) = .acked := by
  rw [← beq_iff_eq, outcomeOf_statusByte, knownGood_iff, txReport]
  rcases mayTransmit_iff.1 hmay with rfl | rfl
  · cases hdir : dirBit b
    · exact .inl (by rw [txAcknowledged_of_write hdir]; rfl)
    · exact .inr (.inl (by rw [txAcknowledged_of_read hdir]; rfl))
  · exact .inr (.inr (by rw [txAcknowledged_of_data]; rfl))

/-! ## The places of a phase -/

/-- The engine is enabled, with `LINK = l` and the events `es` behind it. -/
def BusAt (l : Link) (es : List BusEvent) (s : State) : Prop :=
  s.en = true ∧ s.link = l ∧ s.trace = es

/-- The same with no command in flight. -/
def QuietAt (l : Link) (es : List BusEvent) (s : State) : Prop :=
  BusAt l es s ∧ s.busy = .none

/-- The engine holds what the primitive `p` makes the result `r` of: a byte in DATA, or an unread status (R141 to R145). -/
def HoldsResult (p : Prim) (r : PrimResult) (s : State) : Prop :=
  match p with
  | .stop => r = .done
  | .readByte _ => s.rdy = true ∧ ∃ d, s.data = some d ∧ r = p.result d
  | .start | .writeByte _ => s.rdy = true ∧ s.fresh = true ∧ ∃ c, s.code = some c ∧ r = p.result (statusByte c.code)

section
variable (t : Txn) (ph : Phase) (r : PrimResult) (st : TxnStatus) (l : Link) (es : List BusEvent) (s : State)

/-- The transaction is at the first line of its phase. -/
def Begins : Prop := s.host = .txn t ph (t.prim ph).first ∧ QuietAt l es s

/-- It is at the CTRL write, the byte of a transmit being loaded. -/
def Loaded : Prop := s.host = .txn t ph .issue ∧ QuietAt l es s ∧ ∀ b, t.prim ph = .writeByte b → s.data = some b

/-- It polls, with its command in flight. -/
def Waits : Prop := s.host = .txn t ph .poll ∧ BusAt l es s ∧ s.busy = (t.prim ph).flight ∧ s.rdy = false

/-- It polls, and its command has completed with the result `r`. -/
def Answered : Prop := s.host = .txn t ph .poll ∧ QuietAt l es s ∧ HoldsResult (t.prim ph) r s

/-- It has returned `st`. -/
def Returned : Prop := s.host = .idle ∧ s.returned = some (.txn st t.destination) ∧ QuietAt l es s

/-- It has gone on as `next` says. -/
def Arrives (next : TxnNext) : Prop :=
  match next with
  | .enter t' ph' => Begins t' ph' l es s
  | .returns st => Returned t st l es s

end

section
variable {t : Txn} {ph : Phase} {r : PrimResult} {l : Link} {es : List BusEvent} {s : State}

theorem quietAt_memRead (off : Offset) (h : QuietAt l es s) : QuietAt l es (memRead off s) := by
  obtain ⟨f, v, n, hread, -⟩ := memRead_eq off s
  rw [hread]
  exact h

theorem arrives_txnMoves (next : TxnNext) (h : QuietAt l es s) : Arrives t l es (s.txnMoves t next) next := by
  cases next with
  | enter t' ph' => exact ⟨rfl, h⟩
  | returns st => exact ⟨rfl, rfl, h⟩

/-! ## The lines of a primitive within a transaction -/

/-- A host step at a line of the listing that has a next line. -/
theorem apply_host_at {pos pos' : PrimPos} {a : Access} {u : State} (hhost : s.host = .txn t ph pos)
    (haccess : (t.prim ph).access pos = some a) (hdo : access a s = .next u)
    (hnext : (t.prim ph).next pos u.rdata = .at pos') : apply .host s = .next (u.setHost (.txn t ph pos')) := by
  refine hostStep_eq_next.2 ⟨a, u, by rw [hhost]; exact haccess, hdo, ?_⟩
  simp only [hostAfter, (access_host hdo).1, hhost, hnext]

/-- A host step at the line whose byte is the result. -/
theorem apply_host_returns {pos : PrimPos} {a : Access} {u : State} (hhost : s.host = .txn t ph pos)
    (haccess : (t.prim ph).access pos = some a) (hdo : access a s = .next u)
    (hnext : (t.prim ph).next pos u.rdata = .returns r) :
    apply .host s = .next (u.txnMoves t (t.next Config.stopOnAbort ph r)) := by
  refine hostStep_eq_next.2 ⟨a, u, by rw [hhost]; exact haccess, hdo, ?_⟩
  simp only [hostAfter, (access_host hdo).1, hhost, hnext]

theorem pollEnds_of_holdsResult {p : Prim} (hbusy : s.busy = .none) (h : HoldsResult p r s) :
    p.pollEnds s.ctrlByte = true := by
  by_cases hstop : p = .stop
  · rw [hstop, pollEnds_stop, State.sto, hbusy]
    rfl
  · rw [pollEnds_of_ne_stop hstop]
    cases p with
    | stop => exact absurd rfl hstop
    | start | writeByte | readByte => exact h.1

/-- The read that takes the result finds it. -/
theorem take_of_holdsResult {p : Prim} (hne : p ≠ .stop) (h : HoldsResult p r s) :
    ∃ off, p.access .take = some (.read off) ∧ p.result (memRead off s).rdata = r := by
  cases p with
  | stop => exact absurd rfl hne
  | start | writeByte =>
    obtain ⟨-, hfresh, c, hcode, rfl⟩ := h
    have hread : (memRead offStatus s).rdata = statusByte c.code := congrArg State.rdata (readStatus_of_fresh hfresh hcode)
    exact ⟨offStatus, rfl, congrArg _ hread⟩
  | readByte =>
    obtain ⟨-, d, hdata, rfl⟩ := h
    exact ⟨offData, rfl, by rw [memRead_data, readOr_some hdata, State.returnByte_rdata]⟩

/-! ## The engine within a phase -/

/-- The completion of a primitive's command on a good bus leaves the engine with its result. -/
theorem complete_good {p : Prim} {d : Byte} (hmeaning : p.meaningIn l) (hbus : BusAt l es s) (hbusy : s.busy = p.flight) :
    ∃ u, complete (.sends d) s = .next u ∧ u.host = s.host ∧ QuietAt (p.goodLink l) (es ++ [p.goodEvent l d]) u ∧
      HoldsResult p (p.goodResult d) u := by
  obtain ⟨hen, rfl, rfl⟩ := hbus
  cases p with
  | start =>
    refine ⟨startIsAccepted s, by simp [complete, hbusy, Prim.flight, sends_startAnswer, completeStart], ?_⟩
    by_cases hidle : s.link = .idle
    · rw [startIsAccepted_of_idle hidle, hidle]
      exact ⟨rfl, ⟨⟨hen, rfl, rfl⟩, rfl⟩, rfl, rfl, .startOk, rfl, rfl⟩
    · rw [startIsAccepted_of_holdsBus (holdsBus_of_known hidle hmeaning)]
      exact ⟨rfl, ⟨⟨hen, rfl, by simp [Prim.goodEvent, hidle]⟩, rfl⟩, rfl, rfl, .repeatedStartOk, rfl, rfl⟩
  | writeByte b =>
    refine ⟨_, complete_tx hbusy hmeaning _, rfl, ⟨⟨hen, rfl, rfl⟩, rfl⟩, rfl, rfl, (txReport s.link b .ack).1, rfl, ?_⟩
    rw [Prim.result, outcomeOf_txReport_ack hmeaning]
    rfl
  | readByte k =>
    refine ⟨completeRx k (.ok d) s, by simp only [complete, hbusy, Prim.flight, sends_rxAnswer], ?_⟩
    exact ⟨rfl, ⟨⟨hen, rfl, rfl⟩, rfl⟩, rfl, d, rfl, rfl⟩
  | stop =>
    exact ⟨completeStop s, by simp only [complete, hbusy, Prim.flight], rfl, ⟨⟨hen, rfl, rfl⟩, rfl⟩, rfl⟩

end

/-! ## A whole phase -/

section
variable {t : Txn} {ph : Phase} {r : PrimResult} {l : Link} {es : List BusEvent}

/-- The inputs of `Prim.schedule` before the CTRL write. -/
def Prim.opening : Prim → List Input
  | .writeByte _ => [.host]
  | .start | .stop | .readByte _ => []

/-- Those after the poll that ends. -/
def Prim.closing : Prim → List Input
  | .stop => []
  | .start | .writeByte _ | .readByte _ => [.host]

theorem schedule_eq (p : Prim) (polls : Nat) (env : Env) :
    p.schedule polls env =
      p.opening ++ ([Input.host] ++
        (List.replicate polls Input.host ++ ([Input.complete env] ++ ([Input.host] ++ p.closing)))) := by
  cases p <;> simp [Prim.schedule, Prim.opening, Prim.closing]

theorem leadsTo_loaded : LeadsTo (Begins t ph l es) (t.prim ph).opening (Loaded t ph l es) := by
  cases hp : t.prim ph with
  | writeByte b =>
    refine leadsTo_of_apply fun s ⟨hhost, hquiet⟩ => ?_
    rw [hp] at hhost
    have haccess : (t.prim ph).access .load = some (.write offData b) := by rw [hp]; rfl
    have hload : access (.write offData b) s = .next (s.loadData b) := writeData_of_busy_none hquiet.2 b
    refine ⟨_, apply_host_at hhost haccess hload rfl, rfl, hquiet, fun b' hb' => ?_⟩
    obtain rfl : b = b' := by simpa using hp.symm.trans hb'
    rfl
  | start | stop | readByte =>
    rintro s ⟨hhost, hquiet⟩
    rw [hp] at hhost
    exact ⟨s, rfl, hhost, hquiet, fun b hb => nomatch hp.symm.trans hb⟩

theorem leadsTo_waits (hmeaning : (t.prim ph).meaningIn l) : LeadsTo (Loaded t ph l es) [.host] (Waits t ph l es) := by
  refine leadsTo_of_apply fun s ⟨hhost, ⟨⟨hen, hlink, htrace⟩, hbusy⟩, hdata⟩ => ?_
  subst hlink
  have htx : ∀ b, t.prim ph = .writeByte b → s.data = some b ∧ s.link.mayTransmit = true := by
    intro b hb
    rw [hb] at hmeaning
    exact ⟨hdata b hb, hmeaning⟩
  rcases issue_prim (t.prim ph) s hen hbusy htx with hissue | ⟨⟨k, hk⟩, hlink, -⟩
  · exact ⟨_, apply_host_at hhost (access_issue _) hissue rfl, rfl, ⟨hen, rfl, htrace⟩, rfl, rfl⟩
  · rw [hk] at hmeaning
    exact absurd hmeaning hlink

theorem leadsTo_polls (polls : Nat) : LeadsTo (Waits t ph l es) (List.replicate polls .host) (Waits t ph l es) := by
  intro s h
  obtain ⟨hhost, -, hbusy, hrdy⟩ := id h
  have hwait : s.unanswered (t.prim ph) := by
    by_cases hstop : t.prim ph = .stop
    · exact .inr ⟨hstop, by rw [hbusy, hstop]; rfl⟩
    · exact .inl ⟨hstop, hrdy⟩
  obtain ⟨v, hv⟩ := runInputs_in_vain polls (.inr ⟨t, ph, hhost, rfl⟩) hwait
  exact ⟨_, hv, h⟩

theorem leadsTo_answered (d : Byte) (hmeaning : (t.prim ph).meaningIn l) :
    LeadsTo (Waits t ph l es) [.complete (.sends d)] (Answered t ph ((t.prim ph).goodResult d) ((t.prim ph).goodLink l)
      (es ++ [(t.prim ph).goodEvent l d])) := by
  refine leadsTo_of_apply fun s ⟨hhost, hbus, hbusy, _⟩ => ?_
  obtain ⟨u, hu, hsame, hquiet, hholds⟩ := complete_good hmeaning hbus hbusy
  exact ⟨u, hu, hsame.trans hhost, hquiet, hholds⟩

theorem leadsTo_arrives :
    LeadsTo (Answered t ph r l es) ([.host] ++ (t.prim ph).closing)
      (fun s => Arrives t l es s (t.next Config.stopOnAbort ph r)) := by
  rintro s ⟨hhost, hquiet, hholds⟩
  have hends := pollEnds_of_holdsResult hquiet.2 hholds
  have hpoll : access (.read offCtrl) s = .next (s.returnByte s.ctrlByte) := rfl
  by_cases hstop : t.prim ph = .stop
  · have hreturns : (t.prim ph).next .poll s.ctrlByte = .returns r := by
      rw [hstop] at hends hholds ⊢
      simp [Prim.next, hends, show r = .done from hholds]
    refine ⟨_, ?_, arrives_txnMoves _ (s := s.returnByte s.ctrlByte) hquiet⟩
    rw [hstop]
    exact runInputs_cons [] (apply_host_returns hhost (access_poll _) hpoll hreturns)
  · have htake : (t.prim ph).next .poll s.ctrlByte = .at .take := by simp [Prim.next, hends, hstop]
    obtain ⟨off, haccess, hresult⟩ := take_of_holdsResult hstop
      (s := (s.returnByte s.ctrlByte).setHost (.txn t ph .take)) hholds
    have hreturns := apply_host_returns rfl haccess rfl (congrArg PrimNext.returns hresult)
    have hclosing : (t.prim ph).closing = [.host] := by
      cases hp : t.prim ph with
      | stop => exact absurd hp hstop
      | start | writeByte | readByte => rfl
    rw [hclosing]
    refine ⟨_, (runInputs_cons _ (apply_host_at hhost (access_poll _) hpoll htake)).trans (runInputs_cons [] hreturns), ?_⟩
    exact arrives_txnMoves _ (quietAt_memRead off hquiet)

/-- A phase on a good bus: its primitive's event is added, and the transaction goes on with its result. -/
theorem leadsTo_phase (polls : Nat) (d : Byte) (hmeaning : (t.prim ph).meaningIn l) :
    LeadsTo (Begins t ph l es) ((t.prim ph).schedule polls (.sends d))
      (fun s => Arrives t ((t.prim ph).goodLink l) (es ++ [(t.prim ph).goodEvent l d]) s
        (t.next Config.stopOnAbort ph ((t.prim ph).goodResult d))) := by
  rw [schedule_eq]
  exact leadsTo_loaded.append ((leadsTo_waits hmeaning).append ((leadsTo_polls polls).append
    ((leadsTo_answered d hmeaning).append leadsTo_arrives)))

end

end Sys2Proof.Machine
end

section
/-! A whole `read` and a whole `write` on a good bus (R160): the phases in the order of the listing, each by `leadsTo_enter`, the
bytes by induction on those still to come. -/

namespace Sys2Proof.Machine

variable {t t' : Txn} {ph ph' : Phase} {l : Link} {es : List BusEvent} (polls : Nat)

/-- A phase on a good bus whose result leads on to another phase. -/
theorem leadsTo_enter (d : Byte) (hmeaning : (t.prim ph).meaningIn l)
    (hnext : t.next Config.stopOnAbort ph ((t.prim ph).goodResult d) = .enter t' ph') :
    LeadsTo (Begins t ph l es) ((t.prim ph).schedule polls (.sends d))
      (Begins t' ph' ((t.prim ph).goodLink l) (es ++ [(t.prim ph).goodEvent l d])) := by
  have h := leadsTo_phase (es := es) polls d hmeaning
  rwa [hnext] at h

/-! ## The addressed slave -/

/-- An acknowledged address byte turns the engine to its direction (R92, R93). -/
theorem link_of_addressed (slave : SlaveAddr) (read : Bool) :
    (txReport .started (addrByte slave read) .ack).2 = if read then .mr else .mt := by
  cases read
  · rw [txReport, txAcknowledged_of_write (dirBit_addrByte slave false)]
    rfl
  · rw [txReport, txAcknowledged_of_read (dirBit_addrByte slave true)]
    rfl

/-- The slave is acquired for writing at the first attempt (R150). -/
theorem leadsTo_acquired (hknown : l ≠ .unknown) :
    LeadsTo (Begins t .startPending l es)
      (Prim.start.schedule polls (.sends 0#8) ++ (Prim.writeByte (addrByte t.slave false)).schedule polls (.sends 0#8))
      (Begins t .offsetPhase .mt (es ++
        [BusEvent.startAttempt (if l = .idle then .fresh else .repeated), .tx (addrByte t.slave false) .ack])) := by
  have hstart : LeadsTo (Begins t .startPending l es) (Prim.start.schedule polls (.sends 0#8))
      (Begins t .addressPending .started _) := leadsTo_enter polls 0#8 hknown rfl
  have haddress := hstart.append (leadsTo_enter polls 0#8 (t' := t) (ph' := .offsetPhase) rfl rfl)
  simpa [Txn.prim, Prim.goodEvent, Prim.goodLink, link_of_addressed] using haddress

/-- The offset byte is sent, and the data phase begins (R151). -/
theorem leadsTo_offsetSent (hafter : t.afterOffset = .enter t ph) :
    LeadsTo (Begins t .offsetPhase .mt es) ((Prim.writeByte t.deviceRegister).schedule polls (.sends 0#8))
      (Begins t ph .mt (es ++ [BusEvent.tx t.deviceRegister .ack])) :=
  leadsTo_enter polls 0#8 rfl hafter

/-- The bus is turned round for reading (R152). -/
theorem leadsTo_turnedRound {n : Nat} (hkind : t.kind = .read n) :
    LeadsTo (Begins t .repeatedStart .mt es)
      (Prim.start.schedule polls (.sends 0#8) ++ (Prim.writeByte (addrByte t.slave true)).schedule polls (.sends 0#8))
      (Begins t (.readData (n - 1)) .mr (es ++ [BusEvent.startAttempt .repeated, .tx (addrByte t.slave true) .ack])) := by
  have hstart : LeadsTo (Begins t .repeatedStart .mt es) (Prim.start.schedule polls (.sends 0#8))
      (Begins t .readAddressPending .started _) := leadsTo_enter polls 0#8 nofun rfl
  have haddress := hstart.append (leadsTo_enter polls 0#8 (t' := t) (ph' := .readData (n - 1)) rfl
    (show t.afterReadAddress = _ by rw [Txn.afterReadAddress, hkind]))
  simpa [Txn.prim, Prim.goodEvent, Prim.goodLink, link_of_addressed] using haddress

/-! ## The bytes -/

/-- The bytes of a read are received in order, all acknowledged but the last (R153). -/
theorem leadsTo_received (d : Byte) (rest : List Byte) :
    LeadsTo (Begins t (.readData rest.length) .mr es)
      ((d :: rest).flatMap fun d => (Prim.readByte true).schedule polls (.sends d))
      (Begins { t with destination := t.destination ++ d :: rest } (.stopping .success) .halted
        (es ++ receiveEvents (d :: rest))) := by
  induction rest generalizing d t es with
  | nil =>
    rw [List.flatMap_singleton]
    exact leadsTo_enter polls d rfl rfl
  | cons e rest ih =>
    have hfirst : LeadsTo (Begins t (.readData (e :: rest).length) .mr es) ((Prim.readByte true).schedule polls (.sends d))
        (Begins { t with destination := t.destination ++ [d] } (.readData rest.length) .mr (es ++ [BusEvent.rx d true .ok])) :=
      leadsTo_enter polls d rfl rfl
    have hall := hfirst.append (ih e)
    simpa [receiveEvents] using hall

/-- The bytes of a write are sent in order (R155). -/
theorem leadsTo_sent (b : Byte) (rest : List Byte) :
    LeadsTo (Begins t (.writeData b rest) .mt es)
      ((b :: rest).flatMap fun b => (Prim.writeByte b).schedule polls (.sends 0#8))
      (Begins t (.stopping .success) .mt (es ++ (b :: rest).map fun b => BusEvent.tx b .ack)) := by
  induction rest generalizing b es with
  | nil =>
    rw [List.flatMap_singleton]
    exact leadsTo_enter polls 0#8 rfl rfl
  | cons c rest ih =>
    have hfirst : LeadsTo (Begins t (.writeData b (c :: rest)) .mt es) ((Prim.writeByte b).schedule polls (.sends 0#8))
        (Begins t (.writeData c rest) .mt (es ++ [BusEvent.tx b .ack])) := leadsTo_enter polls 0#8 rfl rfl
    have hall := hfirst.append (ih c)
    simpa using hall

/-! ## The whole call -/

/-- The stop of the last phase releases a bus that is held (R111, R154). -/
theorem leadsTo_returned (st : TxnStatus) (hheld : l ≠ .idle) :
    LeadsTo (Begins t (.stopping st) l es) (Prim.stop.schedule polls (.sends 0#8))
      (Returned t st .idle (es ++ [BusEvent.stop true])) := by
  have hheld' : (l != .idle) = true := bne_iff_ne.2 hheld
  have h := leadsTo_phase (t := t) (ph := .stopping st) (l := l) (es := es) polls 0#8 trivial
  rw [Txn.prim, Prim.goodEvent, hheld'] at h
  exact h

/-- A read from its first start to its return: the slave, the offset, the bus turned round, the bytes, the stop (R152 to R154). -/
theorem leadsTo_read {bytes : List Byte} (hknown : l ≠ .unknown) (hne : bytes ≠ [])
    (hkind : t.kind = .read bytes.length) :
    LeadsTo (Begins t .startPending l es) (readSchedule polls t.slave t.deviceRegister bytes)
      (Returned { t with destination := t.destination ++ bytes } .success .idle
        (es ++ [BusEvent.startAttempt (if l = .idle then .fresh else .repeated), .tx (addrByte t.slave false) .ack,
          .tx t.deviceRegister .ack, .startAttempt .repeated, .tx (addrByte t.slave true) .ack] ++
          receiveEvents bytes ++ [BusEvent.stop true])) := by
  obtain ⟨d, rest, rfl⟩ := List.exists_cons_of_ne_nil hne
  have hoffset := (leadsTo_acquired (es := es) polls hknown).append
    (leadsTo_offsetSent polls (ph := .repeatedStart) (by rw [Txn.afterOffset, hkind]))
  have hturned := hoffset.append (leadsTo_turnedRound polls hkind)
  have hreceived := hturned.append (leadsTo_received polls d rest)
  have hstopped := hreceived.append (leadsTo_returned polls .success nofun)
  simpa only [readSchedule, List.append_assoc, List.cons_append, List.nil_append] using hstopped

/-- A write from its first start to its return: the slave, the offset, the bytes, the stop (R155). -/
theorem leadsTo_write {bytes : List Byte} (hknown : l ≠ .unknown) (hne : bytes ≠ []) (hkind : t.kind = .write bytes) :
    LeadsTo (Begins t .startPending l es) (writeSchedule polls t.slave t.deviceRegister bytes)
      (Returned t .success .idle
        (es ++ [BusEvent.startAttempt (if l = .idle then .fresh else .repeated), .tx (addrByte t.slave false) .ack,
          .tx t.deviceRegister .ack] ++ bytes.map (fun b => BusEvent.tx b .ack) ++ [BusEvent.stop true])) := by
  obtain ⟨b, rest, rfl⟩ := List.exists_cons_of_ne_nil hne
  have hoffset := (leadsTo_acquired (es := es) polls hknown).append
    (leadsTo_offsetSent polls (ph := .writeData b rest) (by rw [Txn.afterOffset, hkind]))
  have hsent := hoffset.append (leadsTo_sent polls b rest)
  have hstopped := hsent.append (leadsTo_returned polls .success nofun)
  simpa only [writeSchedule, List.append_assoc, List.cons_append, List.nil_append] using hstopped

/-- A call that begins a transaction, and whose transaction then goes well, returns from a run that ended well (R9, R197). -/
theorem run_of_leadsTo {s : State} {c : HostCall} {kind : TxnKind} {slave : SlaveAddr} {reg : Byte}
    {ins rest : List Input} {st : TxnStatus} (hready : s.readyForCall)
    (hcall : step (s.given (.call c)) = .next (beginTxn s kind slave reg))
    (hleads : LeadsTo (Begins ⟨kind, slave, reg, [], Config.retryBudget⟩ .startPending s.link s.trace) ins
      (Returned t st .idle es))
    (hinputs : s.inputs = .call c :: ins ++ rest) :
    ∃ u : State, core.run (.call c :: ins : List Input).length s = .next u ∧ u.returned = some (.txn st t.destination) ∧
      u.endedWell ∧ u.busReleased ∧ u.inputs = rest ∧ u.trace = es := by
  obtain ⟨-, hen, hbusy⟩ := hready
  rw [step_given] at hcall
  obtain ⟨u, hu, hidle, hreturned, ⟨-, hlink, htrace⟩, hquiet⟩ :=
    hleads (beginTxn s kind slave reg) ⟨rfl, ⟨hen, rfl, rfl⟩, hbusy⟩
  exact ⟨u.setInputs rest, run_eq_runInputs hinputs ((runInputs_cons ins hcall).trans hu), hreturned,
    endedWell_of_idle hidle hquiet, hlink, rfl, htrace⟩

/-- Settles O55: the call begins a transaction that `leadsTo_read` follows to its return. -/
theorem readDeliversTheBytes : Obligations.ReadDeliversTheBytes := by
  intro s polls a len n reg bytes rest hready hknown haddr hlen hpos hbuffer slave schedule hinputs
  have hcount : n ≠ 0#8 := fun h => absurd hpos (by rw [h]; decide)
  have hne : bytes ≠ [] := List.ne_nil_of_length_pos (hlen ▸ hpos)
  have hcall := (step_call_read reg hready.1).trans (callTxn_of_inDomain (.read n.toNat) reg hcount haddr hbuffer)
  exact run_of_leadsTo hready hcall (leadsTo_read polls hknown hne (congrArg TxnKind.read hlen.symm)) hinputs

/-- Settles O56: the same by `leadsTo_write`. -/
theorem writeDeliversTheBytes : Obligations.WriteDeliversTheBytes := by
  intro s polls a n reg source rest hready hknown haddr hpos hbuffer slave bytes schedule hinputs
  have hcount : n ≠ 0#8 := fun h => absurd hpos (by rw [h]; decide)
  have hlen : bytes.length = n.toNat := List.length_take_of_le hbuffer
  have hne : bytes ≠ [] := List.ne_nil_of_length_pos (hlen ▸ hpos)
  have hcall := (step_call_write reg source hready.1).trans (callTxn_of_inDomain (.write bytes) reg hcount haddr hbuffer)
  exact run_of_leadsTo hready hcall (leadsTo_write polls hknown hne rfl) hinputs

end Sys2Proof.Machine
end

section
/-! RX_ACK and RX_NACK (R100 to R104): their issue in `MR` and nowhere else, and their completion by the environment's answer. -/

namespace Sys2Proof.Machine

variable {s : State} {env : Env} {k : Bool}

theorem issueRx_of_noMeaning {ie : Bool} (hen : s.en = true) (hbusy : s.busy = .none) (hlink : s.link ≠ .mr) :
    issueRx ie k s = .refused .noMeaningInLink := by
  rw [issueRx, accept_of _ hen hbusy]
  exact if_neg (mt mayReceive_iff.1 hlink)

/-- Settles O9: `LINK` alone decides, and the two receives differ only in the acknowledge choice they put in the slot. -/
theorem receivesGoInFlight : Obligations.ReceivesGoInFlight := by
  intro s ie hen hbusy
  refine ⟨fun hlink => ?_, fun hlink => ?_⟩
  · have hissue : ∀ k, issueRx ie k s = .next (s.issue ie (.rx k)) := fun k => issueRx_eq_next.2 ⟨hen, hbusy, hlink, rfl⟩
    exact ⟨hissue true, hissue false⟩
  · exact ⟨issueRx_of_noMeaning hen hbusy hlink, issueRx_of_noMeaning hen hbusy hlink⟩

/-- The completion step of a receive in flight is decided by its acknowledge choice and the answer of `env.rx(k)`, in any `LINK`. -/
theorem step_complete_rx {a : RxAnswer} (hbusy : s.busy = .rx k) (hanswer : env.rxAnswer = a) :
    step (s.given (.complete env)) = .next (completeRx k a s) := by
  simp only [step_given, apply, complete, hbusy, hanswer]

/-- Settles O18: the acknowledge choice in the slot picks the status and the `LINK` published with the byte. -/
theorem receivedByteLandsInData : Obligations.ReceivedByteLandsInData := by
  intro s env d hanswer
  refine ⟨fun hack => ?_, fun hnack => ?_⟩
  · exact step_complete_rx hack hanswer
  · exact step_complete_rx hnack hanswer

/-- Settles O19: the byte of the event is the draw that the step counts, whatever the acknowledge choice. -/
theorem failedReceiveReports : Obligations.FailedReceiveReports := by
  intro s env k hbusy
  refine ⟨fun hlost => ⟨Config.anyByte s.draws, ?_⟩, fun herror => ⟨Config.anyByte s.draws, ?_⟩⟩
  · exact step_complete_rx hbusy hlost
  · exact step_complete_rx hbusy herror

end Sys2Proof.Machine
end

section
/-! STOP (R110 to R114): its issue in every `LINK`, its completion with and without a stop condition on the bus, and the read of
STATUS after it. -/

namespace Sys2Proof.Machine

variable {s : State}

theorem completeStop_of_not_idle (hlink : s.link ≠ .idle) : completeStop s = s.stopped true :=
  congrArg s.stopped (bne_iff_ne.2 hlink)

theorem completeStop_of_idle (hlink : s.link = .idle) : completeStop s = s.stopped false := by
  rw [completeStop, hlink, bne_self_eq_false]

/-- The completion step of a STOP in flight asks the environment nothing (R115). -/
theorem step_complete_stop (hbusy : s.busy = .stop) (env : Env) :
    step (s.given (.complete env)) = .next (completeStop s) := by
  simp only [step_given, apply, complete, hbusy]

/-- Settles O7: the issue of STOP asks nothing of `LINK`, and bit 4 of CTRL says that a STOP is in flight. -/
theorem stopGoesInFlight : Obligations.StopGoesInFlight := by
  intro s ie hen hbusy
  refine ⟨s.issue ie .stop, execStop_eq_next.2 ⟨hen, hbusy, rfl⟩, rfl, ?_⟩
  exact (ctrlByte_sto _).trans (sto_iff.2 (s.issue_busy ie .stop))

/-- Settles O20: `LINK` decides only whether a stop condition is put on the bus. -/
theorem stopCompletes : Obligations.StopCompletes := by
  intro s env hbusy
  rw [step_complete_stop hbusy]
  exact ⟨fun hlink => congrArg _ (completeStop_of_not_idle hlink), fun hlink => congrArg _ (completeStop_of_idle hlink)⟩

/-- Settles O21: the issue of STOP cleared `RDY` and `FRESH`, its completion leaves both and CODE as they are, and STATUS that is
not fresh reads as `any`. -/
theorem stopReportsNoStatus : Obligations.StopReportsNoStatus := by
  intro s t ie env h
  obtain ⟨-, -, rfl⟩ := execStop_eq_next.1 h
  have hstale : (completeStop (s.issue ie .stop)).fresh = false := rfl
  exact ⟨_, step_complete_stop (s.issue_busy ie .stop) env, rfl, hstale, rfl, step_read_any (readStatus_of_not_fresh hstale)⟩

end Sys2Proof.Machine
end

section
/-! The status decoder (R120 to R126): the outcome of a code is its place in the known-good and known-bad sets, and the low bits of
STATUS tell the outcome. -/

namespace Sys2Proof.Machine

/-! ## The sets -/

theorem knownBad_iff (c : BusStatus) :
    knownBad c.code = true ↔ c = .mtSlaNack ∨ c = .mrSlaNack ∨ c = .mtDataNack ∨ c = .busError := by
  cases c <;> decide

/-- No code is both known-good and known-bad, so the order of the decoder's tests does not matter (R122). -/
theorem knownGood_eq_false_of_knownBad {c : Code} (h : knownBad c = true) : knownGood c = false := by
  revert c; decide

/-- The statuses in neither set (R125). -/
theorem not_known_iff (c : BusStatus) : knownGood c.code = false ∧ knownBad c.code = false ↔
    c = .startOk ∨ c = .repeatedStartOk ∨ c = .arbLost ∨ c = .mrDataAck ∨ c = .mrDataNack := by
  cases c <;> decide

/-! ## The outcomes -/

theorem txOutcome_eq_acked_iff {c : Code} : txOutcome c = .acked ↔ knownGood c = true := by
  unfold txOutcome
  split_ifs with hgood <;> simp [hgood]

theorem txOutcome_eq_rejected_iff {c : Code} : txOutcome c = .rejected ↔ knownBad c = true := by
  constructor
  · unfold txOutcome
    split_ifs <;> simp [*]
  · intro hbad
    simp [txOutcome, hbad, knownGood_eq_false_of_knownBad hbad]

theorem txOutcome_eq_unexpected_iff {c : Code} : txOutcome c = .unexpected ↔ knownGood c = false ∧ knownBad c = false := by
  unfold txOutcome
  split_ifs <;> simp [*]

/-! ## The bits of STATUS -/

theorem field_eq_field_iff {o o' : TxOutcome} : o.field = o'.field ↔ o = o' := by
  cases o <;> cases o' <;> decide

/-- Bits 1:0 of STATUS are the outcome's field, for all 32 codes (R126). -/
theorem statusByte_txo (c : Code) : (statusByte c).extractLsb' 0 2 = (txOutcome c).field :=
  BitVec.extractLsb'_append_eq_right

theorem statusByte_txo_eq_iff {c : Code} (o : TxOutcome) :
    (statusByte c).extractLsb' 0 2 = o.field ↔ txOutcome c = o := by
  rw [statusByte_txo, field_eq_field_iff]

/-- Settles O30: the byte read is the decoder's of the code, and each of its bits tells the set the status is in. -/
theorem statusDecoderBits : Obligations.StatusDecoderBits := by
  intro s t c hfresh hcode h
  have hread : readStatus s = t := next_inj.1 h
  have hbyte : t.rdata = statusByte c.code := by
    rw [← hread, readStatus_of_fresh hfresh hcode, State.returnByte_rdata]
  rw [hbyte, statusByte_sok]
  refine ⟨startAccepted_iff c, ?_, ?_, ?_⟩
  · exact (statusByte_txo_eq_iff .acked).trans (txOutcome_eq_acked_iff.trans (knownGood_iff c))
  · exact (statusByte_txo_eq_iff .rejected).trans (txOutcome_eq_rejected_iff.trans (knownBad_iff c))
  · exact (statusByte_txo_eq_iff .unexpected).trans (txOutcome_eq_unexpected_iff.trans (not_known_iff c))

/-! ## The codes of no status -/

/-- The codes of the twelve statuses are 0 to 11 (R20). -/
theorem code_toNat_lt (b : BusStatus) : b.code.toNat < 12 := by
  cases b <;> decide

theorem ne_code_of_unassigned {c : Code} (h : 12 ≤ c.toNat) (b : BusStatus) : c ≠ b.code := by
  rintro rfl
  exact absurd (code_toNat_lt b) h.not_gt

/-- Settles O31: each test of the decoder is a comparison with the code of a status, and all of them fail. -/
theorem unassignedCodesAreUnexpected : Obligations.UnassignedCodesAreUnexpected := by
  intro c h
  have hne := ne_code_of_unassigned h
  refine ⟨?_, txOutcome_eq_unexpected_iff.2 ⟨?_, ?_⟩⟩
  · simp [startAccepted, hne]
  · simp [knownGood, hne]
  · simp [knownBad, hne]

end Sys2Proof.Machine
end

section
/-! NOP (R130, R132) and the writes of every offset but that of CTRL (R43, R45, R133, R134): what each does where it is taken, and
how it is refused where it is not. -/

namespace Sys2Proof.Machine

variable {s : State}

theorem quiescent_eq_false_iff : s.quiescent = false ↔ s.busy ≠ .none ∨ s.link ≠ .idle := by
  rw [← Bool.not_eq_true, quiescent_iff, not_and_or]

/-! ## NOP -/

theorem execNop_of_disable_refused (ie : Bool) (hen : s.en = true) (hq : s.quiescent = false) :
    execNop ie false s = .refused .disableWhileNotQuiescent := by
  simp [execNop, hen, hq]

/-- Settles O5: three of the clauses are the three updates of NOP, the fourth is the disable that is refused. -/
theorem nopWritesEnableAndInterruptEnable : Obligations.NopWritesEnableAndInterruptEnable := by
  intro s ie en
  refine ⟨fun hkeep => ?_, fun hoff => ?_, fun hon hbusy hlink => ?_, fun hon hnot => ?_⟩
  · exact execNop_eq_next.2 (.inl ⟨hkeep, rfl⟩)
  · exact execNop_eq_next.2 (.inr (.inl ⟨hoff, rfl, rfl⟩))
  · exact execNop_eq_next.2 (.inr (.inr ⟨hon, rfl, quiescent_iff.2 ⟨hbusy, hlink⟩, rfl⟩))
  · exact execNop_of_disable_refused ie hon (quiescent_eq_false_iff.2 hnot)

/-! ## The other writes -/

theorem writeData_of_inFlight (h : s.busy ≠ .none) (v : Byte) : writeData v s = .refused .dataWriteInFlight :=
  if_neg h

theorem writeDiv_of_not_quiescent (h : s.quiescent = false) (v : Byte) :
    writeDiv v s = .refused .configureWhileNotQuiescent := by
  simp [writeDiv, h]

theorem writePresc_of_not_quiescent (h : s.quiescent = false) (v : Byte) :
    writePresc v s = .refused .configureWhileNotQuiescent := by
  simp [writePresc, h]

theorem memWrite_reserved {off : Offset} (h : 5 ≤ off.toNat) (v : Byte) (s : State) :
    memWrite off v s = .refused .reservedOffsetWrite := by
  rw [memWrite, regAt_reserved h]

/-- Settles O27: each offset is written by its own rule, taken or refused. -/
theorem registerWrites : Obligations.RegisterWrites := by
  intro s v
  refine ⟨rfl, fun hbusy => ?_, fun hflight => ?_, fun hbusy hlink => ?_, fun hnot => ?_, fun off hoff => ?_⟩
  · exact writeData_of_busy_none hbusy v
  · exact writeData_of_inFlight hflight v
  · have hq : s.quiescent = true := quiescent_iff.2 ⟨hbusy, hlink⟩
    exact ⟨writeDiv_of_quiescent hq v, writePresc_of_quiescent hq v⟩
  · have hq : s.quiescent = false := quiescent_eq_false_iff.2 hnot
    exact ⟨writeDiv_of_not_quiescent hq v, writePresc_of_not_quiescent hq v⟩
  · exact memWrite_reserved hoff v s

end Sys2Proof.Machine
end

section
/-! The configuration over a step (R138, R195): an access of an engine that is not quiescent and a completion leave DIV and PS as
they are and do not clear `EN`. -/

namespace Sys2Proof.Machine

variable {s t : State}

/-- DIV and PS stay, and `EN` is not cleared. -/
def KeepsConfiguration (s t : State) : Prop :=
  t.div = s.div ∧ t.ps = s.ps ∧ (s.en = true → t.en = true)

theorem exec_keepsConfiguration_or_quiescent {i : Instr} (h : exec i s = .next t) :
    KeepsConfiguration s t ∨ s.busy = .none ∧ s.link = .idle := by
  rcases exec_cases h with ⟨ie, en, -, ⟨-, rfl⟩ | ⟨-, -, rfl⟩ | ⟨-, -, hq, rfl⟩⟩ | ⟨-, -, b, -, rfl⟩
  · exact .inl ⟨rfl, rfl, id⟩
  · exact .inl ⟨rfl, rfl, fun _ => rfl⟩
  · exact .inr (quiescent_iff.1 hq)
  · exact .inl ⟨rfl, rfl, id⟩

theorem access_keepsConfiguration_or_quiescent {a : Access} (h : access a s = .next t) :
    KeepsConfiguration s t ∨ s.busy = .none ∧ s.link = .idle := by
  cases a with
  | read off =>
    obtain ⟨f, v, n, hread, -⟩ := memRead_eq off s
    rw [← next_inj.1 h, hread]
    exact .inl ⟨rfl, rfl, id⟩
  | write off v =>
    rcases memWrite_cases h with ⟨i, -, -, hexec⟩ | rfl | ⟨-, rfl⟩ | ⟨hbusy, hlink, -⟩
    · exact exec_keepsConfiguration_or_quiescent hexec
    · exact .inl ⟨rfl, rfl, id⟩
    · exact .inl ⟨rfl, rfl, id⟩
    · exact .inr ⟨hbusy, hlink⟩

theorem complete_keepsConfiguration {env : Env} (h : complete env s = .next t) : KeepsConfiguration s t := by
  rcases complete_shape h with ⟨-, -, d, c, l, e, n, rfl⟩ | ⟨-, hld, rfl⟩
  · exact ⟨rfl, rfl, id⟩
  · exact ⟨rfl, rfl, id⟩

theorem step_keepsConfiguration_or_quiescent (h : step s = .next t) (hnoreset : ∀ rest, s.inputs ≠ .reset :: rest) :
    KeepsConfiguration s t ∨ s.busy = .none ∧ s.link = .idle := by
  obtain ⟨s', t', ⟨hs, r, ins, rfl⟩, ⟨hs', r', ins', rfl⟩, hmove⟩ := step_engine h
  rcases hmove with ⟨a, hacc⟩ | ⟨env, rest, -, hcomplete⟩ | ⟨rest, hin, -⟩ | rfl
  · exact (access_keepsConfiguration_or_quiescent hacc :)
  · exact .inl (complete_keepsConfiguration hcomplete :)
  · exact absurd hin (hnoreset rest)
  · exact .inl ⟨rfl, rfl, id⟩

/-- Settles O36: a step that changes the configuration does not keep it, so the engine was quiescent. -/
theorem configurationChangesOnlyWhenQuiescent : Obligations.ConfigurationChangesOnlyWhenQuiescent := by
  intro s t h hnoreset hchange
  refine (step_keepsConfiguration_or_quiescent h hnoreset).resolve_left fun ⟨hdiv, hps, hen⟩ => ?_
  rcases hchange with hdiv' | hps' | ⟨hon, hoff⟩
  · exact hdiv' hdiv
  · exact hps' hps
  · exact absurd (hen hon) (by simp [hoff])

end Sys2Proof.Machine
end

section
/-! `configure` (R131, R135 to R137): the call and its three register writes, one after another, from a quiescent engine. -/

namespace Sys2Proof.Machine

variable {s t : State}

/-- A NOP with `en = 1` enables whatever `EN` was (R131). -/
theorem exec_nop_enables (ie : Bool) (s : State) : exec (.nop ie true) s = .next (s.enable ie) := by
  cases hen : s.en with
  | false => exact execNop_eq_next.2 (.inr (.inl ⟨hen, rfl, rfl⟩))
  | true =>
    have hsame : s.enable ie = s.setIe ie := by rw [State.enable, ← hen]; rfl
    exact execNop_eq_next.2 (.inl ⟨hen.symm, hsame⟩)

theorem memWrite_enable (s : State) : memWrite offCtrl (encode (.nop false true)) s = .next (s.enable false) :=
  (ctrlWrite_of_command (decode_encode rfl)).trans (exec_nop_enables false s)

/-- A host step at a write that is taken. -/
theorem apply_host_write (off : Offset) (v : Byte) (haccess : s.host.access = some (.write off v))
    (hwrite : memWrite off v s = .next t) : apply .host s = .next (hostAfter Config.stopOnAbort t) :=
  hostStep_eq_next.2 ⟨_, t, haccess, hwrite, rfl⟩

theorem setHost_self {h : HostControl} (hhost : s.host = h) : s.setHost h = s := by
  rw [← hhost]; rfl

/-! ## The four steps -/

/-- The divider value that `configure` writes, with the default of the target clock (R135, R136). -/
def configureDiv (cpuHz : Nat) (busHz : Option Nat) : Byte :=
  Config.divOf cpuHz (busHz.getD Config.targetBusHzDefault)

theorem apply_call_configure (cpuHz : Nat) (busHz : Option Nat) (hidle : s.host = .idle) :
    apply (.call (.configure cpuHz busHz)) s = .next (s.setHost (.configure (.div (configureDiv cpuHz busHz)))) :=
  if_pos hidle

theorem apply_configure_div {d : Byte} (hhost : s.host = .configure (.div d)) (hq : s.quiescent = true) :
    apply .host s = .next ((s.loadDiv d).setHost (.configure .presc)) := by
  rw [apply_host_write offDiv d (by rw [hhost]; rfl) (writeDiv_of_quiescent hq d), hostAfter, State.loadDiv_host, hhost]

theorem apply_configure_presc (hhost : s.host = .configure .presc) (hq : s.quiescent = true) :
    apply .host s = .next ((s.loadPs 0#2).setHost (.configure .enable)) := by
  have hzero : prescField 0x00#8 = 0#2 := by decide
  rw [apply_host_write offPresc 0x00#8 (by rw [hhost]; rfl) (writePresc_of_quiescent hq 0x00#8), hzero, hostAfter,
    State.loadPs_host, hhost]

theorem apply_configure_enable (hhost : s.host = .configure .enable) :
    apply .host s = .next ((s.enable false).hostReturns .configured) := by
  rw [apply_host_write offCtrl _ (by rw [hhost]; rfl) (memWrite_enable s), hostAfter, State.enable_host, hhost]

/-! ## The whole call -/

/-- The end state of `configure` with the divider value `d` (R135). -/
def State.configuredWith (s : State) (d : Byte) : State :=
  { s with div := some d, ps := some 0#2, en := true, ie := false, returned := some .configured }

theorem configuredWith_idem (s : State) (d : Byte) : (s.configuredWith d).configuredWith d = s.configuredWith d := rfl

/-- The inputs of one `configure`: the call and the three moves of the host's program. -/
def configureInputs (cpuHz : Nat) (busHz : Option Nat) : List Input :=
  [.call (.configure cpuHz busHz), .host, .host, .host]

/-- The call keeps the engine quiescent, so each of its writes is taken. -/
theorem runInputs_configure (cpuHz : Nat) (busHz : Option Nat) (hidle : s.host = .idle) (hq : s.quiescent = true) :
    runInputs (configureInputs cpuHz busHz) s = .next (s.configuredWith (configureDiv cpuHz busHz)) := by
  set d := configureDiv cpuHz busHz
  have hdiv : apply .host (s.setHost (.configure (.div d))) = .next ((s.loadDiv d).setHost (.configure .presc)) :=
    apply_configure_div rfl hq
  have hpresc : apply .host ((s.loadDiv d).setHost (.configure .presc)) =
      .next (((s.loadDiv d).loadPs 0#2).setHost (.configure .enable)) :=
    apply_configure_presc rfl hq
  have henable : apply .host (((s.loadDiv d).loadPs 0#2).setHost (.configure .enable)) =
      .next ((s.configuredWith d).setHost .idle) :=
    apply_configure_enable rfl
  have hend : (s.configuredWith d).setHost .idle = s.configuredWith d := setHost_self hidle
  rw [configureInputs, runInputs_cons _ (apply_call_configure cpuHz busHz hidle), runInputs_cons _ hdiv,
    runInputs_cons _ hpresc, runInputs_cons _ henable, runInputs, hend]

/-- Settles O40: the end state of the call, in a run that takes its four inputs. -/
theorem configureProgramsAndEnables : Obligations.ConfigureProgramsAndEnables := by
  intro s cpuHz busHz rest hidle hbusy hlink hinputs
  have hrun := runInputs_configure cpuHz (some busHz) hidle (quiescent_iff.2 ⟨hbusy, hlink⟩)
  exact run_eq_runInputs hinputs hrun

/-- Settles O41: the first call leaves the engine quiescent and the host idle, and the end state of the second is its own start. -/
theorem configureIsIdempotent : Obligations.ConfigureIsIdempotent := by
  intro s cpuHz busHz rest hidle hbusy hlink hinputs
  have hq : s.quiescent = true := quiescent_iff.2 ⟨hbusy, hlink⟩
  have hfirst := runInputs_configure cpuHz busHz hidle hq
  have hagain : runInputs (configureInputs cpuHz busHz) (s.configuredWith (configureDiv cpuHz busHz)) = _ :=
    runInputs_configure cpuHz busHz hidle hq
  rw [configuredWith_idem] at hagain
  have hboth := (runInputs_append (configureInputs cpuHz busHz) hfirst).trans hagain
  exact ⟨_, _, run_eq_runInputs (rest := configureInputs cpuHz busHz ++ rest) hinputs hfirst,
    run_eq_runInputs (rest := rest) hinputs hboth, rfl, nofun⟩

end Sys2Proof.Machine
end

section
/-! How a transaction goes on, by phase (R147, R150 to R156): what `Txn.next` answers to a success and to a rejection. The
statements about the acquisition, the aborts and the two data phases are read off these rules. -/

namespace Sys2Proof.Machine

variable {t : Txn} {ph : Phase} {r : PrimResult} {st : TxnStatus}

/-- Every outcome but Acked is a rejection (R158). -/
theorem ok_outcome_of_ne_acked {o : TxOutcome} (h : o ≠ .acked) : (PrimResult.outcome o).ok = false := by
  rw [ok_outcome, beq_eq_false_iff_ne]
  exact h

theorem retry_of_budget_left (h : 1 < t.budget) (st : TxnStatus) :
    t.retry st = .enter { t with budget := t.budget - 1 } .startPending := by
  have hdec : satDec t.budget = t.budget - 1 := if_neg (by omega)
  have hleft : t.budget - 1 ≠ 0 := by omega
  simp only [Txn.retry, hdec, if_neg hleft]

theorem retry_of_budget_spent (h : t.budget ≤ 1) (st : TxnStatus) :
    t.retry st = .enter { t with budget := 0 } (.stopping st) := by
  have hdec : satDec t.budget = 0 := by unfold satDec; split <;> omega
  simp only [Txn.retry, hdec, if_true]

theorem next_startPending_of_rejected (soa : Bool) (hrejected : r.ok = false) :
    t.next soa .startPending r = t.retry .startExhausted := by
  simp only [Txn.next, hrejected, Bool.false_eq_true, if_false]

theorem next_addressPending_of_rejected (soa : Bool) (hrejected : r.ok = false) :
    t.next soa .addressPending r = t.retry .addressExhausted := by
  simp only [Txn.next, hrejected, Bool.false_eq_true, if_false]

/-- The status of `abort` for a rejection in each phase after the slave is acquired (R151, R152, R155); the phases of the
acquisition retry, and a receive and a stop cannot be rejected. -/
def Phase.abortStatus : Phase → Option TxnStatus
  | .offsetPhase => some .offsetWriteFailed
  | .repeatedStart => some .repeatedStartFailed
  | .readAddressPending => some .readAddressFailed
  | .writeData _ _ => some .dataWriteFailed
  | .startPending | .addressPending | .readData _ | .stopping _ => none

theorem next_of_aborts (soa : Bool) (haborts : ph.abortStatus = some st) (hrejected : r.ok = false) :
    t.next soa ph r = t.abort soa st := by
  cases ph with
  | offsetPhase | repeatedStart | readAddressPending | writeData =>
    obtain rfl := Option.some.inj haborts
    simp only [Txn.next, hrejected, Bool.false_eq_true, if_false]
  | startPending | addressPending | readData | stopping => cases haborts

/-- An abort reports no exhaustion. -/
theorem abortStatus_ne_exhausted (haborts : ph.abortStatus = some st) : st ≠ .startExhausted ∧ st ≠ .addressExhausted := by
  cases ph with
  | offsetPhase | repeatedStart | readAddressPending | writeData =>
    obtain rfl := Option.some.inj haborts
    exact ⟨nofun, nofun⟩
  | startPending | addressPending | readData | stopping => cases haborts

theorem afterOffset_of_read {n : Nat} (hkind : t.kind = .read n) : t.afterOffset = .enter t .repeatedStart := by
  simp only [Txn.afterOffset, hkind]

theorem afterOffset_of_write {b : Byte} {rest : List Byte} (hkind : t.kind = .write (b :: rest)) :
    t.afterOffset = .enter t (.writeData b rest) := by
  simp only [Txn.afterOffset, hkind]

theorem afterReadAddress_of_read {n : Nat} (hkind : t.kind = .read n) :
    t.afterReadAddress = .enter t (.readData (n - 1)) := by
  simp only [Txn.afterReadAddress, hkind]

/-- Settles O45: a failed start and a rejected address both retry, and a retry compares after it has decremented. -/
theorem acquisitionSpendsOneBudget : Obligations.AcquisitionSpendsOneBudget := by
  intro soa t o ho
  have hstart := next_startPending_of_rejected (t := t) (r := .accepted false) soa rfl
  have haddress := next_addressPending_of_rejected (t := t) soa (ok_outcome_of_ne_acked ho)
  rw [hstart, haddress]
  exact ⟨rfl, rfl, rfl, rfl, fun hleft => ⟨retry_of_budget_left hleft _, retry_of_budget_left hleft _⟩,
    fun hspent => ⟨retry_of_budget_spent hspent _, retry_of_budget_spent hspent _⟩, rfl, rfl⟩

/-- Settles O46: each of these rejections aborts with the status of its phase. -/
theorem laterRejectionsAbort : Obligations.LaterRejectionsAbort := by
  intro t o b rest ho
  have hrejected := ok_outcome_of_ne_acked ho
  exact ⟨⟨next_of_aborts false rfl hrejected, next_of_aborts true rfl hrejected⟩,
    ⟨next_of_aborts false rfl rfl, next_of_aborts true rfl rfl⟩,
    ⟨next_of_aborts false rfl hrejected, next_of_aborts true rfl hrejected⟩,
    ⟨next_of_aborts false rfl hrejected, next_of_aborts true rfl hrejected⟩, rfl, rfl, rfl, rfl⟩

/-- Settles O47: the turn-round is that of a read, and a receive acknowledges exactly if more is to come. -/
theorem readAcknowledgesAllButTheLast : Obligations.ReadAcknowledgesAllButTheLast := by
  intro soa t n left d st
  exact ⟨fun hkind => ⟨afterOffset_of_read hkind, rfl, rfl, rfl, afterReadAddress_of_read hkind⟩,
    rfl, rfl, rfl, rfl, rfl, rfl⟩

/-- Settles O48: the first byte follows the offset, each byte is followed by the next, and the last by the stop. -/
theorem writeSendsSourceInOrder : Obligations.WriteSendsSourceInOrder := by
  intro soa t b c rest
  exact ⟨rfl, fun hkind => afterOffset_of_write hkind, rfl, rfl, rfl⟩

end Sys2Proof.Machine
end

section
/-! The retry budget (R147, R150, R159): `HostControl.budgetOk` is kept by every step, because every way a transaction goes on
meets it (`next_budgetOk`) and a call begins with the whole budget. -/

namespace Sys2Proof.Machine

variable {s s' : State} {t : Txn} {ph : Phase}

/-- `HostControl.budgetOk` of what a transaction does next. -/
def TxnNext.budgetOk : TxnNext → Prop
  | .enter t ph => t.budget ≤ Config.retryBudget ∧ t.budgetAt ph
  | .returns _ => True

theorem txnMoves_budgetOk {next : TxnNext} (h : next.budgetOk) : (s.txnMoves t next).host.budgetOk := by
  cases next with
  | enter => exact h
  | returns => trivial

/-- Decrement, then compare: either budget is left for another attempt or it is exactly zero (R150, R159). -/
theorem retry_budgetOk (hle : t.budget ≤ Config.retryBudget) (st : TxnStatus) : (t.retry st).budgetOk := by
  rcases Nat.lt_or_ge 1 t.budget with hleft | hspent
  · rw [retry_of_budget_left hleft]
    exact ⟨(Nat.sub_le _ _).trans hle, Nat.sub_pos_of_lt hleft⟩
  · rw [retry_of_budget_spent hspent]
    exact ⟨Nat.zero_le _, fun _ => rfl⟩

/-- A stop that reports no exhaustion asks nothing of the budget. -/
theorem budgetAt_stopping {st : TxnStatus} (hstart : st ≠ .startExhausted) (haddress : st ≠ .addressExhausted) :
    t.budgetAt (.stopping st) :=
  fun h => (h.elim hstart haddress).elim

theorem abort_budgetOk {st : TxnStatus} (soa : Bool) (hle : t.budget ≤ Config.retryBudget)
    (haborts : ph.abortStatus = some st) : (t.abort soa st).budgetOk := by
  cases soa with
  | false => trivial
  | true =>
    obtain ⟨hstart, haddress⟩ := abortStatus_ne_exhausted haborts
    exact ⟨hle, budgetAt_stopping hstart haddress⟩

theorem afterOffset_budgetOk (hle : t.budget ≤ Config.retryBudget) : t.afterOffset.budgetOk := by
  unfold Txn.afterOffset
  split
  · exact ⟨hle, trivial⟩
  · exact ⟨hle, budgetAt_stopping nofun nofun⟩
  · exact ⟨hle, trivial⟩

theorem afterReadAddress_budgetOk (hle : t.budget ≤ Config.retryBudget) : t.afterReadAddress.budgetOk := by
  unfold Txn.afterReadAddress
  split
  · exact ⟨hle, trivial⟩
  · exact ⟨hle, budgetAt_stopping nofun nofun⟩

/-- Every way a transaction goes on from a phase meets the budget invariant. -/
theorem next_budgetOk (soa : Bool) (r : PrimResult) (hle : t.budget ≤ Config.retryBudget) (hat : t.budgetAt ph) :
    (t.next soa ph r).budgetOk := by
  cases ph with
  | startPending =>
    simp only [Txn.next]; split
    · exact ⟨hle, hat⟩
    · exact retry_budgetOk hle _
  | addressPending =>
    simp only [Txn.next]; split
    · exact ⟨hle, trivial⟩
    · exact retry_budgetOk hle _
  | offsetPhase =>
    simp only [Txn.next]; split
    · exact afterOffset_budgetOk hle
    · exact abort_budgetOk (ph := .offsetPhase) soa hle rfl
  | repeatedStart =>
    simp only [Txn.next]; split
    · exact ⟨hle, trivial⟩
    · exact abort_budgetOk (ph := .repeatedStart) soa hle rfl
  | readAddressPending =>
    simp only [Txn.next]; split
    · exact afterReadAddress_budgetOk hle
    · exact abort_budgetOk (ph := .readAddressPending) soa hle rfl
  | readData left =>
    cases left with
    | zero => exact ⟨hle, budgetAt_stopping nofun nofun⟩
    | succ left => exact ⟨hle, trivial⟩
  | writeData b rest =>
    simp only [Txn.next]; split
    · cases rest with
      | nil => exact ⟨hle, budgetAt_stopping nofun nofun⟩
      | cons => exact ⟨hle, trivial⟩
    · exact abort_budgetOk (ph := .writeData b rest) soa hle rfl
  | stopping => trivial

theorem hostAfter_budgetOk (soa : Bool) (h : s.host.budgetOk) : (hostAfter soa s).host.budgetOk := by
  unfold hostAfter
  split
  · exact h
  · trivial
  · trivial
  · trivial
  · split <;> trivial
  · rename_i t ph pos hhost
    rw [hhost] at h
    split
    · exact h
    · obtain ⟨hle, hat⟩ := h
      exact txnMoves_budgetOk (next_budgetOk soa _ hle hat)

/-- A transaction call that is not refused returns at once or begins (R149, R150). -/
theorem callTxn_cases {slaveAddr bufferLength : Nat} {byteCount reg : Byte} {kind : TxnKind}
    (h : callTxn slaveAddr byteCount bufferLength kind reg s = .next s') :
    byteCount = 0#8 ∧ s' = s.hostReturns (.txn .success []) ∨ s' = beginTxn s kind (BitVec.ofNat 7 slaveAddr) reg := by
  unfold callTxn at h
  split at h
  · exact .inl ⟨‹_›, (next_inj.1 h).symm⟩
  · split at h
    · cases h
    · split at h
      · cases h
      · exact .inr (next_inj.1 h).symm

theorem callTxn_budgetOk {slaveAddr bufferLength : Nat} {byteCount reg : Byte} {kind : TxnKind}
    (h : callTxn slaveAddr byteCount bufferLength kind reg s = .next s') : s'.host.budgetOk := by
  rcases callTxn_cases h with ⟨-, rfl⟩ | rfl
  · trivial
  · exact ⟨Nat.le_refl _, Nat.succ_pos 19⟩

theorem hostCall_budgetOk {c : HostCall} (h : hostCall c s = .next s') : s'.host.budgetOk := by
  obtain ⟨hidle, -⟩ := hostCall_eq h
  unfold hostCall at h
  rw [if_pos hidle] at h
  cases c with
  | configure | prim =>
    rw [← next_inj.1 h]
    trivial
  | read | write => exact callTxn_budgetOk h

/-- Settles O50: only a call and the host's own program move the host, and both meet the invariant. -/
theorem budgetInvariantKept : Obligations.BudgetInvariantKept := by
  intro s t hok hstep
  obtain ⟨i, rest, -, happly⟩ := step_eq_next.1 hstep
  cases i with
  | access a =>
    rw [(access_host happly).1]
    exact hok
  | call c => exact hostCall_budgetOk happly
  | host =>
    obtain ⟨a, u, -, haccess, rfl⟩ := hostStep_eq_next.1 happly
    refine hostAfter_budgetOk _ ?_
    rw [(access_host haccess).1]
    exact hok
  | complete env =>
    rw [(complete_host happly).2.1]
    exact hok
  | reset =>
    rw [← next_inj.1 happly]
    exact hok

/-- Settles O49: the host is in no call. -/
theorem budgetInvariantAtReset : Obligations.BudgetInvariantAtReset :=
  trivial

end Sys2Proof.Machine
end

section
/-! How many starts and address bytes a transaction makes (R147, R150): `onTrack` counts them against the budget, so its bounds
are read off the phase (`attemptsAt`) or off what holds after the return (`afterTxn`). -/

namespace Sys2Proof.Machine

variable {g w soa : Bool} {S P T k x n : Nat} {s t : State} {txn : Txn} {ph : Phase} {pos : PrimPos} {done : Bool} {c : HostCall}

/-- What `onTrack` says of a host that is in a phase of its transaction. -/
theorem onTrack_duringTxn (h : onTrack g w soa S P T s) (hh : s.host = .txn txn ph pos) : duringTxn g w S P T s txn ph pos := by
  obtain ⟨-, h⟩ := h
  rwa [hh] at h

/-- An attempt is made only with budget left, so the acquisition makes at most as many as the budget was. -/
theorem attemptsAt_acquiring (h : attemptsAt w txn k x done ph) (hph : ph = .startPending ∨ ph = .addressPending) :
    k ≤ 20 ∧ x ≤ 20 := by
  rcases hph with rfl | rfl
  · obtain ⟨hpos, hsum, hsent⟩ := h
    split at hsum <;> omega
  · obtain ⟨hpos, hsum, hsent⟩ := h
    omega

/-- The repeated start of a read is the one start attempt that the budget does not pay for (R152). -/
theorem attemptsAt_le (h : attemptsAt w txn k x done ph) : k ≤ 21 ∧ (w = true → k ≤ 20) := by
  cases ph with
  | startPending =>
    obtain ⟨hk, -⟩ := attemptsAt_acquiring h (.inl rfl)
    exact ⟨by omega, fun _ => hk⟩
  | addressPending =>
    obtain ⟨hk, -⟩ := attemptsAt_acquiring h (.inr rfl)
    exact ⟨by omega, fun _ => hk⟩
  | offsetPhase | writeData =>
    obtain ⟨hpos, hsum⟩ := h
    exact ⟨by omega, fun _ => by omega⟩
  | repeatedStart =>
    obtain ⟨rfl, hpos, hsum⟩ := h
    exact ⟨by split at hsum <;> omega, nofun⟩
  | readAddressPending | readData =>
    obtain ⟨rfl, hpos, hsum⟩ := h
    exact ⟨by omega, nofun⟩
  | stopping => exact h.2

theorem onTrack_startAttempts_le (h : onTrack g w soa S P T s) :
    startAttempts s.trace ≤ S + 21 ∧ (w = true → startAttempts s.trace ≤ S + 20) := by
  suffices hk : ∃ k, startAttempts s.trace = S + k ∧ k ≤ 21 ∧ (w = true → k ≤ 20) by
    obtain ⟨k, hcount, hread, hwrite⟩ := hk
    rw [hcount]
    exact ⟨Nat.add_le_add_left hread S, fun hw => Nat.add_le_add_left (hwrite hw) S⟩
  cases hh : s.host with
  | idle =>
    obtain ⟨-, _, _, k, -, hcount, -, hread, hwrite, -⟩ := onTrack_afterTxn h hh
    exact ⟨k, hcount, hread, hwrite⟩
  | configure | prim =>
    obtain ⟨-, h⟩ := h
    rw [hh] at h
    exact h.elim
  | txn txn ph pos =>
    obtain ⟨-, done, k, x, hcount, -, -, hat, -⟩ := onTrack_duringTxn h hh
    exact ⟨k, hcount, attemptsAt_le hat⟩

/-- Every point of a transaction call's run is on track, or the call has touched nothing: it is not yet made, or was for no bytes
(R149). -/
theorem run_call_onTrack (hready : s.readyForCall) (hdom : c.TransactionInDomain) (hone : OneHost s.inputs)
    (hrun : core.run n (s.given (.call c)) = .next t) :
    onTrack false c.isWrite Config.stopOnAbort (startAttempts s.trace) (stopEvents s.trace) (transmits s.trace) t ∨
      t.host = .idle ∧ t.trace = s.trace ∧ (0 < n → t.returned = some (.txn .success [])) := by
  cases n with
  | zero =>
    obtain rfl := next_inj.1 hrun
    exact .inr ⟨hready.1, rfl, nofun⟩
  | succ n =>
    obtain ⟨u, hcall, hinputs, hu⟩ := onTrack_call false Config.stopOnAbort hready hdom
    rw [run_next (show step (s.given (.call c)) = .next u from hcall)] at hrun
    have hone' : OneHost u.inputs := hinputs ▸ hone
    rcases hu with ⟨-, htrack⟩ | ⟨-, rfl⟩
    · exact .inl ((onTrack_run n u htrack hone' nofun).1 t hrun)
    · obtain ⟨-, -, hbusy⟩ := hready
      obtain rfl := run_eq_self_of_idle (s := s.hostReturns _) rfl hbusy hone' hrun
      exact .inr ⟨rfl, rfl, fun _ => rfl⟩

/-- Settles O51: on track by the counts of the invariant; a call that touches nothing makes no start and is in no phase. -/
theorem acquisitionMakesAtMostTwentyStarts : Obligations.AcquisitionMakesAtMostTwentyStarts := by
  intro s t c n hready hdom hone hrun
  rcases run_call_onTrack hready hdom hone hrun with htrack | ⟨hidle, htrace, hret⟩
  · obtain ⟨hread, hwrite⟩ := onTrack_startAttempts_le htrack
    refine ⟨fun txn ph pos hhost hph => ?_, hread, ?_, fun st d _ hidle hreturned hst => ?_⟩
    · obtain ⟨-, done, k, x, hstarts, -, hsent, hat, -⟩ := onTrack_duringTxn htrack hhost
      obtain ⟨hk, hx⟩ := attemptsAt_acquiring hat hph
      rw [hstarts, hsent]
      exact ⟨Nat.add_le_add_left hk _, Nat.add_le_add_left hx _⟩
    · rintro ⟨a, m, r, src, rfl⟩
      exact hwrite rfl
    · obtain ⟨-, st', d', k, hreturned', hstarts, hexhausted, -⟩ := onTrack_afterTxn htrack hidle
      obtain ⟨rfl, rfl⟩ : st = st' ∧ d = d' := by simpa [hreturned] using hreturned'
      obtain ⟨rfl, hstops, hsent⟩ := hexhausted hst
      exact ⟨hstarts, hstops, hsent⟩
  · rw [htrace]
    refine ⟨fun txn ph pos hhost => ?_, by omega, fun _ => by omega, fun st d hn _ hreturned hst => ?_⟩
    · rw [hidle] at hhost
      cases hhost
    · rw [hret hn] at hreturned
      cases hreturned
      rcases hst with h | h <;> cases h

end Sys2Proof.Machine
end

section
/-! A rejected offset byte (R156): the completion, the poll that sees it and the read of its status, from a host that polls for
the offset byte. -/

namespace Sys2Proof.Machine

variable {s : State} {t : Txn}

/-- A poll that ends goes on to the read of the result, for every primitive but `stop` (R141, R143 to R145). -/
theorem next_poll_of_ends {p : Prim} {v : Byte} (hne : p ≠ .stop) (h : p.pollEnds v = true) : p.next .poll v = .at .take := by
  simp [Prim.next, h, hne]

@[simp] theorem txnMoves_busy (next : TxnNext) : (s.txnMoves t next).busy = s.busy := by cases next <;> rfl

@[simp] theorem txnMoves_link (next : TxnNext) : (s.txnMoves t next).link = s.link := by cases next <;> rfl

@[simp] theorem txnMoves_trace (next : TxnNext) : (s.txnMoves t next).trace = s.trace := by cases next <;> rfl

/-- A read leaves the bus and the command slot as they are. -/
theorem memRead_bus (off : Offset) (s : State) :
    (memRead off s).busy = s.busy ∧ (memRead off s).link = s.link ∧ (memRead off s).trace = s.trace := by
  obtain ⟨f, v, n, hread, -⟩ := memRead_eq off s
  rw [hread]
  exact ⟨rfl, rfl, rfl⟩

/-- The two host steps after the command of a phase has completed: the poll ends, and the result is taken. -/
theorem runInputs_take {ph : Phase} {r : PrimResult} (hhost : s.host = .txn t ph .poll) (hne : t.prim ph ≠ .stop)
    (hbusy : s.busy = .none) (hholds : HoldsResult (t.prim ph) r s) :
    ∃ u : State, runInputs [.host, .host] s = .next (u.txnMoves t (t.next Config.stopOnAbort ph r)) ∧
      u.busy = .none ∧ u.link = s.link ∧ u.trace = s.trace := by
  have hpoll : (t.prim ph).next .poll s.ctrlByte = .at .take := next_poll_of_ends hne (pollEnds_of_holdsResult hbusy hholds)
  have hfirst := apply_host_at (u := s.returnByte s.ctrlByte) hhost (access_poll _) rfl hpoll
  have hholds' : HoldsResult (t.prim ph) r ((s.returnByte s.ctrlByte).setHost (.txn t ph .take)) := hholds
  obtain ⟨off, haccess, hresult⟩ := take_of_holdsResult hne hholds'
  have hsecond := apply_host_returns (r := r) rfl haccess rfl (congrArg PrimNext.returns hresult)
  obtain ⟨hbusy', hlink, htrace⟩ := memRead_bus off ((s.returnByte s.ctrlByte).setHost (.txn t ph .take))
  exact ⟨_, by rw [runInputs_cons _ hfirst, runInputs_cons _ hsecond, runInputs], hbusy'.trans hbusy, hlink, htrace⟩

/-- A byte sent in `MT` and not acknowledged has no known-good status, so `write_byte` does not return Acked (R94, R96, R97). -/
theorem rejected_of_txReport {a : TxAnswer} (b : Byte) (h : a ≠ .ack) :
    (PrimResult.outcome (outcomeOf (statusByte (txReport .mt b a).1.code))).ok = false := by
  rw [ok_outcome, outcomeOf_statusByte]
  cases a with
  | ack => exact absurd rfl h
  | nack | lost | error => rfl

/-- The completion of a transmit leaves the engine with what `write_byte` returns, whatever the answer (R91 to R97, R143). -/
theorem complete_tx_holdsResult {b : Byte} (hbusy : s.busy = .tx b) (hmay : s.link.mayTransmit = true) (env : Env) :
    ∃ u : State, complete env s = .next u ∧ u.host = s.host ∧ u.busy = .none ∧
      u.link = (txReport s.link b env.txAnswer).2 ∧ u.trace = s.trace ++ [.tx b env.txAnswer] ∧
      HoldsResult (.writeByte b) (.outcome (outcomeOf (statusByte (txReport s.link b env.txAnswer).1.code))) u :=
  ⟨_, complete_tx hbusy hmay env, rfl, rfl, rfl, rfl, rfl, rfl, _, rfl, rfl⟩

/-- The completion publishes the failure (R94, R96, R97), and the host takes it and aborts (R156). -/
theorem runInputs_offsetRejected {env : Env} (hhost : s.host = .txn t .offsetPhase .poll)
    (hbusy : s.busy = .tx t.deviceRegister) (hlink : s.link = .mt) (hrejected : env.txAnswer ≠ .ack) :
    ∃ u : State, runInputs [.complete env, .host, .host] s =
        .next (u.txnMoves t (t.abort Config.stopOnAbort .offsetWriteFailed)) ∧
      u.busy = .none ∧ u.link = (txReport .mt t.deviceRegister env.txAnswer).2 ∧
      u.trace = s.trace ++ [.tx t.deviceRegister env.txAnswer] := by
  obtain ⟨v, hcomplete, hhostv, hbusyv, hlinkv, htracev, hholds⟩ :=
    complete_tx_holdsResult hbusy (mayTransmit_iff.2 (.inr hlink)) env
  rw [hlink] at hlinkv hholds
  obtain ⟨u, htake, hbusyu, hlinku, htraceu⟩ := runInputs_take (ph := .offsetPhase) (hhostv.trans hhost) nofun hbusyv hholds
  rw [next_of_aborts Config.stopOnAbort rfl (rejected_of_txReport _ hrejected)] at htake
  have hrun : runInputs [.complete env, .host, .host] s = runInputs [.host, .host] v := runInputs_cons _ hcomplete
  exact ⟨u, hrun.trans htake, hbusyu, hlinku.trans hlinkv, htraceu.trans htracev⟩

/-- Settles O54: the abort moves the host alone, so the bus stays as the completion left it. -/
theorem rejectedOffsetLeavesBusAsItIs : Obligations.RejectedOffsetLeavesBusAsItIs := by
  intro s t env rest hhost hbusy hlink hinputs hrejected
  obtain ⟨u, hrun, hbusyu, hlinku, htraceu⟩ := runInputs_offsetRejected hhost hbusy hlink hrejected
  refine ⟨_, run_eq_runInputs hinputs hrun, rfl, ?_, ?_, ?_⟩
  · rw [State.setInputs_busy, txnMoves_busy, hbusyu]
  · rw [State.setInputs_trace, txnMoves_trace, htraceu]
  · rw [State.setInputs_link, txnMoves_link, hlinku]
    refine ⟨fun h => by rw [h]; rfl, fun h => by rw [h]; rfl, fun h => by rw [h]; rfl, fun h => ?_, fun h => ?_⟩
    · rw [h]
      exact ⟨rfl, rfl⟩
    · rw [h]
      rfl

end Sys2Proof.Machine
end

section
/-! The listings of the primitives (R141 to R145): where a poll goes by the bit it reads, and what `write_byte` makes of the two
low bits of STATUS. -/

namespace Sys2Proof.Machine

variable {p : Prim} {v : Byte}

theorem pollEnds_eq_rdyBit (hne : p ≠ .stop) (v : Byte) : p.pollEnds v = v.getLsbD 5 := by
  cases p with
  | stop => exact absurd rfl hne
  | start | writeByte | readByte => rfl

theorem outcomeOf_of_acked (h : v.extractLsb' 0 2 = 0b00#2) : outcomeOf v = .acked := if_pos h

theorem outcomeOf_of_rejected (h : v.extractLsb' 0 2 = 0b01#2) : outcomeOf v = .rejected := by
  rw [outcomeOf, h]
  rfl

/-- Bit 1 of STATUS says Unexpected, since `TXO` 0b11 too is neither of the other two (R143). -/
theorem outcomeOf_of_unexpected (h : v.getLsbD 1 = true) : outcomeOf v = .unexpected := by
  have hbit : (v.extractLsb' 0 2).getLsbD 1 = true := by simpa using h
  have hacked : v.extractLsb' 0 2 ≠ 0b00#2 := fun h0 => by rw [h0] at hbit; cases hbit
  have hrejected : v.extractLsb' 0 2 ≠ 0b01#2 := fun h1 => by rw [h1] at hbit; cases hbit
  rw [outcomeOf, if_neg hacked, if_neg hrejected]

/-- Settles O39: the lines and their order are the listings', and what a read returns is said by the bits it is made of. -/
theorem primitiveListings : Obligations.PrimitiveListings := by
  intro b v k
  refine ⟨⟨rfl, rfl, rfl, rfl, rfl⟩, ⟨rfl, rfl, rfl, fun h => ?_, fun h => ?_⟩,
    ⟨rfl, rfl, rfl, rfl, rfl, rfl, fun h => ?_, fun h => ?_, fun h => ?_⟩, ⟨rfl, rfl, rfl, rfl, rfl, rfl⟩, fun _ => rfl,
    fun p hne => ⟨fun h => ?_, fun h => ?_⟩⟩
  · have hends : Prim.stop.pollEnds v = true := congrArg (!·) h
    rw [Prim.next, if_pos hends, if_pos rfl]
  · exact next_poll_in_vain (p := .stop) (congrArg (!·) h)
  · rw [Prim.next, Prim.result, outcomeOf_of_acked h]
  · rw [Prim.next, Prim.result, outcomeOf_of_rejected h]
  · rw [Prim.next, Prim.result, outcomeOf_of_unexpected h]
  · exact next_poll_of_ends hne ((pollEnds_eq_rdyBit hne v).trans h)
  · exact next_poll_in_vain ((pollEnds_eq_rdyBit hne v).trans h)

end Sys2Proof.Machine
end

section
/-! A call for no bytes (R149): step 1 of both transaction calls. -/

namespace Sys2Proof.Machine

variable {s : State}

theorem callTxn_of_zero (slaveAddr bufferLength : Nat) (kind : TxnKind) (reg : Byte) :
    callTxn slaveAddr 0#8 bufferLength kind reg s = .next (s.hostReturns (.txn .success [])) :=
  if_pos rfl

/-- A host in no call that returns `r` has only its return changed. -/
theorem hostReturns_of_idle (hidle : s.host = .idle) (r : HostReturn) : s.hostReturns r = { s with returned := some r } := by
  rw [State.hostReturns, ← hidle]

/-- Settles O43: the count is looked at before the other arguments, and the host stays in no call. -/
theorem zeroBytesTouchNothing : Obligations.ZeroBytesTouchNothing := by
  intro s a reg len src hidle
  rw [step_call_read reg hidle, step_call_write reg src hidle, callTxn_of_zero, callTxn_of_zero, hostReturns_of_idle hidle]
  exact ⟨rfl, rfl, rfl⟩

end Sys2Proof.Machine
end

section
/-! Simultaneous events (R173, R174, R190): what a completion and an issue do to the request line, which cause an answer reports,
and what `rst` puts back. -/

namespace Sys2Proof.Machine

variable {s : State} {env : Env}

/-- A publication sets `RDY`, so the request line follows `CTRL.IE` alone (R173). -/
theorem irq_publish (s : State) (d : Option Byte) (c : BusStatus) (l : Link) (e : BusEvent) :
    (s.publish d c l e).irq = s.ie := by
  simp [State.irq]

theorem irq_of_not_ready (h : s.rdy = false) : s.irq = false := by
  simp [State.irq, h]

/-- Settles O37: a completion publishes or is the end of a STOP, which touches neither `IE` nor `RDY`, and an issue clears `RDY`. -/
theorem interruptFollowsReady : Obligations.InterruptFollowsReady := by
  intro s t
  refine ⟨fun env h hbusy => ?_, fun env h hbusy => ?_, fun i hbus h => ?_⟩
  · rcases complete_shape h with ⟨-, -, d, c, l, e, n, rfl⟩ | ⟨hstop, -⟩
    · exact irq_publish _ d c l e
    · exact absurd hstop hbusy
  · rcases complete_shape h with ⟨-, hnstop, -⟩ | ⟨-, hld, rfl⟩
    · exact absurd hbusy hnstop
    · rfl
  · obtain ⟨-, -, -, hrdy, -⟩ := exec_bus_flags hbus h
    exact irq_of_not_ready hrdy

theorem answers_of_busFault (hfault : env.busFault = true) :
    env.startAnswer = .error ∧ env.txAnswer = .error ∧ env.rxAnswer = .error :=
  ⟨if_pos hfault, if_pos hfault, if_pos hfault⟩

theorem answers_of_arbLost (hfault : env.busFault = false) (hlost : env.arbLost = true) :
    env.startAnswer = .collide ∧ env.txAnswer = .lost ∧ env.rxAnswer = .lost := by
  simp [Env.startAnswer, Env.txAnswer, Env.rxAnswer, hfault, hlost]

/-- With neither a fault nor a loss the acknowledge decides a transmit, and a receive gets its byte (R174). -/
theorem answers_of_good (hfault : env.busFault = false) (hlost : env.arbLost = false) :
    env.startAnswer = .accept ∧ env.txAnswer = (if env.ack then .ack else .nack) ∧ env.rxAnswer = .ok env.data := by
  simp [Env.startAnswer, Env.txAnswer, Env.rxAnswer, hfault, hlost]

/-- Settles O24: the causes are looked at in the order of R174. -/
theorem causesReportByPrecedence : Obligations.CausesReportByPrecedence := by
  intro env
  refine ⟨answers_of_busFault, answers_of_arbLost, fun hfault hlost => ?_⟩
  obtain ⟨hstart, htx, hrx⟩ := answers_of_good hfault hlost
  exact ⟨hstart, fun hack => htx.trans (if_pos hack), fun hnack => htx.trans (by rw [hnack]; rfl), hrx⟩

/-- Settles O38: the state after `rst` is that of R30 in every field of the engine, and the state before in the others. -/
theorem resetLineResetsEngine : Obligations.ResetLineResetsEngine := by
  intro s
  exact ⟨s.assertReset, rfl, rfl, rfl, rfl, rfl, rfl, rfl, rfl, rfl, rfl, rfl, rfl, rfl, rfl, rfl, rfl, rfl, rfl, rfl⟩

end Sys2Proof.Machine
end

section
/-! A transaction whose receives get their bytes (R199): its call is on track with `g = true`, so nothing in it is refused (R201),
and at each of its points the completion of the command in flight, or else the host's next access, brings its return nearer
(R198). -/

namespace Sys2Proof.Machine

variable {s t u : State} {c : HostCall} {n : Nat} {env : Oracle} {w : Bool} {S P T : Nat}

/-! ## No access is refused -/

/-- The call step of a transaction: from there it is on track, or it has touched no register and returned (R149). -/
theorem step_call_onTrack (hready : s.readyForCall) (hdom : c.TransactionInDomain) (hone : OneHost s.inputs) :
    ∃ v : State, step (s.given (.call c)) = .next v ∧ OneHost v.inputs ∧
      (onTrack true c.isWrite Config.stopOnAbort (startAttempts s.trace) (stopEvents s.trace) (transmits s.trace) v ∨
        v = s.hostReturns (.txn .success [])) := by
  obtain ⟨v, hcall, hinputs, hv⟩ := onTrack_call true Config.stopOnAbort hready hdom
  exact ⟨v, hcall, hinputs ▸ hone, hv.imp And.right And.right⟩

/-- A host in no call and an engine with nothing in flight have no step (R8). -/
theorem step_faults_of_idle (hidle : s.host = .idle) (hbusy : s.busy = .none) (hone : OneHost s.inputs) :
    ∃ f, step s = .fault f := by
  cases hinputs : s.inputs with
  | nil => exact ⟨.stuckNoInput, by simp [step, hinputs]⟩
  | cons i rest =>
    rw [step_cons hinputs]
    rcases hone i (by simp [hinputs]) with rfl | ⟨e, rfl⟩
    · exact ⟨.stuckHost, by simp [apply, hostStep, hidle, HostControl.access]⟩
    · exact ⟨.stuckEngine, by simp [apply, complete, hbusy]⟩

theorem run_ne_refused_of_idle (hidle : s.host = .idle) (hbusy : s.busy = .none) (hone : OneHost s.inputs) (r : Refusal) :
    core.run n s ≠ .refused r := by
  cases n with
  | zero => nofun
  | succ n =>
    obtain ⟨f, hf⟩ := step_faults_of_idle hidle hbusy hone
    rw [run_fault hf]
    nofun

/-- Settles O52: the call itself is taken, and the run goes on from a host on track or from one that has returned. -/
theorem transactionsAreNeverRefused : Obligations.TransactionsAreNeverRefused := by
  intro s c n r hready hdom hone hrx
  cases n with
  | zero => nofun
  | succ n =>
    obtain ⟨v, hstep, hone', hv⟩ := step_call_onTrack hready hdom hone
    rw [run_next hstep]
    rcases hv with htrack | rfl
    · exact (onTrack_run n v htrack hone' fun _ => envRxOk_step hrx hstep).2 rfl r
    · obtain ⟨-, -, hbusy⟩ := hready
      exact run_ne_refused_of_idle (s := s.hostReturns _) rfl hbusy hone' r

/-! ## An order of steps in which the call returns -/

/-- From `u` some order of host steps and completions, answered by the oracle, ends with the transaction returned. -/
def CanReturn (env : Oracle) (u : State) : Prop :=
  ∃ (ins : List Input) (t : State), OneHost ins ∧ (u.setInputs ins).answeredBy env ∧
    core.run ins.length (u.setInputs ins) = .next t ∧ t.host = .idle ∧ t.inputs = [] ∧
    ∃ st d, t.returned = some (.txn st d)

/-- The next move of a transaction's run: the completion of the command in flight, or the host's next access if there is none. -/
def nextMove (env : Oracle) (u : State) : Input :=
  if u.busy = .none then .host else .complete (env u.trace u.busy)

theorem nextMove_of_quiet (h : u.busy = .none) : nextMove env u = .host := if_pos h

theorem nextMove_of_inFlight (h : u.busy ≠ .none) : nextMove env u = .complete (env u.trace u.busy) := if_neg h

theorem nextMove_cases (env : Oracle) (u : State) :
    nextMove env u = .host ∨ nextMove env u = .complete (env u.trace u.busy) := by
  by_cases hbusy : u.busy = .none
  · exact .inl (nextMove_of_quiet hbusy)
  · exact .inr (nextMove_of_inFlight hbusy)

theorem answeredBy_of_no_inputs (h : u.inputs = []) : u.answeredBy env := by
  intro n t e rest hrun ht
  cases n with
  | zero =>
    obtain rfl := next_inj.1 hrun
    simp [h] at ht
  | succ n =>
    have hfault : step u = .fault .stuckNoInput := by simp [step, h]
    rw [run_fault hfault] at hrun
    cases hrun

/-- A run is answered by the oracle if its first completion is and the run after it is. -/
theorem answeredBy_of_step (hstep : step u = .next t)
    (hfirst : ∀ e rest, u.inputs = .complete e :: rest → e = env u.trace u.busy)
    (ht : t.answeredBy env) : u.answeredBy env := by
  intro n v e rest hrun hv
  cases n with
  | zero =>
    obtain rfl := next_inj.1 hrun
    exact hfirst e rest hv
  | succ n =>
    rw [run_next hstep] at hrun
    exact ht n v e rest hrun hv

theorem canReturn_of_returned (hidle : u.host = .idle) (hret : ∃ st d, u.returned = some (.txn st d)) : CanReturn env u :=
  ⟨[], u.setInputs [], nofun, answeredBy_of_no_inputs rfl, rfl, hidle, rfl, hret⟩

theorem canReturn_of_onTrack_idle (h : onTrack true w Config.stopOnAbort S P T u) (hidle : u.host = .idle) :
    CanReturn env u := by
  obtain ⟨-, st, d, -, hret, -⟩ := onTrack_afterTxn h hidle
  exact canReturn_of_returned hidle ⟨st, d, hret⟩

/-- The next move put before the order of steps that follows it. -/
theorem canReturn_of_nextMove (h : apply (nextMove env u) u = .next t) (ht : CanReturn env t) : CanReturn env u := by
  obtain ⟨ins, v, hone, hanswered, hrun, hv⟩ := ht
  have hstep : step (u.setInputs (nextMove env u :: ins)) = .next (t.setInputs ins) := by
    change apply (nextMove env u) (u.setInputs ins) = _
    rw [apply_setInputs, h]
    rfl
  refine ⟨nextMove env u :: ins, v, ?_, answeredBy_of_step hstep ?_ hanswered, (run_next hstep).trans hrun, hv⟩
  · rintro i (_ | ⟨_, hi⟩)
    · exact (nextMove_cases env u).imp_right fun h => ⟨_, h⟩
    · exact hone i hi
  · intro e rest he
    obtain ⟨he, -⟩ := List.cons.inj he
    rcases nextMove_cases env u with h | h
    · rw [h] at he
      cases he
    · rw [h] at he
      exact (Input.complete.inj he).symm

/-- The engine is stuck only with nothing in flight (R52). -/
theorem complete_ne_fault {e : Env} {f : Fault} (hbusy : u.busy ≠ .none) : complete e u ≠ .fault f := by
  intro h
  unfold complete at h
  split at h
  · exact hbusy ‹_›
  · cases h
  · unfold completeTx at h
    split at h <;> cases h
  · cases h
  · cases h

/-- On track, the next move is taken, stays on track and brings the return nearer. -/
theorem onTrack_nextMove (hrx : env.rxOk) (h : onTrack true w Config.stopOnAbort S P T u) (hcalling : u.host ≠ .idle) :
    ∃ t, apply (nextMove env u) u = .next t ∧ onTrack true w Config.stopOnAbort S P T t ∧
      (t.host = .idle ∨ t.remaining < u.remaining) := by
  have hcall := onTrack_inCall h hcalling 0 0#8 0#8 0
  by_cases hbusy : u.busy = .none
  · rw [nextMove_of_quiet hbusy]
    rcases onTrack_host h with ⟨t, ht, htrack, -, -⟩ | ⟨hfalse, -⟩ | ⟨hidle, -⟩
    · refine ⟨t, ht, htrack, ?_⟩
      rcases hostStep_inCall hcall ht with ⟨hidle, -⟩ | ⟨-, hless | ⟨-, hflight⟩⟩
      · exact .inl hidle
      · exact .inr hless
      · exact absurd hbusy hflight
    · cases hfalse
    · exact absurd hidle hcalling
  · rw [nextMove_of_inFlight hbusy]
    cases hcomplete : complete (env u.trace u.busy) u with
    | next t =>
      have hbyte : ∀ k, u.busy = .rx k → ∃ d, (env u.trace u.busy).rxAnswer = .ok d := fun k hk => hk ▸ hrx u.trace k
      exact ⟨t, hcomplete, onTrack_complete h (fun _ => hbyte) hcomplete, .inr (complete_inCall hcall hcomplete).2⟩
    | fault f => exact absurd hcomplete (complete_ne_fault hbusy)
    | refused r => exact absurd hcomplete (onTrack_complete_not_refused h)

/-- Every point of a transaction on track can return, by induction on what is left of it. -/
theorem canReturn_of_onTrack (hrx : env.rxOk) (h : onTrack true w Config.stopOnAbort S P T u) : CanReturn env u := by
  induction hR : u.remaining using Nat.strong_induction_on generalizing u with
  | _ R ih =>
    subst hR
    by_cases hidle : u.host = .idle
    · exact canReturn_of_onTrack_idle h hidle
    · obtain ⟨t, hmove, htrack, hreturned | hless⟩ := onTrack_nextMove hrx h hidle
      · exact canReturn_of_nextMove hmove (canReturn_of_onTrack_idle htrack hreturned)
      · exact canReturn_of_nextMove hmove (ih _ hless htrack rfl)

/-- Settles O57: every point after the call is on track or has returned already. -/
theorem transactionsCanAlwaysReturn : Obligations.TransactionsCanAlwaysReturn := by
  intro s u c n env hready hdom hone hrx hn hrun horacle
  obtain ⟨n, rfl⟩ := Nat.exists_eq_succ_of_ne_zero hn.ne'
  obtain ⟨v, hstep, hone', hv⟩ := step_call_onTrack hready hdom hone
  rw [run_next hstep] at hrun
  rcases hv with htrack | rfl
  · exact canReturn_of_onTrack horacle ((onTrack_run n v htrack hone' fun _ => envRxOk_step hrx hstep).1 u hrun)
  · obtain ⟨-, -, hbusy⟩ := hready
    obtain rfl := run_eq_self_of_idle (s := s.hostReturns _) rfl hbusy hone' hrun
    exact canReturn_of_returned rfl ⟨.success, [], rfl⟩

end Sys2Proof.Machine
end
